-- ==== Sys2Proof/Word.lean ====
section
/-! DEFINITION. The word types of the block: bytes, host addresses and identifiers (00_scope.md R12 to R14). -/

namespace Sys2Proof

/-- An 8-bit register, data byte or command word (R12). Bit 0 is the least significant bit (R13). -/
abbrev Byte := BitVec 8

/-- A host register address, 5 bits (R12, R22). -/
abbrev Address := BitVec 5

/-- A device identifier, 64 bits (R8). Bit `pos` is the bit of position `pos`, so byte `i`, the
spec's `ID[i]`, is the field of bits `8*i` to `8*i + 7` and `IdBit(ID, pos) = ID[pos >> 3][pos & 7]`
(R14). One vector holds the eight registers `ID0` to `ID7`. -/
abbrev Identifier := BitVec 64

end Sys2Proof
end

