-- ==== Sys2Proof/Syntax.lean ====
section
/-! DEFINITION. The fifteen commands (30_encoding.md R91) and the fields of a command word (R90). -/

namespace Sys2Proof

/-- The commands, one constructor per row of the opcode table. Operands are in registers (R95); the
only operand in the word is `RSTF`, of the three ROM commands (R92). -/
inductive Instr where
  /-- `RESET`, `OP` 0x1 (R122). -/
  | reset
  /-- `WRITE_BIT`, `OP` 0x2 (R125). -/
  | writeBit
  /-- `READ_BIT`, `OP` 0x3 (R128). -/
  | readBit
  /-- `WRITE_BYTE`, `OP` 0x4 (R142). -/
  | writeByte
  /-- `READ_BYTE`, `OP` 0x5 (R145). -/
  | readByte
  /-- `SKIP_ROM`, `OP` 0x6 (R151). -/
  | skipRom (rstf : Bool)
  /-- `READ_ROM`, `OP` 0x7 (R153). -/
  | readRom (rstf : Bool)
  /-- `MATCH_ROM`, `OP` 0x8 (R155). -/
  | matchRom (rstf : Bool)
  /-- `SEARCH_ROM`, `OP` 0x9 (R180). -/
  | searchRom
  /-- `FIND_DEVICES`, `OP` 0xA (R187). -/
  | findDevices
  /-- `SEARCH_INIT`, `OP` 0xB (R172). -/
  | searchInit
  /-- `CRC_CLEAR`, `OP` 0xC (R203). -/
  | crcClear
  /-- `CRC_UPDATE`, `OP` 0xD (R204). -/
  | crcUpdate
  /-- `CRC_ID`, `OP` 0xE (R205). -/
  | crcId
  /-- `CRC_CHECK`, `OP` 0xF (R206). -/
  | crcCheck
deriving DecidableEq, Repr

/-- The three fields of a command word, format `CW` (R90). -/
structure CommandFields where
  /-- `RSTF`, bit 7: reset first. -/
  rstf : Bool
  /-- bits 6 to 4. -/
  reserved : BitVec 3
  /-- `OP`, bits 3 to 0. -/
  op : BitVec 4
deriving DecidableEq, Repr

end Sys2Proof
end

