-- ==== Sys2Proof/WellFormed.lean ====
section
/-! DEFINITION. Which command words and which instruction terms are well formed (30_encoding.md R92 to R94). -/

namespace Sys2Proof

/-- The opcodes that take `RSTF`: `SKIP_ROM`, `READ_ROM`, `MATCH_ROM` (R92). -/
def takesRstf (op : BitVec 4) : Bool := op == 0x6 || op == 0x7 || op == 0x8

/-- The legality rule R93: reserved bits 0, `OP` not 0, `RSTF` only where it is taken. -/
def CommandFields.wellFormed (c : CommandFields) : Bool :=
  c.reserved == 0 && c.op != 0 && (!c.rstf || takesRstf c.op)

/-- Every term of `Instr` is well formed: the only operand field is `RSTF`, one bit, which the three
constructors that have it take at both values (R92, R93). The checks of R93 are checks of words. -/
def Instr.wellFormed : Instr → Bool
  | .reset => true
  | .writeBit => true
  | .readBit => true
  | .writeByte => true
  | .readByte => true
  | .skipRom _ => true
  | .readRom _ => true
  | .matchRom _ => true
  | .searchRom => true
  | .findDevices => true
  | .searchInit => true
  | .crcClear => true
  | .crcUpdate => true
  | .crcId => true
  | .crcCheck => true

end Sys2Proof
end

