-- ==== Sys2Proof/Decode.lean ====
section
/-! DEFINITION. Decoding of a command word, total, and the encoder (30_encoding.md R90 to R94, R104). -/

namespace Sys2Proof

/-- Why a command word is illegal (R94). -/
inductive DecodeError where
  /-- A nonzero reserved bit, bits 6 to 4. -/
  | reservedBits
  /-- `OP` = 0x0. -/
  | reservedOpcode
  /-- `RSTF` = 1 with an `OP` outside 0x6, 0x7, 0x8. -/
  | rstfNotTaken
deriving DecidableEq, Repr

/-- The fields of a command word (R90). -/
def fieldsOf (w : Byte) : CommandFields where
  rstf := w.getLsbD 7
  reserved := w.extractLsb' 4 3
  op := w.extractLsb' 0 4

/-- The command word with these fields, `RSTF` in bit 7 and `OP` in bits 3 to 0 (R90). -/
def wordOf (c : CommandFields) : Byte := BitVec.ofBool c.rstf ++ c.reserved ++ c.op

/-- The command an opcode stands for, with the word's `RSTF` bit (R91). -/
def instrOfOp (op : BitVec 4) (rstf : Bool) : Option Instr :=
  match op.toNat with
  | 0x1 => some .reset
  | 0x2 => some .writeBit
  | 0x3 => some .readBit
  | 0x4 => some .writeByte
  | 0x5 => some .readByte
  | 0x6 => some (.skipRom rstf)
  | 0x7 => some (.readRom rstf)
  | 0x8 => some (.matchRom rstf)
  | 0x9 => some .searchRom
  | 0xA => some .findDevices
  | 0xB => some .searchInit
  | 0xC => some .crcClear
  | 0xD => some .crcUpdate
  | 0xE => some .crcId
  | 0xF => some .crcCheck
  | _ => none

/-- Decoding of a command word by its fields (R93), each illegal word rejected by name (R94). -/
def decodeFields (c : CommandFields) : Except DecodeError Instr :=
  if c.reserved ≠ 0 then .error .reservedBits
  else match instrOfOp c.op c.rstf with
    | none => .error .reservedOpcode
    | some i => if c.rstf && !takesRstf c.op then .error .rstfNotTaken else .ok i

/-- Decoding of a command word, total on all 256 bytes (R93, R94). -/
def decode (w : Byte) : Except DecodeError Instr := decodeFields (fieldsOf w)

/-- Decoding of the first of a list of bytes, with the rest: a command is exactly one byte (R90). -/
def decodeBytes : List Byte → Option (Except DecodeError Instr × List Byte)
  | [] => none
  | w :: rest => some (decode w, rest)

/-- The opcode of a command (R91). -/
def Instr.op : Instr → BitVec 4
  | .reset => 0x1
  | .writeBit => 0x2
  | .readBit => 0x3
  | .writeByte => 0x4
  | .readByte => 0x5
  | .skipRom _ => 0x6
  | .readRom _ => 0x7
  | .matchRom _ => 0x8
  | .searchRom => 0x9
  | .findDevices => 0xA
  | .searchInit => 0xB
  | .crcClear => 0xC
  | .crcUpdate => 0xD
  | .crcId => 0xE
  | .crcCheck => 0xF

/-- The `RSTF` bit of a command (R92): 0 where it is not taken. -/
def Instr.rstf : Instr → Bool
  | .reset => false
  | .writeBit => false
  | .readBit => false
  | .writeByte => false
  | .readByte => false
  | .skipRom r => r
  | .readRom r => r
  | .matchRom r => r
  | .searchRom => false
  | .findDevices => false
  | .searchInit => false
  | .crcClear => false
  | .crcUpdate => false
  | .crcId => false
  | .crcCheck => false

/-- The command word of a command (R90, R91, R104). -/
def encode (i : Instr) : Byte := wordOf { rstf := i.rstf, reserved := 0, op := i.op }

/-- The instruction the decoder reads from a table word: `nbits` bits, `w` their value, bit 0 the least
significant. Every command is one byte, so a value of more than eight bits is no command word. -/
def decodeTableWord (_nbits w : Nat) : Option Instr :=
  if w < 256 then
    match decode (BitVec.ofNat 8 w) with
    | .ok i => some i
    | .error _ => none
  else none

end Sys2Proof
end

