-- ==== Sys2Proof/Config.lean ====
section
/-! DEFINITION. What is fixed for the block (00_scope.md R8, R9) and the values the spec leaves free.
The two open parameters of R10 and R11 are a field of State (log 2). -/

namespace Sys2Proof.Config

/-- `T_RSTL`, reset low, µs (R9). -/
def tRstl : Nat := 480
/-- `T_PDS`, release to presence sample, µs (R9). -/
def tPds : Nat := 70
/-- `T_RSTR`, presence sample to the end of the reset sequence, µs (R9). -/
def tRstr : Nat := 410
/-- `T_W1L`, write-1 low, µs (R9). -/
def tW1l : Nat := 6
/-- `T_W1R`, write-1 released, µs (R9). -/
def tW1r : Nat := 64
/-- `T_W0L`, write-0 low, µs (R9). -/
def tW0l : Nat := 60
/-- `T_W0R`, write-0 released, µs (R9). -/
def tW0r : Nat := 10
/-- `T_RDL`, read slot low, µs (R9). -/
def tRdl : Nat := 6
/-- `T_RDS`, release to read sample, µs (R9). -/
def tRds : Nat := 9
/-- `T_RDR`, read sample to the end of the slot, µs: exactly 55 (R9, D8, U18; log 12). -/
def tRdr : Nat := 55

/-- ROM command bytes (R8, R98). -/
def romSkip : Byte := 0xCC
def romRead : Byte := 0x33
def romMatch : Byte := 0x55
def romSearch : Byte := 0xF0

/-- Search positions of a pass (R8). -/
def positions : Nat := 64

/-- The reflected CRC polynomial constant, 0x31 with its bits reversed (R200). -/
def crcPoly : Byte := 0x8C

/-- The sentinel -1 of the search state as `LASTDEV` holds it (R8, R36). -/
def sentinel : Byte := 0xFF

/-- FREE VALUE: the level `ow_in` has at the `n`-th sample since reset, where nothing in State says
what it is (R48, R49, U16; log 3). -/
opaque freeLevel : Nat → Bool

/-- FREE VALUE: what `h_rdata` shows at the `n`-th unspecified host read (R64, R68, U10, U19; log 5). -/
opaque freeRead : Nat → Byte

/-- FREE VALUE: byte `a` of `BUF` after the `r`-th hardware reset while no `FIND_DEVICES` has written it
since (R43, U9; log 4). The same until it is written. -/
opaque freeBuf (r a : Nat) : Byte

end Sys2Proof.Config
end

