-- ==== Sys2Proof/Machine/State.lean ====
section
/-! DEFINITION. The state of the block, of the bus it drives and of the inputs it has still to take
(10_state.md R20 to R50, 20_memory.md R60, R76 to R85), the ways a step can stop, and the state after reset. -/

namespace Sys2Proof.Machine

/-! ## Results and causes -/

/-- `STATUS.RESULT`, the value the last search pass returned (R32, R107). -/
inductive SearchResult where
  /-- 0: no search pass has ended since reset or `SEARCH_INIT`. -/
  | none
  /-- 1. -/
  | failed
  /-- 2. -/
  | done
  /-- 3. -/
  | moreAvailable
deriving DecidableEq, Repr

/-- `ERR.CAUSE`, the cause of the last failure (R33, R108, R241). -/
inductive Cause where
  /-- 0: no failure. -/
  | none
  /-- 1: no presence pulse after a bus reset (R242). -/
  | busError
  /-- 2: both bits of a search pair read 1 (R243). -/
  | protocolError
  /-- 3: the CRC register is not 0 (R244). -/
  | integrityError
  /-- 5: an illegal command word (R247). -/
  | illegalCmd
  /-- 6: `MAX` is 0 or exceeds `NBUF` (R248). -/
  | illegalOperand
deriving DecidableEq, Repr

/-! ## The parameters -/

/-- The two parameters the spec leaves open. They are part of State so that every statement holds for
every value of them; no step changes them (log 2). -/
structure Params where
  /-- `TICKS_PER_US`: clock periods in a microsecond, at least 1 (R10). -/
  ticksPerUs : Nat
  /-- `NBUF`: entries of the identifier buffer, 1 to 255 (R11). -/
  nbuf : Nat
deriving DecidableEq, Repr

/-- The bounds of R10 and R11. -/
abbrev Params.wf (p : Params) : Prop := 1 ≤ p.ticksPerUs ∧ 1 ≤ p.nbuf ∧ p.nbuf ≤ 255

/-! ## The identifier buffer -/

/-- The buffer `BUF` (R43): the bytes a `FIND_DEVICES` has written since reset, byte `i` of entry `e` at
address `8*e + i` (R61), addresses strictly rising. An unlisted byte has no value (U9; log 4). -/
abbrev Memory := List Host.Cell

/-- The canonical form: addresses strictly rising. -/
abbrev Memory.wf (m : Memory) : Prop := m.Pairwise (fun c d => c.1 < d.1)

/-! ## The line and its environment -/

/-- One segment the block has driven (R99): `L(n)` or `Z(n)`, µs. -/
inductive Segment where
  /-- `DriveLow(n)`. -/
  | low (us : Nat)
  /-- `Release(n)`. -/
  | released (us : Nat)
deriving DecidableEq, Repr

/-- How far a slave of the reference bus is through the current ROM command (R48, R80 to R84). -/
inductive SlaveMode where
  /-- After a bus reset: taking the ROM command byte, `got` bits so far, their value `acc` (R80). -/
  | romCommand (got : Nat) (acc : Byte)
  /-- After 0x33: will send the bit of position `pos` (R82). -/
  | sendId (pos : Nat)
  /-- After 0x55: compares the next written bit with the bit of position `pos` (R83). -/
  | matching (pos : Nat)
  /-- In a search: will answer the first read slot of position `pos` (R84). -/
  | searchTrue (pos : Nat)
  /-- In a search: will answer the second read slot of position `pos` (R84). -/
  | searchCompl (pos : Nat)
  /-- In a search: takes the written bit of position `pos` (R84). -/
  | searchWrite (pos : Nat)
  /-- Addressed: takes what follows (R81, R83). -/
  | selected
  /-- Deselected or dropped out: ignores the bus until the next reset (R83, R84). -/
  | ignoring
  /-- In a situation of which the spec says nothing (N7, U17; log 9): what it does to the line is unknown
  until the next bus reset. -/
  | unknown
deriving DecidableEq, Repr

/-- A slave of the reference bus. -/
structure Slave where
  /-- Its identifier. -/
  ident : Identifier
  /-- Where it is in the protocol. -/
  mode : SlaveMode
  /-- The bits its function layer will send in read slots while it is selected; after them it leaves the
  line alone. Data of the environment: no rule gives a device's function commands (N10; log 18). -/
  reply : List Bool
deriving DecidableEq, Repr

/-- The reference bus of 20_memory.md section 5. -/
structure ReferenceBus where
  slaves : List Slave
  /-- What several identifiers or replies sent at once give: `true`, the AND of the ideal bus (R76, R82);
  `false`, an unconstrained level (U2, U4; log 10). A search pair is a wired AND in both. -/
  collisionsAnd : Bool
deriving DecidableEq, Repr

/-- What answers the samples (R48, R49; log 3). -/
inductive Environment where
  /-- The levels the next samples return, in order; after the last one every level is free. -/
  | scripted (levels : List Bool)
  /-- The slaves of the reference bus (R76 to R85). -/
  | reference (bus : ReferenceBus)
deriving DecidableEq, Repr

/-- The line side of the block: what answers it, what it has driven, how often it has sampled. -/
structure Line where
  env : Environment
  /-- The segments driven so far, newest first (R296; log 15). -/
  wire : List Segment
  /-- Samples taken so far. -/
  samples : Nat
deriving DecidableEq, Repr

/-! ## The sequencer -/

/-- Which step of the running command's pseudocode is under way (R47). -/
inductive Phase where
  /-- No command runs. -/
  | idle
  /-- The reset sequence of `BusReset()` (R121). -/
  | busReset
  /-- The write slot of `WRITE_BIT` (R125). -/
  | bitOut
  /-- The read slot of `READ_BIT` (R128). -/
  | bitIn
  /-- A write slot of the ROM command byte (R98). -/
  | romByte
  /-- A write slot of a data byte: `WRITE_BYTE`, `MATCH_ROM` (R141). -/
  | byteOut
  /-- A read slot of a data byte: `READ_BYTE`, `READ_ROM` (R144). -/
  | byteIn
  /-- The first read slot of a triplet (R100). -/
  | searchTrue
  /-- The second read slot of a triplet (R100). -/
  | searchCompl
  /-- The write slot of a triplet (R100). -/
  | searchWrite
deriving DecidableEq, Repr

/-- The sequencer registers, not host-readable (R47). -/
structure Sequencer where
  op : BitVec 4
  rstf : Bool
  phase : Phase
  pos : BitVec 6
  /-- The document's new deviation point, signed; 0xFF when none. -/
  newDev : Byte
  idBit : Bool
  cmpBit : Bool
  /-- The resolved bit at the current position. -/
  dir : Bool
  /-- The byte framer's shift register (R147). -/
  sh : Byte
  bitcnt : BitVec 3
  /-- Byte index, 0 (the ROM byte) to 8. -/
  bytecnt : BitVec 4
  /-- Segment index within a slot or a reset sequence. -/
  seg : Fin 3
  /-- Clock periods left in the current segment (R258). -/
  timer : Nat
  /-- The working count of `FIND_DEVICES`. -/
  cnt : Byte
  /-- The model's own: the level sampled in this slot, the local `s` of R121 and R127, held to the slot's
  end (log 8). -/
  smp : Bool
deriving DecidableEq, Repr

/-- The idle sequencer: all registers 0 except `newDev` (R47, R50). -/
def Sequencer.idle : Sequencer where
  op := 0
  rstf := false
  phase := .idle
  pos := 0
  newDev := Config.sentinel
  idBit := false
  cmpBit := false
  dir := false
  sh := 0
  bitcnt := 0
  bytecnt := 0
  seg := 0
  timer := 0
  cnt := 0
  smp := false

/-! ## Inputs -/

/-- The input ports at one rising edge of `clk` (R20, R22). -/
structure Ports where
  rst : Bool
  we : Bool
  re : Bool
  addr : Address
  wdata : Byte
deriving DecidableEq, Repr

/-- One input of the block, taken by one step (log 1). -/
inductive Input where
  /-- A rising edge of `clk` with these port values. -/
  | clock (p : Ports)
  /-- A command at command level: the host writes the word to `CMD` and waits until `BUSY` = 0, as one
  step (R105, R296). -/
  | command (w : Byte)
  /-- The environment becomes another one: devices join, leave or are replaced (R85, R185; log 18). -/
  | environment (e : Environment)
deriving DecidableEq, Repr

/-! ## The state -/

/-- The block, its line and its inputs. Plain data. -/
structure State where
  /-- `CMD`, the last accepted command word (R26). -/
  cmd : Byte
  /-- `STATUS.BUSY`, also the wire `busy` (R28, R44). -/
  busy : Bool
  /-- `STATUS.PRESENT` (R29). -/
  present : Bool
  /-- `STATUS.FAIL` (R30). -/
  fail : Bool
  /-- `STATUS.RESULT` (R32). -/
  result : SearchResult
  /-- `ERR.CAUSE` (R33). -/
  err : Cause
  /-- `DATA` (R34). -/
  data : Byte
  /-- `CRC` (R35). -/
  crc : Byte
  /-- `LASTDEV`, signed (R36). -/
  lastDev : Byte
  /-- `MAX` (R37). -/
  max : Byte
  /-- `COUNT` (R38). -/
  count : Byte
  /-- `ID0` to `ID7` (R39). -/
  ident : Identifier
  /-- `BUFSEL` (R40). -/
  bufSel : Byte
  /-- `BUF` (R43). -/
  buf : Memory
  /-- The pin driver bit; `ow_pull_low` = `drv` (R45, R21). -/
  drv : Bool
  /-- The sequencer registers (R47). -/
  seq : Sequencer
  /-- The output `h_rdata` in the latest clock period (R22, R63; log 16). -/
  hRdata : Byte
  /-- `TICKS_PER_US` and `NBUF` (R10, R11; log 2). -/
  params : Params
  /-- The line side (R21, R48; log 3, log 15). -/
  line : Line
  /-- Unspecified host reads so far, the index of the next free byte (log 5). -/
  reads : Nat
  /-- Hardware resets so far, which fixes the unknown contents of `BUF` (log 4). -/
  resets : Nat
  /-- The inputs still to come, next first (log 1). -/
  pending : List Input
deriving DecidableEq, Repr

/-! ## Ways a step can stop -/

/-- No constructor: nothing stops the block. Every host address is valid (R61), "No operation is fatal"
(R240), and a failure is a flag after which the block takes the next command (R250). -/
inductive Fault : Type
deriving DecidableEq, Repr

/-- The refusals of the model. -/
inductive Refusal where
  /-- An instruction without a meaning, refused by its mnemonic in `exec`. Safe. No arm uses it. -/
  | notModelled (mnemonic : String)
deriving DecidableEq, Repr

/-! ## Reset -/

/-- The state right after a hardware reset at power-on (R50): the registers at the spec's values, nothing
known of `BUF`, no input waiting. The parameters, the environment and the counters are the model's
(DESIGN CHOICE, log 1 to 5, 15, 16). -/
def State.reset : State where
  cmd := 0x00
  busy := false
  present := false
  fail := false
  result := .none
  err := .none
  data := 0x00
  crc := 0x00
  lastDev := Config.sentinel
  max := 0x00
  count := 0x00
  ident := 0
  bufSel := 0x00
  buf := []
  drv := false
  seq := Sequencer.idle
  hRdata := 0x00
  params := { ticksPerUs := 1, nbuf := 4 }
  line := { env := .scripted [], wire := [], samples := 0 }
  reads := 0
  resets := 0
  pending := []

end Sys2Proof.Machine
end

