-- ==== Sys2Proof/Machine/Operands.lean ====
section
/-! DEFINITION. Operand forms and the bits and bytes of registers (30_encoding.md R95, R96; 00_scope.md R14;
20_memory.md R70 to R73). -/

namespace Sys2Proof.Machine

/-- Runs `f 0`, `f 1`, …, `f (n - 1)` in this order: the pseudocode's `for k := 0 to n - 1` (R16). -/
def forUpTo {σ : Type} (f : Nat → σ → σ) : Nat → σ → σ
  | 0, s => s
  | n + 1, s => f n (forUpTo f n s)

/-- A bit zero-extended to a byte (R73, R96). -/
def zextBit (b : Bool) : Byte := (BitVec.ofBool b).setWidth 8

/-- The bit operand, `DATA[0]`; `DATA[7:1]` is ignored (R96, R126). -/
def bitOperand (s : State) : Bool := s.data.getLsbD 0

/-- The byte operand, the whole of `DATA` (R96). -/
def byteOperand (s : State) : Byte := s.data

/-- `last_deviation`, the signed value of `LASTDEV` (R36, R96). -/
def lastDeviation (s : State) : Int := s.lastDev.toInt

/-- `IdBit(ID, pos) = ID[pos >> 3][pos & 7]` (R14). -/
def idBit (id : Identifier) (pos : Nat) : Bool := id.getLsbD pos

/-- The identifier with the bit of position `pos` set to `b`, the other 63 as they are (R114). -/
def setIdBit (id : Identifier) (pos : Nat) (b : Bool) : Identifier :=
  (id &&& ~~~(1#64 <<< pos)) ||| ((BitVec.ofBool b).setWidth 64 <<< pos)

/-- `ID[i]` (R39, R72). -/
def idByte (id : Identifier) (i : Nat) : Byte := id.extractLsb' (8 * i) 8

/-- The identifier with byte `i` set to `v`, the other seven as they are. -/
def setIdByte (id : Identifier) (i : Nat) (v : Byte) : Identifier :=
  (id &&& ~~~(0xFF#64 <<< (8 * i))) ||| (v.setWidth 64 <<< (8 * i))

/-- The identifier written byte 0 first, as the spec writes identifiers (R72). -/
def idOfBytes (b0 b1 b2 b3 b4 b5 b6 b7 : Byte) : Identifier :=
  b7 ++ b6 ++ b5 ++ b4 ++ b3 ++ b2 ++ b1 ++ b0

/-- Whether `FIND_DEVICES` may run with this `MAX`: 1 to `NBUF`, unsigned (R37, R191, R110 (c)). -/
def maxLegal (s : State) : Bool := s.max.toNat != 0 && decide (s.max.toNat ≤ s.params.nbuf)

/-- The values of `LASTDEV` that name a position or the sentinel: 0x00 to 0x3F and 0xFF (R36). -/
def legalDeviation (v : Byte) : Bool := v == Config.sentinel || decide (v.toNat < Config.positions)

end Sys2Proof.Machine
end

