-- ==== Sys2Proof/Machine/Bus.lean ====
section
/-! DEFINITION. The bus environment: what a sample returns and what the slaves of the reference bus do
(20_memory.md R76 to R85, 10_state.md R48). The block acts on samples alone; where the spec says nothing
of a slave its level is free (log 3, 9, 10). -/

namespace Sys2Proof.Machine

/-- What a slave does to the line in a read slot (R79). -/
inductive Drive where
  /-- Leaves the line alone. -/
  | released
  /-- Sends this bit: holds the line low for a 0, leaves it alone for a 1. -/
  | sends (b : Bool)
  /-- Nothing is known of it. -/
  | anything
deriving DecidableEq, Repr

/-- What a slave does in a read slot (R79, R82, R84): a slave that is not transmitting leaves the line alone. -/
def Slave.drive (v : Slave) : Drive :=
  match v.mode with
  | .sendId pos => .sends (idBit v.ident pos)
  | .searchTrue pos => .sends (idBit v.ident pos)
  | .searchCompl pos => .sends (!idBit v.ident pos)
  | .selected => match v.reply with
    | [] => .released
    | b :: _ => .sends b
  | .unknown => .anything
  | .romCommand _ _ => .released
  | .matching _ => .released
  | .searchWrite _ => .released
  | .ignoring => .released

/-- A slave after a read slot. One that was waiting for a written bit is in a situation the spec does not
describe (log 9). -/
def Slave.afterRead (v : Slave) : Slave :=
  match v.mode with
  | .sendId pos => { v with mode := if pos < 63 then .sendId (pos + 1) else .unknown }
  | .searchTrue pos => { v with mode := .searchCompl pos }
  | .searchCompl pos => { v with mode := .searchWrite pos }
  | .selected => { v with reply := v.reply.tail }
  | .ignoring => v
  | .romCommand _ _ => { v with mode := .unknown }
  | .matching _ => { v with mode := .unknown }
  | .searchWrite _ => { v with mode := .unknown }
  | .unknown => v

/-- The mode a ROM command byte puts a slave in (R81 to R84). What another byte does is not in the spec (N7). -/
def afterRomByte (c : Byte) : SlaveMode :=
  if c = Config.romSkip then .selected
  else if c = Config.romRead then .sendId 0
  else if c = Config.romMatch then .matching 0
  else if c = Config.romSearch then .searchTrue 0
  else .unknown

/-- A slave after a write slot that delivers `b` (R78, R80 to R84). One that was sending is in a situation the
spec does not describe, and so is one that a search has left alone on the bus (R84; log 9). A device that a match does not
select is deselected at the first bit that differs from its identifier: the model's choice, since R83 gives no bit (log 22). A selected slave takes what is written as addressed to it (R81, R83)
and keeps the reply bits it has not sent, for its next read slots: the model's choice, since no rule gives a device's
function commands (N10; log 18). -/
def Slave.afterWrite (b : Bool) (v : Slave) : Slave :=
  match v.mode with
  | .romCommand got acc =>
    let byte := acc ||| (zextBit b <<< got)
    { v with mode := if got < 7 then .romCommand (got + 1) byte else afterRomByte byte }
  | .matching pos =>
    { v with mode := if b = idBit v.ident pos then (if pos < 63 then .matching (pos + 1) else .selected)
                     else .ignoring }
  | .searchWrite pos =>
    { v with mode := if b = idBit v.ident pos then (if pos < 63 then .searchTrue (pos + 1) else .unknown)
                     else .ignoring }
  | .selected => v
  | .ignoring => v
  | .sendId _ => { v with mode := .unknown }
  | .searchTrue _ => { v with mode := .unknown }
  | .searchCompl _ => { v with mode := .unknown }
  | .unknown => v

/-- A slave after a bus reset: it listens for a ROM command (R80). The spec does not say what becomes of reply bits it has not
sent; that they stay, for its next selection, is the model's choice (log 18). -/
def Slave.afterReset (v : Slave) : Slave := { v with mode := .romCommand 0 0 }

/-- Whether a slave is sending its identifier or a reply, where several at once collide (U2, U4). -/
def Slave.talks (v : Slave) : Bool :=
  match v.mode with
  | .sendId _ => true
  | .selected => !v.reply.isEmpty
  | .romCommand _ _ => false
  | .matching _ => false
  | .searchTrue _ => false
  | .searchCompl _ => false
  | .searchWrite _ => false
  | .ignoring => false
  | .unknown => false

/-- Whether two or more slaves talk at once. -/
def ReferenceBus.collides (bus : ReferenceBus) : Bool := decide (2 ≤ bus.slaves.countP Slave.talks)

/-- The level of a read slot: low if a slave sends 0, high if none does (R76); the free level where a slave's
behaviour is unknown, or where talkers collide and the bus does not promise the AND. -/
def ReferenceBus.readLevel (bus : ReferenceBus) (free : Bool) : Bool :=
  if !bus.collisionsAnd && bus.collides then free
  else if bus.slaves.any (fun v => v.drive == .sends false) then false
  else if bus.slaves.any (fun v => v.drive == .anything) then free
  else true

/-- The level of the presence sample: low exactly when a device is on the bus (R77). -/
def ReferenceBus.presenceLevel (bus : ReferenceBus) : Bool := bus.slaves.isEmpty

/-- The slaves of the bus changed one by one. -/
def ReferenceBus.mapSlaves (f : Slave → Slave) (bus : ReferenceBus) : ReferenceBus :=
  { bus with slaves := bus.slaves.map f }

/-- The two kinds of sample: in a reset sequence and in a read slot (R99). -/
inductive SampleKind where
  | presence
  | readSlot
deriving DecidableEq, Repr

/-- The level a sample of this kind returns; `free` is the level where nothing says what it is. -/
def Environment.level (k : SampleKind) (free : Bool) : Environment → Bool
  | .scripted [] => free
  | .scripted (b :: _) => b
  | .reference bus =>
    match k with
    | .presence => bus.presenceLevel
    | .readSlot => bus.readLevel free

/-- The environment after a sample: the script is one level shorter, the slaves have seen a bus reset (R80) or a
read slot (R79). That they advance at the sample, and not at another instant of the reset sequence or read slot, is the
model's choice (log 21): the spec gives no instant (N7). -/
def Environment.afterSample (k : SampleKind) : Environment → Environment
  | .scripted levels => .scripted levels.tail
  | .reference bus =>
    match k with
    | .presence => .reference (bus.mapSlaves Slave.afterReset)
    | .readSlot => .reference (bus.mapSlaves Slave.afterRead)

/-- The environment after a write slot that delivers `b` (R78). -/
def Environment.afterWrite (b : Bool) : Environment → Environment
  | .scripted levels => .scripted levels
  | .reference bus => .reference (bus.mapSlaves (Slave.afterWrite b))

/-- The environment after the block was reset in the middle of a command: what the slaves make of the cut
waveform is unknown (R271, U17; log 19). -/
def Environment.afterCut : Environment → Environment
  | .scripted levels => .scripted levels
  | .reference bus => .reference (bus.mapSlaves (fun v => { v with mode := .unknown }))

end Sys2Proof.Machine
end

