-- ==== Sys2Proof/Machine/Ops.lean ====
section
/-! DEFINITION. The operations the commands share: the line primitives and time slots (00_scope.md R17,
41_bus_signal.md R121, R124, R127), the byte framer (42_byte_framing.md R141, R144), the identifier buffer,
the acceptance of a command (R120), taking a failure (60_exceptions.md R246) and hardware reset (R270). -/

namespace Sys2Proof.Machine

/-! ## The line -/

/-- A segment has been driven to its end. -/
def Line.record (g : Segment) (l : Line) : Line := { l with wire := g :: l.wire }

/-- `DriveLow(n)` (R17). -/
def driveLow (n : Nat) (l : Line) : Line := l.record (.low n)

/-- `Release(n)` (R17). -/
def release (n : Nat) (l : Line) : Line := l.record (.released n)

/-- The level `Sample()` returns now (R17, R23). -/
def Line.level (k : SampleKind) (l : Line) : Bool := l.env.level k (Config.freeLevel l.samples)

/-- The line after `Sample()`; the slaves advance at it (the model's choice, log 21). -/
def Line.sampled (k : SampleKind) (l : Line) : Line :=
  { l with env := l.env.afterSample k, samples := l.samples + 1 }

/-- The line after the slaves have taken a written bit (R78), at the end of its slot (the model's choice, log 21). -/
def Line.deliver (b : Bool) (l : Line) : Line := { l with env := l.env.afterWrite b }

/-- `BusReset()`: whether presence was detected, and the line after the 960 µs (R121). `STATUS.PRESENT` is
written by the caller. -/
def busReset (l : Line) : Bool × Line :=
  let l1 := release Config.tPds (driveLow Config.tRstl l)
  (!l1.level .presence, release Config.tRstr (l1.sampled .presence))

/-- `WriteBit(b)` (R124); the slaves that listen take `b` (R78), here at the slot's end (log 21). -/
def writeBit (b : Bool) (l : Line) : Line :=
  if b then (release Config.tW1r (driveLow Config.tW1l l)).deliver b
  else (release Config.tW0r (driveLow Config.tW0l l)).deliver b

/-- `ReadBit()`: the bit and the line after the slot (R127). -/
def readBit (l : Line) : Bool × Line :=
  let l1 := release Config.tRds (driveLow Config.tRdl l)
  (l1.level .readSlot, release Config.tRdr (l1.sampled .readSlot))

/-- `WriteByte(v)`: bit 0 first (R141, R70). -/
def writeByte (v : Byte) (l : Line) : Line := forUpTo (fun k => writeBit (v.getLsbD k)) 8 l

/-- `ReadByte()`: the first bit received becomes bit 0 (R144, R70). -/
def readByte (l : Line) : Byte × Line :=
  forUpTo (fun k p =>
    let r := readBit p.2
    (p.1 ||| (zextBit r.1 <<< k), r.2)) 8 (0x00, l)

/-! ## The identifier buffer -/

/-- The byte at an address of the buffer, if a `FIND_DEVICES` has written it since reset. -/
def Memory.read (m : Memory) (a : Nat) : Option Byte :=
  match m with
  | [] => none
  | (b, v) :: rest => if b = a then some v else Memory.read rest a

/-- One byte written at an address; the canonical form is kept. -/
def Memory.write (m : Memory) (a : Nat) (v : Byte) : Memory :=
  match m with
  | [] => [(a, v)]
  | (b, w) :: rest =>
    if a < b then (a, v) :: (b, w) :: rest
    else if a = b then (a, v) :: rest
    else (b, w) :: Memory.write rest a v

/-- Address of byte `i` of entry `e` (R61). -/
def bufAddress (e i : Nat) : Nat := 8 * e + i

/-- `BUF[e][0..7] <- ID[0..7]`, byte `i` to byte `i` (R114 (d), R187). -/
def storeIdent (e : Nat) (id : Identifier) (m : Memory) : Memory :=
  forUpTo (fun i m => Memory.write m (bufAddress e i) (idByte id i)) 8 m

/-- A byte of the buffer as a host read sees it: what was stored, else the free value (R43, U9; log 4). -/
def bufByte (s : State) (e i : Nat) : Byte :=
  match s.buf.read (bufAddress e i) with
  | some v => v
  | none => Config.freeBuf s.resets (bufAddress e i)

/-! ## Acceptance, end and failure of a command -/

/-- Acceptance of a command word, for every word (R120, R26, R30): this is also the only way on from a
failure, whose `FAIL` and `ERR` it clears (R250). -/
def accept (w : Byte) (s : State) : State := { s with cmd := w, fail := false, err := .none }

/-- The command ends: the sequencer returns to idle, the line is released, `BUSY` <- 0 (R120, R46, R45). -/
def finish (s : State) : State := { s with busy := false, drv := false, seq := Sequencer.idle }

/-- `raise Cause` (R246): `FAIL` and `ERR.CAUSE` are set and the command ends. Nothing else is saved or changed;
what the command wrote before stays. The working count of `FIND_DEVICES` is written by that command. -/
def raise (c : Cause) (s : State) : State := finish { s with fail := true, err := c }

/-- Acceptance of an illegal command word (R94, R247): `CMD`, `FAIL` and `ERR`, nothing else. -/
def illegalWord (w : Byte) (s : State) : State :=
  { accept w s with fail := true, err := .illegalCmd }

/-- `RomPrologue(rstf)`: whether the command goes on, and the state (R150). -/
def romPrologue (rstf : Bool) (s : State) : Bool × State :=
  if rstf then
    let r := busReset s.line
    (r.1, { s with line := r.2, present := r.1 })
  else (true, s)

/-- A ROM command after its prologue: the body, or `BUS_ERROR` without presence (R150). -/
def afterPrologue (body : State → State) (p : Bool × State) : State :=
  if p.1 then finish (body p.2) else raise .busError p.2

/-! ## Hardware reset -/

/-- A rising edge with `rst` = 1 (R50, R270): every register at its reset value, a running command abandoned,
the line released, the contents of `BUF` unknown (R272). If a command was running the slaves saw a cut
waveform (R271, U17; log 19). The parameters, the environment, the inputs and the record of the line stay. -/
def hardwareReset (s : State) : State :=
  { State.reset with
    params := s.params
    line := if s.busy then { s.line with env := s.line.env.afterCut } else s.line
    reads := s.reads
    resets := s.resets + 1
    pending := s.pending }

end Sys2Proof.Machine
end

