-- ==== Sys2Proof/Machine/BusSignal.lean ====
section
/-! DEFINITION. The Bus Signal unit: `RESET`, `WRITE_BIT`, `READ_BIT` (41_bus_signal.md). -/

namespace Sys2Proof.Machine

/-- `RESET` after acceptance (R122). -/
def resetCommand (s : State) : State :=
  let r := busReset s.line
  let t := { s with line := r.2, present := r.1 }
  if r.1 then finish t else raise .busError t

/-- `WRITE_BIT` after acceptance (R125). -/
def writeBitCommand (s : State) : State :=
  finish { s with line := writeBit (bitOperand s) s.line }

/-- `READ_BIT` after acceptance (R128): `DATA <- zext_8(ReadBit())`. -/
def readBitCommand (s : State) : State :=
  let r := readBit s.line
  finish { s with line := r.2, data := zextBit r.1 }

/-- `RESET` (R120, R122). -/
def execReset (s : State) : Host.Outcome State Fault Refusal :=
  .next (resetCommand (accept (encode .reset) s))

/-- `WRITE_BIT` (R120, R125). -/
def execWriteBit (s : State) : Host.Outcome State Fault Refusal :=
  .next (writeBitCommand (accept (encode .writeBit) s))

/-- `READ_BIT` (R120, R128). -/
def execReadBit (s : State) : Host.Outcome State Fault Refusal :=
  .next (readBitCommand (accept (encode .readBit) s))

end Sys2Proof.Machine
end

