-- ==== Sys2Proof/Machine/ByteFramer.lean ====
section
/-! DEFINITION. The Byte Framer: `WRITE_BYTE`, `READ_BYTE` (42_byte_framing.md). -/

namespace Sys2Proof.Machine

/-- `WRITE_BYTE` after acceptance (R142). -/
def writeByteCommand (s : State) : State :=
  finish { s with line := writeByte (byteOperand s) s.line }

/-- `READ_BYTE` after acceptance (R145). -/
def readByteCommand (s : State) : State :=
  let r := readByte s.line
  finish { s with line := r.2, data := r.1 }

/-- `WRITE_BYTE` (R120, R142). -/
def execWriteByte (s : State) : Host.Outcome State Fault Refusal :=
  .next (writeByteCommand (accept (encode .writeByte) s))

/-- `READ_BYTE` (R120, R145). -/
def execReadByte (s : State) : Host.Outcome State Fault Refusal :=
  .next (readByteCommand (accept (encode .readByte) s))

end Sys2Proof.Machine
end

