-- ==== Sys2Proof/Machine/Crc.lean ====
section
/-! DEFINITION. The CRC-8 unit: `CRC_CLEAR`, `CRC_UPDATE`, `CRC_ID`, `CRC_CHECK` (45_crc8.md; log 13). -/

namespace Sys2Proof.Machine

/-- One of the eight shifts of `Crc8Step` (R201). -/
def crcShift (c : Byte) : Byte := if c.getLsbD 0 then (c >>> 1) ^^^ Config.crcPoly else c >>> 1

/-- `Crc8Step(c, v)` (R201). -/
def crc8Step (c v : Byte) : Byte := forUpTo (fun _ => crcShift) 8 (c ^^^ v)

/-- `Crc8` over a byte sequence, from 0x00, the first byte first (R202). -/
def crc8 (bytes : List Byte) : Byte := bytes.foldl crc8Step 0x00

/-- `Crc8` over the eight bytes of an identifier (R205). -/
def crcOfIdent (id : Identifier) : Byte := forUpTo (fun i c => crc8Step c (idByte id i)) 8 0x00

/-- `CRC_CLEAR` after acceptance (R203). -/
def crcClearCommand (s : State) : State := { s with crc := 0x00 }

/-- `CRC_UPDATE` after acceptance (R204). -/
def crcUpdateCommand (s : State) : State := { s with crc := crc8Step s.crc (byteOperand s) }

/-- `if CRC != 0x00: raise IntegrityError` (R205, R206). -/
def checkCrc (s : State) : State := if s.crc = 0x00 then s else raise .integrityError s

/-- `CRC_ID` after acceptance (R205). -/
def crcIdCommand (s : State) : State := checkCrc { s with crc := crcOfIdent s.ident }

/-- `CRC_CHECK` after acceptance (R206). -/
def crcCheckCommand (s : State) : State := checkCrc s

/-- `CRC_CLEAR` (R120, R203). -/
def execCrcClear (s : State) : Host.Outcome State Fault Refusal :=
  .next (crcClearCommand (accept (encode .crcClear) s))

/-- `CRC_UPDATE` (R120, R204). -/
def execCrcUpdate (s : State) : Host.Outcome State Fault Refusal :=
  .next (crcUpdateCommand (accept (encode .crcUpdate) s))

/-- `CRC_ID` (R120, R205). -/
def execCrcId (s : State) : Host.Outcome State Fault Refusal :=
  .next (crcIdCommand (accept (encode .crcId) s))

/-- `CRC_CHECK` (R120, R206). -/
def execCrcCheck (s : State) : Host.Outcome State Fault Refusal :=
  .next (crcCheckCommand (accept (encode .crcCheck) s))

end Sys2Proof.Machine
end

