-- ==== Sys2Proof/Machine/RomCommand.lean ====
section
/-! DEFINITION. The ROM Command sequencer: `SKIP_ROM`, `READ_ROM`, `MATCH_ROM` (43_rom_commands.md). -/

namespace Sys2Proof.Machine

/-- The body of `SKIP_ROM` (R151). -/
def skipRomBody (s : State) : State := { s with line := writeByte Config.romSkip s.line }

/-- Eight bytes read into an identifier, byte 0 first (R153, R71). -/
def readIdent (id : Identifier) (l : Line) : Identifier × Line :=
  forUpTo (fun i p =>
    let r := readByte p.2
    (setIdByte p.1 i r.1, r.2)) 8 (id, l)

/-- The body of `READ_ROM` (R153). -/
def readRomBody (s : State) : State :=
  let r := readIdent s.ident (writeByte Config.romRead s.line)
  { s with ident := r.1, line := r.2 }

/-- The eight bytes of an identifier written, byte 0 first (R155, R71). -/
def writeIdent (id : Identifier) (l : Line) : Line :=
  forUpTo (fun i => writeByte (idByte id i)) 8 l

/-- The body of `MATCH_ROM` (R155). -/
def matchRomBody (s : State) : State :=
  { s with line := writeIdent s.ident (writeByte Config.romMatch s.line) }

/-- `SKIP_ROM` (R120, R150, R151). -/
def execSkipRom (rstf : Bool) (s : State) : Host.Outcome State Fault Refusal :=
  .next (afterPrologue skipRomBody (romPrologue rstf (accept (encode (.skipRom rstf)) s)))

/-- `READ_ROM` (R120, R150, R153). -/
def execReadRom (rstf : Bool) (s : State) : Host.Outcome State Fault Refusal :=
  .next (afterPrologue readRomBody (romPrologue rstf (accept (encode (.readRom rstf)) s)))

/-- `MATCH_ROM` (R120, R150, R155). -/
def execMatchRom (rstf : Bool) (s : State) : Host.Outcome State Fault Refusal :=
  .next (afterPrologue matchRomBody (romPrologue rstf (accept (encode (.matchRom rstf)) s)))

end Sys2Proof.Machine
end

