-- ==== Sys2Proof/Machine/SearchEngine.lean ====
section
/-! DEFINITION. The Search Engine: `SEARCH_INIT`, `SEARCH_ROM`, `FIND_DEVICES` (44_search_engine.md). -/

namespace Sys2Proof.Machine

/-! ## One search pass -/

/-- What a search pass carries from position to position: the path, the new deviation point, the line, and
whether a pair has read (1, 1) (R174). -/
structure Walk where
  ident : Identifier
  newDev : Byte
  line : Line
  failed : Bool
deriving DecidableEq, Repr

/-- The bit chosen at a discrepancy, by signed comparison of `pos` with `last_deviation` (R177): 1 where they are
equal, 0 where `pos` is greater, the stored bit where it is less. -/
def discrepancyDir (last : Int) (pos : Nat) (stored : Bool) : Bool :=
  if (pos : Int) = last then true
  else if (pos : Int) > last then false
  else stored

/-- The resolved bit of a pair that is not (1, 1): the common bit, or the choice of R177 (R176, R177). -/
def resolvedDir (last : Int) (pos : Nat) (stored idb cmpb : Bool) : Bool :=
  if idb != cmpb then idb else discrepancyDir last pos stored

/-- The new deviation point after a pair that is not (1, 1): `pos` at a discrepancy resolved to 0 (R177). -/
def deviationAfter (pos : Nat) (idb cmpb dir : Bool) (newDev : Byte) : Byte :=
  if idb == cmpb && !dir then BitVec.ofNat 8 pos else newDev

/-- One position of a pass (R174 steps 3a to 3d'). A pass that has failed does no more (R175). -/
def searchPosition (last : Int) (pos : Nat) (w : Walk) : Walk :=
  if w.failed then w
  else
    let r1 := readBit w.line
    let r2 := readBit r1.2
    if r1.1 && r2.1 then { w with line := r2.2, failed := true }
    else
      let dir := resolvedDir last pos (idBit w.ident pos) r1.1 r2.1
      { w with
        ident := setIdBit w.ident pos dir
        newDev := deviationAfter pos r1.1 r2.1 dir w.newDev
        line := writeBit dir r2.2 }

/-- The first `n` positions of a pass. -/
def searchWalk (last : Int) (n : Nat) (w : Walk) : Walk := forUpTo (searchPosition last) n w

/-- How a pass ends: with a result, or by raising a cause (R174). -/
inductive PassEnd where
  | returned (r : SearchResult)
  | raised (c : Cause)
deriving DecidableEq, Repr

/-- The result of a completed pass (R179). -/
def passResult (newDev : Byte) : SearchResult :=
  if newDev = Config.sentinel then .done else .moreAvailable

/-- `SearchPass()` (R174). -/
def searchPass (s : State) : PassEnd × State :=
  let r := busReset s.line
  if r.1 then
    let w := searchWalk (lastDeviation s) Config.positions
      { ident := s.ident, newDev := Config.sentinel, line := writeByte Config.romSearch r.2, failed := false }
    if w.failed then
      (.raised .protocolError,
        { s with present := true, result := .failed, ident := w.ident, line := w.line })
    else
      (.returned (passResult w.newDev),
        { s with present := true, result := passResult w.newDev, lastDev := w.newDev, ident := w.ident,
                 line := w.line })
  else (.raised .busError, { s with present := false, result := .failed, line := r.2 })

/-! ## The commands -/

/-- The initial search state (R171, R172). -/
def searchInit (s : State) : State :=
  { s with lastDev := Config.sentinel, ident := 0, result := .none }

/-- `SEARCH_ROM` after acceptance: one pass (R180). -/
def searchRomCommand (s : State) : State :=
  let p := searchPass s
  match p.1 with
  | .returned _ => finish p.2
  | .raised c => raise c p.2

/-- The loop of `FIND_DEVICES` with `left` entries still allowed and `cnt` stored (R187): a pass that fails
stores nothing and leaves `COUNT` = `cnt`. -/
def enumerate : Nat → Nat → State → State
  | 0, cnt, s => finish { s with count := BitVec.ofNat 8 cnt }
  | left + 1, cnt, s =>
    let p := searchPass s
    match p.1 with
    | .raised c => raise c { p.2 with count := BitVec.ofNat 8 cnt }
    | .returned r =>
      let t := { p.2 with buf := storeIdent cnt p.2.ident p.2.buf }
      if r = .done then finish { t with count := BitVec.ofNat 8 (cnt + 1) }
      else enumerate left (cnt + 1) t

/-- `FIND_DEVICES` after acceptance (R187, R191). -/
def findDevicesCommand (s : State) : State :=
  if maxLegal s then enumerate s.max.toNat 0 (searchInit s)
  else raise .illegalOperand s

/-- `SEARCH_ROM` (R120, R180). -/
def execSearchRom (s : State) : Host.Outcome State Fault Refusal :=
  .next (searchRomCommand (accept (encode .searchRom) s))

/-- `FIND_DEVICES` (R120, R187). -/
def execFindDevices (s : State) : Host.Outcome State Fault Refusal :=
  .next (findDevicesCommand (accept (encode .findDevices) s))

/-- `SEARCH_INIT` (R120, R172). -/
def execSearchInit (s : State) : Host.Outcome State Fault Refusal :=
  .next (searchInit (accept (encode .searchInit) s))

end Sys2Proof.Machine
end

