-- ==== Sys2Proof/Machine/Dispatch.lean ====
section
/-! DEFINITION. The meaning of every command at command level: its acceptance and its whole effect, as one step
(70_reset_and_hazards.md R296). -/

namespace Sys2Proof.Machine

def exec (i : Instr) (s : State) : Host.Outcome State Fault Refusal :=
  match i with
  | .reset => Sys2Proof.Machine.execReset s
  | .writeBit => Sys2Proof.Machine.execWriteBit s
  | .readBit => Sys2Proof.Machine.execReadBit s
  | .writeByte => Sys2Proof.Machine.execWriteByte s
  | .readByte => Sys2Proof.Machine.execReadByte s
  | .skipRom rstf => Sys2Proof.Machine.execSkipRom rstf s
  | .readRom rstf => Sys2Proof.Machine.execReadRom rstf s
  | .matchRom rstf => Sys2Proof.Machine.execMatchRom rstf s
  | .searchRom => Sys2Proof.Machine.execSearchRom s
  | .findDevices => Sys2Proof.Machine.execFindDevices s
  | .searchInit => Sys2Proof.Machine.execSearchInit s
  | .crcClear => Sys2Proof.Machine.execCrcClear s
  | .crcUpdate => Sys2Proof.Machine.execCrcUpdate s
  | .crcId => Sys2Proof.Machine.execCrcId s
  | .crcCheck => Sys2Proof.Machine.execCrcCheck s

end Sys2Proof.Machine
end

