-- ==== Sys2Proof/Machine/Flags.lean ====
section
/-! DEFINITION. The composed registers `STATUS` and `ERR` (10_state.md R27 to R33, 30_encoding.md R107, R108). -/

namespace Sys2Proof.Machine

/-- The code of a search result (R32, R107). -/
def resultCode : SearchResult → BitVec 2
  | .none => 0
  | .failed => 1
  | .done => 2
  | .moreAvailable => 3

/-- The code of a cause (R33, R108). -/
def causeCode : Cause → BitVec 3
  | .none => 0
  | .busError => 1
  | .protocolError => 2
  | .integrityError => 3
  | .illegalCmd => 5
  | .illegalOperand => 6

/-- `STATUS.CRCZ`: 1 exactly when `CRC` = 0x00 (R31). -/
def crcz (s : State) : Bool := s.crc == 0

/-- `STATUS` as a host read sees it: `{00, RESULT, CRCZ, FAIL, PRESENT, BUSY}` (R27). -/
def statusByte (s : State) : Byte :=
  0#2 ++ resultCode s.result ++ BitVec.ofBool (crcz s) ++ BitVec.ofBool s.fail
    ++ BitVec.ofBool s.present ++ BitVec.ofBool s.busy

/-- `ERR` as a host read sees it: `CAUSE` in bits 2 to 0, the rest 0 (R33). -/
def errByte (s : State) : Byte := 0#5 ++ causeCode s.err

end Sys2Proof.Machine
end

