-- ==== Sys2Proof/Machine/HostPort.lean ====
section
/-! DEFINITION. The host register port: the map of the 32 addresses, reads and writes (10_state.md R25,
20_memory.md R60 to R68). -/

namespace Sys2Proof.Machine

/-- What a host address names (R25). -/
inductive Register where
  | cmd
  | status
  | err
  | data
  | crc
  | lastDev
  | max
  | count
  /-- `ID0` to `ID7`. -/
  | ident (i : Nat)
  | bufSel
  /-- 0x11 to 0x17 (R42). -/
  | reserved
  /-- `BUF0` to `BUF7` (R41). -/
  | window (i : Nat)
deriving DecidableEq, Repr

/-- The map of R25. -/
def registerAt (a : Address) : Register :=
  let n := a.toNat
  if n = 0x00 then .cmd
  else if n = 0x01 then .status
  else if n = 0x02 then .err
  else if n = 0x03 then .data
  else if n = 0x04 then .crc
  else if n = 0x05 then .lastDev
  else if n = 0x06 then .max
  else if n = 0x07 then .count
  else if n ≤ 0x0F then .ident (n - 0x08)
  else if n = 0x10 then .bufSel
  else if n ≤ 0x17 then .reserved
  else .window (n - 0x18)

/-- The byte the `BUF` window shows: byte `i` of entry `BUFSEL`, 0x00 where there is no such entry (R41). -/
def windowByte (s : State) (i : Nat) : Byte :=
  if s.bufSel.toNat < s.params.nbuf then bufByte s s.bufSel.toNat i else 0x00

/-- The value a host read of a register returns while `BUSY` = 0 (R63). -/
def readRegister (s : State) : Register → Byte
  | .cmd => s.cmd
  | .status => statusByte s
  | .err => errByte s
  | .data => s.data
  | .crc => s.crc
  | .lastDev => s.lastDev
  | .max => s.max
  | .count => s.count
  | .ident i => idByte s.ident i
  | .bufSel => s.bufSel
  | .reserved => 0x00
  | .window i => windowByte s i

/-- The value a host read returns while `BUSY` = 1 (R68, U19; log 5): of `STATUS`, `BUSY` = 1, bits 7 and 6 read
0 and the other bits unspecified; of any other register an unspecified byte. -/
def busyRead (free : Byte) : Register → Byte
  | .status => 0#2 ++ free.extractLsb' 1 5 ++ 1#1
  | .cmd => free
  | .err => free
  | .data => free
  | .crc => free
  | .lastDev => free
  | .max => free
  | .count => free
  | .ident _ => free
  | .bufSel => free
  | .reserved => free
  | .window _ => free

/-- `h_rdata` in the clock period that ends at this edge (R22, R63): 0x00 without `h_re`, unspecified with both
enables (R64, U10), else the register. -/
def readPort (p : Ports) (s : State) : Byte :=
  if !p.re then 0x00
  else if p.we then Config.freeRead s.reads
  else if s.busy then busyRead (Config.freeRead s.reads) (registerAt p.addr)
  else readRegister s (registerAt p.addr)

/-- The host side of a clock edge: `h_rdata` as the host saw it. The count of unspecified reads is the model's. -/
def latchRead (p : Ports) (s : State) : State :=
  { s with hRdata := readPort p s, reads := if p.re then s.reads + 1 else s.reads }

/-- A host write to a register other than `CMD` while `BUSY` = 0 (R62): the writable registers take the value
whole (R111); at a read-only or reserved address nothing happens. `CMD` is `hostWrite`'s. -/
def writeRegister (v : Byte) (s : State) : Register → State
  | .data => { s with data := v }
  | .lastDev => { s with lastDev := v }
  | .max => { s with max := v }
  | .ident i => { s with ident := setIdByte s.ident i v }
  | .bufSel => { s with bufSel := v }
  | .cmd => s
  | .status => s
  | .err => s
  | .crc => s
  | .count => s
  | .reserved => s
  | .window _ => s

/-- The ports of a clock edge without host access. -/
def Ports.quiet : Ports := { rst := false, we := false, re := false, addr := 0, wdata := 0 }

/-- The ports of a host write, `WR` (R105). -/
def Ports.write (a : Address) (v : Byte) : Ports := { Ports.quiet with we := true, addr := a, wdata := v }

/-- The ports of a host read, `RD` (R105). -/
def Ports.read (a : Address) : Ports := { Ports.quiet with re := true, addr := a }

/-- The ports of a clock edge with `rst` = 1. -/
def Ports.reset : Ports := { Ports.quiet with rst := true }

end Sys2Proof.Machine
end

