-- ==== Sys2Proof/Machine/Sequencer.lean ====
section
/-! DEFINITION. The clock-edge level of the block (70_reset_and_hazards.md R296): the sequencer registers of
10_state.md R47 stepped by one rising edge of `clk`, with the host port and `rst`. The commands' meanings at
command level are `exec`; the two agree (R296) through the slots they share. -/

namespace Sys2Proof.Machine

/-! ## Slots and their segments -/

/-- The slot formats and the reset sequence (R99). -/
inductive Slot where
  | busReset
  | write (b : Bool)
  | read
deriving DecidableEq, Repr

/-- The segments of a slot, in order (R99). -/
def Slot.segments : Slot → List Segment
  | .busReset => [.low Config.tRstl, .released Config.tPds, .released Config.tRstr]
  | .write true => [.low Config.tW1l, .released Config.tW1r]
  | .write false => [.low Config.tW0l, .released Config.tW0r]
  | .read => [.low Config.tRdl, .released Config.tRds, .released Config.tRdr]

/-- The sample taken at the end of a slot's segment, if any: after the second segment of a reset sequence or a
read slot (R23, R99). -/
def Slot.sampleAfter : Slot → Fin 3 → Option SampleKind
  | .busReset, 1 => some .presence
  | .read, 1 => some .readSlot
  | _, _ => none

/-- Whether a segment pulls the line low. -/
def Segment.isLow : Segment → Bool
  | .low _ => true
  | .released _ => false

/-- The length of a segment, µs. -/
def Segment.us : Segment → Nat
  | .low n => n
  | .released n => n

/-- The slot the sequencer is in (R47, R98 to R101). -/
def slotOf (s : State) : Slot :=
  match s.seq.phase with
  | .idle => .read
  | .busReset => .busReset
  | .bitOut => .write (bitOperand s)
  | .bitIn => .read
  | .romByte => .write (s.seq.sh.getLsbD s.seq.bitcnt.toNat)
  | .byteOut => .write (s.seq.sh.getLsbD s.seq.bitcnt.toNat)
  | .byteIn => .read
  | .searchTrue => .read
  | .searchCompl => .read
  | .searchWrite => .write s.seq.dir

/-- The sequencer at the start of segment `seg`, the timer loaded with `n * TICKS_PER_US` (R258) and the pin
driver at its level (R45). -/
def startSegment (seg : Fin 3) (g : Segment) (s : State) : State :=
  { s with drv := g.isLow, seq := { s.seq with seg := seg, timer := g.us * s.params.ticksPerUs } }

/-- The sequencer at the first segment of the slot its registers describe. -/
def startSlot (s : State) : State :=
  match (slotOf s).segments with
  | g :: _ => startSegment 0 g s
  | [] => s

/-- The sequencer enters a phase at its first slot. -/
def enter (phase : Phase) (s : State) : State := startSlot { s with seq := { s.seq with phase := phase } }

/-! ## What follows a slot -/

/-- The byte framer starts on a byte to send or to assemble (R141, R144). -/
def enterByte (phase : Phase) (v : Byte) (s : State) : State :=
  enter phase { s with seq := { s.seq with sh := v, bitcnt := 0 } }

/-- A search pass starts with its reset sequence (R173), with no deviation found yet (R47). -/
def enterPass (s : State) : State :=
  enter .busReset { s with seq := { s.seq with newDev := Config.sentinel } }

/-- The ROM command byte that a command sends, if it sends one (R98). -/
def romByteOf (op : BitVec 4) : Option Byte :=
  if op = Instr.op (.skipRom false) then some Config.romSkip
  else if op = Instr.op (.readRom false) then some Config.romRead
  else if op = Instr.op (.matchRom false) then some Config.romMatch
  else if op = Instr.op .searchRom || op = Instr.op .findDevices then some Config.romSearch
  else none

/-- The running command runs search passes. -/
def isSearch (op : BitVec 4) : Bool := op == Instr.op .searchRom || op == Instr.op .findDevices

/-- `raise` by the running command: `FIND_DEVICES` also writes `COUNT` (R246). -/
def raiseRunning (c : Cause) (s : State) : State :=
  if s.seq.op = Instr.op .findDevices then raise c { s with count := s.seq.cnt } else raise c s

/-- After a reset sequence (R121, R122, R150, R174): `PRESENT`; without presence the command ends by
`BUS_ERROR`, and a search pass has failed; else the ROM command byte, or the end of `RESET`. -/
def afterBusReset (s : State) : State :=
  let present := !s.seq.smp
  let t := { s with present := present }
  if present then
    match romByteOf s.seq.op with
    | some v => enterByte .romByte v t
    | none => finish t
  else raiseRunning .busError (if isSearch s.seq.op then { t with result := .failed } else t)

/-- After the ROM command byte (R151, R153, R155, R174). -/
def afterRomByteSent (s : State) : State :=
  if s.seq.op = Instr.op (.readRom false) then
    enterByte .byteIn 0x00 { s with seq := { s.seq with bytecnt := 1 } }
  else if s.seq.op = Instr.op (.matchRom false) then
    enterByte .byteOut (idByte s.ident 0) { s with seq := { s.seq with bytecnt := 1 } }
  else if isSearch s.seq.op then
    enter .searchTrue { s with seq := { s.seq with pos := 0, newDev := Config.sentinel } }
  else finish s

/-- After a data byte sent: the next identifier byte of `MATCH_ROM`, or the end (R142, R155). -/
def afterByteOut (s : State) : State :=
  if s.seq.op = Instr.op (.matchRom false) && s.seq.bytecnt != 8 then
    enterByte .byteOut (idByte s.ident s.seq.bytecnt.toNat)
      { s with seq := { s.seq with bytecnt := s.seq.bytecnt + 1 } }
  else finish s

/-- After a data byte received, `v` (R145, R153). -/
def afterByteIn (v : Byte) (s : State) : State :=
  if s.seq.op = Instr.op (.readRom false) then
    let t := { s with ident := setIdByte s.ident (s.seq.bytecnt.toNat - 1) v }
    if s.seq.bytecnt != 8 then
      enterByte .byteIn 0x00 { t with seq := { t.seq with bytecnt := s.seq.bytecnt + 1 } }
    else finish t
  else finish { s with data := v }

/-- After the second read slot of a position (R174 steps 3b to 3d): the failure, or the bit resolved, stored
and about to be written. -/
def afterPair (s : State) : State :=
  if s.seq.idBit && s.seq.cmpBit then raiseRunning .protocolError { s with result := .failed }
  else
    let pos := s.seq.pos.toNat
    let dir := resolvedDir (lastDeviation s) pos (idBit s.ident pos) s.seq.idBit s.seq.cmpBit
    enter .searchWrite
      { s with
        ident := setIdBit s.ident pos dir
        seq := { s.seq with dir := dir, newDev := deviationAfter pos s.seq.idBit s.seq.cmpBit dir s.seq.newDev } }

/-- After a completed pass (R174 step 4, R187): the search state and the result; `FIND_DEVICES` stores the
identifier and goes on unless the pass returned `DONE` or the buffer limit is reached. -/
def afterPass (s : State) : State :=
  let r := passResult s.seq.newDev
  let t := { s with lastDev := s.seq.newDev, result := r }
  if s.seq.op = Instr.op .findDevices then
    let cnt := s.seq.cnt + 1
    let u := { t with buf := storeIdent s.seq.cnt.toNat t.ident t.buf, seq := { t.seq with cnt := cnt } }
    if r = .done || cnt = s.max then finish { u with count := cnt } else enterPass u
  else finish t

/-- After the write slot of a position (R174). -/
def afterSearchWrite (s : State) : State :=
  if s.seq.pos = 63 then afterPass s
  else enter .searchTrue { s with seq := { s.seq with pos := s.seq.pos + 1 } }

/-- The next write slot of the byte being sent, or `done` after its last bit. -/
def nextBitOut (done : State → State) (s : State) : State :=
  if s.seq.bitcnt = 7 then done s
  else startSlot { s with seq := { s.seq with bitcnt := s.seq.bitcnt + 1 } }

/-- The bit received joins the byte (R144); the next read slot, or the byte received. -/
def nextBitIn (s : State) : State :=
  let v := s.seq.sh ||| (zextBit s.seq.smp <<< s.seq.bitcnt.toNat)
  if s.seq.bitcnt = 7 then afterByteIn v s
  else startSlot { s with seq := { s.seq with sh := v, bitcnt := s.seq.bitcnt + 1 } }

/-- After the last segment of a slot: the command's pseudocode goes on (R46). -/
def afterSlot (s : State) : State :=
  match s.seq.phase with
  | .idle => s
  | .busReset => afterBusReset s
  | .bitOut => finish s
  | .bitIn => finish { s with data := zextBit s.seq.smp }
  | .romByte => nextBitOut afterRomByteSent s
  | .byteOut => nextBitOut afterByteOut s
  | .byteIn => nextBitIn s
  | .searchTrue => enter .searchCompl { s with seq := { s.seq with idBit := s.seq.smp } }
  | .searchCompl => afterPair { s with seq := { s.seq with cmpBit := s.seq.smp } }
  | .searchWrite => afterSearchWrite s

/-! ## One clock edge -/

/-- A segment has ended: it is on the wire, and its sample, if it has one, is taken (R23); the slaves advance at that
sample (the model's choice, log 21). -/
def segmentDriven (g : Segment) (s : State) : State :=
  let l := s.line.record g
  match (slotOf s).sampleAfter s.seq.seg with
  | some k => { s with line := l.sampled k, seq := { s.seq with smp := l.level k } }
  | none => { s with line := l }

/-- The slaves take the bit of a write slot (R78). When within the slot is the model's choice, its end (log 21): the document
does not say, and R78 gives 15 to 60 µs from general knowledge. -/
def deliverSlot (slot : Slot) (s : State) : State :=
  match slot with
  | .write b => { s with line := s.line.deliver b }
  | .busReset => s
  | .read => s

/-- The edge that ends a segment: the next segment of the slot, or what follows the slot (R46, R291). -/
def segmentEnd (s : State) : State :=
  match (slotOf s).segments.drop s.seq.seg.val with
  | g :: next :: _ => startSegment (s.seq.seg + 1) next (segmentDriven g s)
  | [g] => afterSlot (deliverSlot (slotOf s) (segmentDriven g s))
  | [] => s

/-- One clock edge of a running command: the timer counts down, or its segment ends (R258). -/
def tick (s : State) : State :=
  if s.seq.timer ≤ 1 then segmentEnd s
  else { s with seq := { s.seq with timer := s.seq.timer - 1 } }

/-- A bus command starts at its acceptance edge (R120, R292): `BUSY` <- 1, the first segment begins. `FIND_DEVICES`
first sets the initial search state (R187). -/
def startBusCommand (i : Instr) (s : State) : State :=
  let t := { s with busy := true, seq := { Sequencer.idle with op := i.op, rstf := i.rstf } }
  match i with
  | .reset => enter .busReset t
  | .writeBit => enter .bitOut t
  | .readBit => enter .bitIn t
  | .writeByte => enterByte .byteOut (byteOperand s) t
  | .readByte => enterByte .byteIn 0x00 t
  | .skipRom r => if r then enter .busReset t else enterByte .romByte Config.romSkip t
  | .readRom r => if r then enter .busReset t else enterByte .romByte Config.romRead t
  | .matchRom r => if r then enter .busReset t else enterByte .romByte Config.romMatch t
  | .searchRom => enterPass t
  | .findDevices => enterPass (searchInit t)
  | .searchInit => s
  | .crcClear => s
  | .crcUpdate => s
  | .crcId => s
  | .crcCheck => s

/-- Acceptance of a command at a clock edge (R120): a bus command starts, a zero-time command and `FIND_DEVICES`
with an illegal `MAX` have their whole effect at this edge (R294). -/
def acceptCommand (i : Instr) (s : State) : State :=
  let t := accept (encode i) s
  match i with
  | .reset => startBusCommand .reset t
  | .writeBit => startBusCommand .writeBit t
  | .readBit => startBusCommand .readBit t
  | .writeByte => startBusCommand .writeByte t
  | .readByte => startBusCommand .readByte t
  | .skipRom r => startBusCommand (.skipRom r) t
  | .readRom r => startBusCommand (.readRom r) t
  | .matchRom r => startBusCommand (.matchRom r) t
  | .searchRom => startBusCommand .searchRom t
  | .findDevices => if maxLegal t then startBusCommand .findDevices t else raise .illegalOperand t
  | .searchInit => searchInit t
  | .crcClear => crcClearCommand t
  | .crcUpdate => crcUpdateCommand t
  | .crcId => crcIdCommand t
  | .crcCheck => crcCheckCommand t

/-- A host write to `CMD` at a clock edge with `BUSY` = 0 (R26, R120, R94). -/
def acceptWord (w : Byte) (s : State) : State :=
  match decode w with
  | .ok i => acceptCommand i s
  | .error _ => illegalWord w s

/-- A host write at a clock edge with `BUSY` = 0 (R62). -/
def hostWrite (a : Address) (v : Byte) (s : State) : State :=
  match registerAt a with
  | .cmd => acceptWord v s
  | r => writeRegister v s r

/-- One rising edge of `clk` (R20): `rst` has priority (R270); a running command goes on and a host write is
ignored (R67; log 6, log 20); else a host write is performed (R62). -/
def clockEdge (p : Ports) (s : State) : State :=
  let t := latchRead p s
  if p.rst then { hardwareReset t with hRdata := t.hRdata }
  else if s.busy then tick t
  else if p.we then hostWrite p.addr p.wdata t
  else t

/-- `n` clock edges without host access. -/
def quietEdges : Nat → State → State
  | 0, s => s
  | n + 1, s => quietEdges n (clockEdge Ports.quiet s)

/-! ## One input -/

/-- A command at command level (R296): while `BUSY` = 1 the write is one more edge of the running command and is
ignored (R67); else the word is decoded and the command runs whole. -/
def runCommand (w : Byte) (s : State) : Host.Outcome State Fault Refusal :=
  if s.busy then .next (clockEdge (Ports.write 0x00 w) s)
  else match decode w with
    | .ok i => exec i { s with hRdata := 0x00 }
    | .error _ => .next (illegalWord w { s with hRdata := 0x00 })

/-- One input of the block; without one, a quiet clock edge. -/
def takeInput (s : State) : Host.Outcome State Fault Refusal :=
  match s.pending with
  | [] => .next (clockEdge Ports.quiet s)
  | .clock p :: rest => .next (clockEdge p { s with pending := rest })
  | .command w :: rest => runCommand w { s with pending := rest }
  | .environment e :: rest => .next { s with pending := rest, line := { s.line with env := e } }

/-- The state in which the next input is the command word `w`, accepted at once: the block idle, the word first
among the inputs. -/
def placeCommand (w : Byte) (s : State) : State :=
  { finish s with pending := .command w :: s.pending }

end Sys2Proof.Machine
end

