-- ==== Sys2Proof/Machine/Step.lean ====
section
/-! DEFINITION. One step of the block: it takes its next input (10_state.md R20, R26; 70_reset_and_hazards.md R296;
log 1). The block fetches nothing (R46); the host's write of a command word takes the place of a fetch. -/

namespace Sys2Proof.Machine

/-- One step. -/
def step (s : State) : Host.Outcome State Fault Refusal := takeInput s

/-- `s` with the command word `w` as its next input, the block idle so that the word is accepted (R26). -/
def State.withFetchWord (s : State) (_nbits w : Nat) : State := placeCommand (BitVec.ofNat 8 w) s

end Sys2Proof.Machine
end

