-- ==== Sys2Proof/Safety.lean ====
section
/-! DEFINITION. The terms the claims use: idle states, the invariant of the block, the line after a waveform,
durations. Nothing here takes part in a step. -/

namespace Sys2Proof.Machine

/-! ## States -/

/-- No command runs: `BUSY` = 0, the line released, the sequencer idle (R28, R45, R46). -/
abbrev Idle (s : State) : Prop := s.busy = false ∧ s.drv = false ∧ s.seq = Sequencer.idle

/-- A step that goes on. -/
abbrev GoesOn (s : State) : Prop := ∃ t, step s = .next t

/-- The bytes of `BUF` listed lie in the buffer: `NBUF` entries of 8 bytes (R43). -/
abbrev BufInRange (s : State) : Prop := ∀ c ∈ s.buf, c.1 < 8 * s.params.nbuf

/-- The phases of a ROM command's prologue and command byte: the reset sequence only with `RSTF` (R150). -/
def romPhases (rstf : Bool) : List Phase := if rstf then [.busReset, .romByte] else [.romByte]

/-- The steps of a command's pseudocode at which its sequencer can be (R47, and the command's own rule); none for a
zero-time command (R294). -/
def phasesOf : Instr → List Phase
  | .reset => [.busReset]
  | .writeBit => [.bitOut]
  | .readBit => [.bitIn]
  | .writeByte => [.byteOut]
  | .readByte => [.byteIn]
  | .skipRom rstf => romPhases rstf
  | .readRom rstf => romPhases rstf ++ [.byteIn]
  | .matchRom rstf => romPhases rstf ++ [.byteOut]
  | .searchRom => [.busReset, .romByte, .searchTrue, .searchCompl, .searchWrite]
  | .findDevices => [.busReset, .romByte, .searchTrue, .searchCompl, .searchWrite]
  | .searchInit => []
  | .crcClear => []
  | .crcUpdate => []
  | .crcId => []
  | .crcCheck => []

/-- No deviation is recorded outside the positions of a pass: `new_dev` is -1 from the start of a pass through its reset
sequence and its ROM command byte (R47, R173, R174). -/
abbrev NoDeviationYet (s : State) : Prop :=
  s.seq.phase = .busReset ∨ s.seq.phase = .romByte → s.seq.newDev = Config.sentinel

/-- Where the sequencer is while a command runs (R45 to R47, R258): the bus command whose word `CMD` holds, at a phase of
its pseudocode, in a segment of the current slot with the pin driver at its level and 1 to 480 µs left of it, at most 8
identifier bytes begun, a legal new deviation point, -1 until a pass reaches its positions, and in `FIND_DEVICES` a count
below a legal `MAX`. -/
structure RunningWell (s : State) : Prop where
  phase : s.seq.phase ≠ .idle
  op : 1 ≤ s.seq.op.toNat ∧ s.seq.op.toNat ≤ 0xA
  command : ∃ i : Instr, s.cmd = encode i ∧ s.seq.op = i.op ∧ s.seq.rstf = i.rstf ∧ s.seq.phase ∈ phasesOf i
  bytes : s.seq.bytecnt.toNat ≤ 8
  seg : s.seq.seg.val < (slotOf s).segments.length
  drv : s.drv = (s.seq.seg == 0)
  timer : 1 ≤ s.seq.timer ∧ s.seq.timer ≤ Config.tRstl * s.params.ticksPerUs
  newDev : legalDeviation s.seq.newDev = true
  passStart : NoDeviationYet s
  cnt : s.seq.op = Instr.op .findDevices → maxLegal s = true ∧ s.seq.cnt.toNat < s.max.toNat

/-- The invariant of the block. -/
structure Inv (s : State) : Prop where
  /-- The parameters are legal (R10, R11). -/
  params : s.params.wf
  /-- The buffer has its canonical form and lies in range (R43). -/
  bufWf : Memory.wf s.buf
  bufRange : BufInRange s
  /-- Idle means idle: `drv` = 0 and the sequencer idle whenever `BUSY` = 0 (R45, R46). -/
  idle : s.busy = false → Idle s
  /-- `STATUS.FAIL` = 1 if and only if `ERR.CAUSE` != 0 whenever `BUSY` = 0 (R33). -/
  failCause : s.busy = false → (s.fail = true ↔ s.err ≠ .none)
  /-- A running command has not failed: both were cleared at its acceptance (R30, R33). -/
  runningClear : s.busy = true → s.fail = false ∧ s.err = .none
  /-- A running command is somewhere in its pseudocode (R46). -/
  running : s.busy = true → RunningWell s

/-! ## The line after a waveform -/

/-- The wire record of a write slot, newest first (R99). -/
def writeSlotWire (b : Bool) : List Segment :=
  if b then [.released 64, .low 6] else [.released 10, .low 60]

/-- The line after the bits have been sent in write slots, in the order of the list (R70, R99). -/
def sentBits (bits : List Bool) (l : Line) : Line :=
  { l with
    env := bits.foldl (fun e b => e.afterWrite b) l.env
    wire := (bits.reverse.flatMap writeSlotWire) ++ l.wire }

/-- The bits of a byte in the order they travel, bit 0 first (R70). -/
def byteBits (v : Byte) : List Bool := (List.range 8).map (fun k => v.getLsbD k)

/-- The bits of an identifier in the order they travel, position 0 first (R101). -/
def identBits (id : Identifier) : List Bool := (List.range 64).map (fun k => idBit id k)

/-- The line after one read slot (R99). -/
def lineAfterRead (l : Line) : Line :=
  { env := l.env.afterSample .readSlot
    wire := [.released 55, .released 9, .low 6] ++ l.wire
    samples := l.samples + 1 }

/-- The line after `n` read slots; the bit of slot `n` is `(lineAfterReads n l).level .readSlot`. -/
def lineAfterReads : Nat → Line → Line
  | 0, l => l
  | n + 1, l => lineAfterRead (lineAfterReads n l)

/-- The line after a reset sequence (R99). -/
def lineAfterReset (l : Line) : Line :=
  { env := l.env.afterSample .presence
    wire := [.released 410, .released 70, .low 480] ++ l.wire
    samples := l.samples + 1 }

/-- The line after `RomPrologue(rstf)` where the command goes on (R150). -/
def lineAfterPrologue (rstf : Bool) (l : Line) : Line := if rstf then lineAfterReset l else l

/-- The wire record of a read slot, newest first (R99). -/
def readSlotWire : List Segment := [.released 55, .released 9, .low 6]

/-- The wire record of the triplets of the first `n` positions of a pass that found `id`: at each position two read
slots, then a write slot of its bit (R100); newest first. -/
def tripletsWire (id : Identifier) : Nat → List Segment
  | 0 => []
  | n + 1 => writeSlotWire (idBit id n) ++ readSlotWire ++ readSlotWire ++ tripletsWire id n

/-- Whether the next presence sample is low, so that `BusReset()` reports presence (R121). -/
def presenceAhead (s : State) : Bool := !s.line.level .presence

/-- The time the line record covers, µs. -/
def wireTime (wire : List Segment) : Nat := (wire.map Segment.us).sum

/-! ## Search passes by their samples -/

/-- The samples of the pairs of read slots of a search pass, in order (R100). -/
def pairLevels (pairs : List (Bool × Bool)) : List Bool := pairs.flatMap (fun p => [p.1, p.2])

/-- No pair read (1, 1) (R175). -/
abbrev NoFailingPair (pairs : List (Bool × Bool)) : Prop := ∀ p ∈ pairs, p ≠ (true, true)

/-- Whether position `pos` shows a discrepancy: both bits 0 (R177). -/
def discrepancyAt (pairs : List (Bool × Bool)) (pos : Nat) : Bool := pairs[pos]? == some (false, false)

/-- The bit rules R176 and R177 give position `pos`, from the pair, `last_deviation` and the stored bit. -/
def bitByRule (last : Int) (stored : Bool) (pos : Nat) (pair : Bool × Bool) : Bool :=
  match pair with
  | (true, _) => true
  | (false, true) => false
  | (false, false) => if (pos : Int) < last then stored else decide ((pos : Int) = last)

/-! ## Enumeration -/

/-- The order in which a search finds identifiers: as 64-bit numbers with position 0 as the most significant
digit (R183). -/
def FoundBefore (a b : Identifier) : Prop := a.reverse < b.reverse

/-- The state after `n` `SEARCH_ROM` commands one after another (R180). -/
def afterPasses : Nat → State → State
  | 0, s => s
  | n + 1, s =>
    match exec .searchRom (afterPasses n s) with
    | .next t => t
    | .fault _ => afterPasses n s
    | .refused _ => afterPasses n s

/-- The identifier in entry `e` of the buffer, byte by byte (R72), as a host read sees it. -/
def EntryIs (s : State) (e : Nat) (id : Identifier) : Prop := ∀ i < 8, bufByte s e i = idByte id i

end Sys2Proof.Machine
end

