-- ==== Sys2Proof/Certificates/Slice0/Obligations.lean ====
section
/-! DEFINITION. The statements for the provers. Each docstring names the rule of spec/ it formalises. -/

open Sys2Proof Sys2Proof.Machine

/-! ## Encoding -/

/-- R93: "legal if and only if `w[6:4]` = 0 and `w[3:0]` != 0 and (`w[7]` = 0 or `w[3:0]` is 0x6, 0x7 or 0x8)". -/
def Obligations.LegalWordsAreExactlyThose : Prop :=
  ∀ w : Byte, (∃ i, decode w = .ok i) ↔
    (w.extractLsb' 4 3 = 0 ∧ w.extractLsb' 0 4 ≠ 0 ∧
      (w.getLsbD 7 = false ∨ w.extractLsb' 0 4 = 6 ∨ w.extractLsb' 0 4 = 7 ∨ w.extractLsb' 0 4 = 8))

/-- R90, R91, R93: decoding an encoded command gives it back, and a legal word is the encoding of what it
decodes to. -/
def Obligations.DecodeAndEncodeAgree : Prop :=
  (∀ i : Instr, i.wellFormed = true → decode (encode i) = .ok i) ∧
  (∀ (w : Byte) (i : Instr), decode w = .ok i → encode i = w)

/-- R91: the opcode map, every mnemonic at its words. -/
def Obligations.OpcodeMapWords : Prop :=
  decode 0x01 = .ok .reset ∧ decode 0x02 = .ok .writeBit ∧ decode 0x03 = .ok .readBit ∧
  decode 0x04 = .ok .writeByte ∧ decode 0x05 = .ok .readByte ∧
  decode 0x06 = .ok (.skipRom false) ∧ decode 0x86 = .ok (.skipRom true) ∧
  decode 0x07 = .ok (.readRom false) ∧ decode 0x87 = .ok (.readRom true) ∧
  decode 0x08 = .ok (.matchRom false) ∧ decode 0x88 = .ok (.matchRom true) ∧
  decode 0x09 = .ok .searchRom ∧ decode 0x0A = .ok .findDevices ∧ decode 0x0B = .ok .searchInit ∧
  decode 0x0C = .ok .crcClear ∧ decode 0x0D = .ok .crcUpdate ∧ decode 0x0E = .ok .crcId ∧
  decode 0x0F = .ok .crcCheck

/-! ## Steps -/

/-- What a step does with its next input, on the state without that input. A command word while `BUSY` = 0 runs the decoded
command, with `h_rdata` at 0x00 (a write period has `h_re` = 0, R22); while `BUSY` = 1 it is one clock edge with that write,
which is ignored (R67). A clock edge is `clockEdge` with its own ports; without input it has no host access. A new
environment takes the place of the old one and nothing else changes (log 18). The inputs and the command level as one step
are the model's (R296, log 1). -/
def Obligations.StepRunsDecodedCommand : Prop :=
  (∀ (s : State) (w : Byte) (rest : List Input) (i : Instr),
    s.pending = .command w :: rest → s.busy = false → decode w = .ok i →
    step s = exec i { s with pending := rest, hRdata := 0x00 }) ∧
  (∀ (s : State) (nbits w : Nat) (i : Instr), decodeTableWord nbits w = some i →
    step (s.withFetchWord nbits w) = exec i { finish s with hRdata := 0x00 }) ∧
  (∀ (s : State) (w : Byte) (rest : List Input), s.pending = .command w :: rest → s.busy = true →
    step s = .next (clockEdge (Ports.write 0x00 w) { s with pending := rest })) ∧
  (∀ (s : State) (p : Ports) (rest : List Input), s.pending = .clock p :: rest →
    step s = .next (clockEdge p { s with pending := rest })) ∧
  (∀ s : State, s.pending = [] → step s = .next (clockEdge Ports.quiet s)) ∧
  (∀ (s : State) (e : Environment) (rest : List Input), s.pending = .environment e :: rest →
    step s = .next { s with pending := rest, line := { s.line with env := e } })

/-- R94: accepting an illegal word writes `CMD`, `FAIL` and `ERR.CAUSE` = `ILLEGAL_CMD` and nothing else, at the
command level and at a clock edge. -/
def Obligations.IllegalWordOnlySetsFailure : Prop :=
  ∀ (s : State) (w : Byte) (e : DecodeError), decode w = .error e → s.busy = false →
    (∀ rest, s.pending = .command w :: rest →
      step s = .next { s with pending := rest, hRdata := 0x00, cmd := w, fail := true, err := .illegalCmd }) ∧
    clockEdge (Ports.write 0x00 w) s =
      { s with hRdata := 0x00, cmd := w, fail := true, err := .illegalCmd }

/-- R240, R61, R257: no input stops the block. -/
def Obligations.EveryStepGoesOn : Prop := ∀ s : State, GoesOn s

/-- R50: the registers after reset; `STATUS` reads 0x08, `BUF` is unspecified (log 4). The fields without a spec value
are not named. -/
def Obligations.ResetLeavesTheStatedValues : Prop :=
  let s := State.reset
  s.cmd = 0x00 ∧ s.busy = false ∧ s.present = false ∧ s.fail = false ∧ s.result = .none ∧ crcz s = true ∧
  statusByte s = 0x08 ∧ errByte s = 0x00 ∧ s.data = 0x00 ∧ s.crc = 0x00 ∧ s.lastDev = 0xFF ∧ s.max = 0x00 ∧
  s.count = 0x00 ∧ s.ident = 0 ∧ s.bufSel = 0x00 ∧ s.drv = false ∧ s.seq = Sequencer.idle ∧
  s.seq.newDev = 0xFF ∧ ∀ e i, bufByte s e i = Config.freeBuf s.resets (bufAddress e i)

/-- R20, R50, R270: an edge with `rst` = 1 takes the reset state whatever else happens, a host write and a running
command included, and the contents of `BUF` become unknown. The model's choices here: those contents are free values of
a reset counted anew (log 4), the parameters stay (log 2) and the record of the line stays (log 15). `h_rdata` is 0x00
without `h_re` (R22); a read alone shows what it shows at an edge without `rst` (R63, log 16). -/
def Obligations.HardwareResetTakesPriority : Prop :=
  ∀ (p : Ports) (s : State), p.rst = true →
    let t := clockEdge p s
    t.cmd = 0x00 ∧ t.busy = false ∧ t.present = false ∧ t.fail = false ∧ t.result = .none ∧
    statusByte t = 0x08 ∧ errByte t = 0x00 ∧ t.data = 0x00 ∧ t.crc = 0x00 ∧ t.lastDev = 0xFF ∧
    t.max = 0x00 ∧ t.count = 0x00 ∧ t.ident = 0 ∧ t.bufSel = 0x00 ∧ t.drv = false ∧
    t.seq = Sequencer.idle ∧ t.line.wire = s.line.wire ∧ t.params = s.params ∧
    (∀ e i, bufByte t e i = Config.freeBuf t.resets (bufAddress e i)) ∧ t.resets ≠ s.resets ∧
    (p.re = false → t.hRdata = 0x00) ∧
    (p.re = true → p.we = false → t.hRdata = (clockEdge (Ports.read p.addr) s).hRdata)

/-! ## Invariants -/

/-- The invariant holds at reset. -/
def Obligations.ResetStateIsGood : Prop := Inv State.reset

/-- Every step keeps the invariant: the buffer in canonical form and in range (R43), the line released and the
sequencer idle while `BUSY` = 0 (R45, R46), `FAIL` exactly with a cause while `BUSY` = 0 (R33), and a running
command, the one whose word `CMD` holds, at a phase of its own pseudocode with its timer loaded, and with no deviation
recorded in the reset sequence and ROM command byte of a pass (R46, R47, R258). -/
def Obligations.StepKeepsGoodStates : Prop :=
  ∀ s t : State, Inv s → step s = .next t → Inv t

/-! ## Acceptance and failures -/

/-- R30, R33, R120, R250: a command clears the last failure. From any idle state each command completes, `CMD` holds
its word, the block is idle again, and `FAIL` and `ERR` agree. -/
def Obligations.CommandEndsIdleWithItsOwnFailure : Prop :=
  ∀ (i : Instr) (s : State), Idle s → ∃ t, exec i s = .next t ∧ Idle t ∧ t.cmd = encode i ∧
    (t.fail = true ↔ t.err ≠ .none) ∧ t.err ≠ .illegalCmd

/-- R241: which command can end with which cause. -/
def Obligations.CausesByCommand : Prop :=
  ∀ (i : Instr) (s t : State), exec i s = .next t →
    (t.err = .busError → t.present = false ∧
      (i = .reset ∨ i = .skipRom true ∨ i = .readRom true ∨ i = .matchRom true ∨ i = .searchRom ∨
        i = .findDevices)) ∧
    (t.err = .protocolError → t.result = .failed ∧ (i = .searchRom ∨ i = .findDevices)) ∧
    (t.err = .integrityError → t.crc ≠ 0x00 ∧ (i = .crcId ∨ i = .crcCheck)) ∧
    (t.err = .illegalOperand → i = .findDevices ∧ (s.max = 0 ∨ s.params.nbuf < s.max.toNat)) ∧
    t.err ≠ .illegalCmd

/-- R95: the registers a command may change. Every register outside the table's "writes" column keeps its value. -/
def Obligations.CommandsWriteOnlyTheirRegisters : Prop :=
  ∀ (i : Instr) (s t : State), exec i s = .next t →
    (i ≠ .readBit → i ≠ .readByte → t.data = s.data) ∧
    ((∀ r, i ≠ .readRom r) → i ≠ .searchRom → i ≠ .findDevices → i ≠ .searchInit → t.ident = s.ident) ∧
    (i ≠ .searchRom → i ≠ .findDevices → i ≠ .searchInit →
      t.lastDev = s.lastDev ∧ t.result = s.result) ∧
    (i ≠ .crcClear → i ≠ .crcUpdate → i ≠ .crcId → t.crc = s.crc) ∧
    (i ≠ .findDevices → t.count = s.count ∧ t.buf = s.buf) ∧
    (i ≠ .reset → i ≠ .skipRom true → i ≠ .readRom true → i ≠ .matchRom true → i ≠ .searchRom →
      i ≠ .findDevices → t.present = s.present) ∧
    t.max = s.max ∧ t.bufSel = s.bufSel ∧ t.hRdata = s.hRdata ∧ t.params = s.params ∧
    t.resets = s.resets ∧ t.reads = s.reads ∧ t.pending = s.pending

/-! ## Bus Signal unit -/

/-- R121, R122: `RESET` drives 480 µs low, 70 µs released, samples, 410 µs released; `PRESENT` is 1 for a low sample;
a high sample raises `BUS_ERROR`. Nothing else changes. -/
def Obligations.ResetReportsPresence : Prop :=
  ∀ s : State, Idle s →
    exec .reset s = .next
      { s with
        cmd := 0x01
        present := !s.line.level .presence
        fail := s.line.level .presence
        err := if s.line.level .presence then .busError else .none
        line :=
          { env := s.line.env.afterSample .presence
            wire := [.released 410, .released 70, .low 480] ++ s.line.wire
            samples := s.line.samples + 1 } }

/-- R124, R125, R126: `WRITE_BIT` sends one slot of `DATA[0]`, 6/64 for 1 and 60/10 for 0, samples nothing and
changes no register but `CMD`, `FAIL` and `ERR`. -/
def Obligations.WriteBitSendsOneSlot : Prop :=
  ∀ s : State, Idle s →
    exec .writeBit s = .next
      { s with
        cmd := 0x02
        fail := false
        err := .none
        line :=
          { env := s.line.env.afterWrite (s.data.getLsbD 0)
            wire := (if s.data.getLsbD 0 then [.released 64, .low 6] else [.released 10, .low 60]) ++ s.line.wire
            samples := s.line.samples } }

/-- R127, R128, R129 (d): `READ_BIT` drives 6 µs low, samples 9 µs after the release, and leaves the level in
`DATA`, zero extended. -/
def Obligations.ReadBitGivesTheSampledLevel : Prop :=
  ∀ s : State, Idle s →
    exec .readBit s = .next
      { s with
        cmd := 0x03
        fail := false
        err := .none
        data := if s.line.level .readSlot then 0x01 else 0x00
        line :=
          { env := s.line.env.afterSample .readSlot
            wire := [.released 55, .released 9, .low 6] ++ s.line.wire
            samples := s.line.samples + 1 } }

/-! ## Byte Framer -/

/-- R141, R142: `WRITE_BYTE` sends the eight bits of `DATA`, bit 0 first, and changes nothing else. -/
def Obligations.WriteByteSendsLeastSignificantFirst : Prop :=
  ∀ s : State, Idle s →
    exec .writeByte s = .next
      { s with cmd := 0x04, fail := false, err := .none, line := sentBits (byteBits s.data) s.line }

/-- R144, R145: `READ_BYTE` leaves in bit `k` of `DATA` the level of the `k`-th of eight read slots. -/
def Obligations.ReadByteAssemblesLeastSignificantFirst : Prop :=
  ∀ s : State, Idle s → ∃ v : Byte,
    (∀ k < 8, v.getLsbD k = (lineAfterReads k s.line).level .readSlot) ∧
    exec .readByte s = .next
      { s with cmd := 0x05, fail := false, err := .none, data := v, line := lineAfterReads 8 s.line }

/-! ## ROM commands -/

/-- R150, R151: `SKIP_ROM`, after its prologue, sends 0xCC and changes nothing but the status bits; with `RSTF` = 1
and no presence it ends after the reset sequence with `BUS_ERROR`. -/
def Obligations.SkipRomSendsItsByte : Prop :=
  ∀ s : State, Idle s →
    (∀ rstf : Bool, (rstf = true → presenceAhead s = true) →
      exec (.skipRom rstf) s = .next
        { s with
          cmd := if rstf then 0x86 else 0x06
          fail := false
          err := .none
          present := if rstf then true else s.present
          line := sentBits (byteBits 0xCC) (lineAfterPrologue rstf s.line) }) ∧
    (presenceAhead s = false →
      exec (.skipRom true) s = .next
        { s with cmd := 0x86, present := false, fail := true, err := .busError, line := lineAfterReset s.line })

/-- R150, R153, R71: `READ_ROM`, after its prologue, sends 0x33 and reads 64 slots; position `k` of the identifier is
the level of the `k`-th, so byte 0 arrives first. Without presence after its reset sequence it ends with `BUS_ERROR`
and the identifier is unchanged. -/
def Obligations.ReadRomFillsTheIdentifier : Prop :=
  ∀ s : State, Idle s →
    (∀ rstf : Bool, (rstf = true → presenceAhead s = true) →
      let l := sentBits (byteBits 0x33) (lineAfterPrologue rstf s.line)
      ∃ id : Identifier,
        (∀ k < 64, idBit id k = (lineAfterReads k l).level .readSlot) ∧
        exec (.readRom rstf) s = .next
          { s with
            cmd := if rstf then 0x87 else 0x07
            fail := false
            err := .none
            present := if rstf then true else s.present
            ident := id
            line := lineAfterReads 64 l }) ∧
    (presenceAhead s = false →
      exec (.readRom true) s = .next
        { s with cmd := 0x87, present := false, fail := true, err := .busError, line := lineAfterReset s.line })

/-- R150, R155, R101: `MATCH_ROM`, after its prologue, sends 0x55 and the 64 identifier bits from position 0; the
identifier is unchanged. Without presence after its reset sequence it ends with `BUS_ERROR`. -/
def Obligations.MatchRomSendsTheIdentifier : Prop :=
  ∀ s : State, Idle s →
    (∀ rstf : Bool, (rstf = true → presenceAhead s = true) →
      exec (.matchRom rstf) s = .next
        { s with
          cmd := if rstf then 0x88 else 0x08
          fail := false
          err := .none
          present := if rstf then true else s.present
          line := sentBits (byteBits 0x55 ++ identBits s.ident) (lineAfterPrologue rstf s.line) }) ∧
    (presenceAhead s = false →
      exec (.matchRom true) s = .next
        { s with cmd := 0x88, present := false, fail := true, err := .busError, line := lineAfterReset s.line })

/-! ## One search pass -/

/-- R174 step 1, R180, R181: without presence `SEARCH_ROM` returns `FAILED` with `BUS_ERROR` after the reset sequence
and leaves the search state alone. -/
def Obligations.SearchWithoutPresenceFails : Prop :=
  ∀ s : State, Idle s → presenceAhead s = false →
    exec .searchRom s = .next
      { s with
        cmd := 0x09
        present := false
        fail := true
        err := .busError
        result := .failed
        line := lineAfterReset s.line }

/-- R175, R181: a pair (1, 1) at position `p` = the number of pairs before it ends the pass with `PROTOCOL_ERROR`:
`LASTDEV` unchanged, the positions before `p` resolved and written, the others as they were, no write slot for `p` (R100, R181). That a write slot follows every earlier
pair, an agreeing one too, is log 14: the document labels it after a discrepancy only, and R178 adds it from general
knowledge. -/
def Obligations.SearchStopsAtAFailingPair : Prop :=
  ∀ (s : State) (pairs : List (Bool × Bool)) (rest : List Bool),
    Idle s → pairs.length < 64 → NoFailingPair pairs →
    s.line.env = .scripted (false :: (pairLevels pairs ++ true :: true :: rest)) →
    ∃ t, exec .searchRom s = .next t ∧
      t = { s with
            cmd := 0x09, present := true, fail := true, err := .protocolError, result := .failed
            ident := t.ident
            line := { env := .scripted rest, wire := t.line.wire,
                      samples := s.line.samples + (3 + 2 * pairs.length) } } ∧
      (∀ pos (h : pos < pairs.length), idBit t.ident pos =
        bitByRule (lastDeviation s) (idBit s.ident pos) pos pairs[pos]) ∧
      (∀ pos, pairs.length ≤ pos → idBit t.ident pos = idBit s.ident pos) ∧
      t.line.wire = readSlotWire ++ readSlotWire ++ tripletsWire t.ident pairs.length ++
        (sentBits (byteBits 0xF0) (lineAfterReset s.line)).wire

/-- R174, R176, R177, R179: a pass without a failing pair sends 0xF0, resolves every position by the rules, writes the bit
back after its two read slots (R100), leaves in `LASTDEV` the highest position where a discrepancy was resolved to 0, and
returns `MORE_AVAILABLE`, or -1 and `DONE` if there is none. That a write slot follows every pair, an agreeing one too, is
log 14: R178 adds it from general knowledge. -/
def Obligations.SearchPassFollowsTheRules : Prop :=
  ∀ (s : State) (pairs : List (Bool × Bool)) (rest : List Bool),
    Idle s → pairs.length = 64 → NoFailingPair pairs →
    s.line.env = .scripted (false :: (pairLevels pairs ++ rest)) →
    ∃ t, exec .searchRom s = .next t ∧
      t = { s with
            cmd := 0x09, present := true, fail := false, err := .none, result := t.result
            lastDev := t.lastDev, ident := t.ident
            line := { env := .scripted rest, wire := t.line.wire, samples := s.line.samples + 129 } } ∧
      (∀ pos (h : pos < pairs.length), idBit t.ident pos =
        bitByRule (lastDeviation s) (idBit s.ident pos) pos pairs[pos]) ∧
      ((∀ pos < 64, discrepancyAt pairs pos = true → idBit t.ident pos = true) →
        t.lastDev = 0xFF ∧ t.result = .done) ∧
      (∀ p < 64, discrepancyAt pairs p = true → idBit t.ident p = false →
        (∀ q < 64, p < q → discrepancyAt pairs q = true → idBit t.ident q = true) →
        t.lastDev = BitVec.ofNat 8 p ∧ t.result = .moreAvailable) ∧
      t.line.wire = tripletsWire t.ident 64 ++ (sentBits (byteBits 0xF0) (lineAfterReset s.line)).wire

/-- R180, R181: what a `SEARCH_ROM` may change, and that it always completes: with `BUS_ERROR`, with
`PROTOCOL_ERROR` and `LASTDEV` unchanged, or with a result and a legal `LASTDEV` (R186). -/
def Obligations.SearchRomCompletesInOneOfThreeWays : Prop :=
  ∀ s : State, Idle s → ∃ t, exec .searchRom s = .next t ∧
    t = { s with
          cmd := 0x09, present := t.present, fail := t.fail, err := t.err, result := t.result
          lastDev := t.lastDev, ident := t.ident, line := t.line } ∧
    (∀ e i, bufByte t e i = bufByte s e i) ∧
    ((t.err = .busError ∧ t.present = false ∧ t.result = .failed ∧ t.lastDev = s.lastDev ∧
        t.ident = s.ident) ∨
     (t.err = .protocolError ∧ t.present = true ∧ t.result = .failed ∧ t.lastDev = s.lastDev) ∨
     (t.err = .none ∧ t.present = true ∧ t.result = .done ∧ t.lastDev = 0xFF) ∨
     (t.err = .none ∧ t.present = true ∧ t.result = .moreAvailable ∧ t.lastDev.toNat < 64))

/-- R171: with `LASTDEV` = -1 the starting value of the identifier has no effect on a pass that completes. -/
def Obligations.FreshSearchIgnoresTheSeed : Prop :=
  ∀ (s t : State) (seed : Identifier), s.lastDev = 0xFF → exec .searchRom s = .next t → t.fail = false →
    exec .searchRom { s with ident := seed } = .next t

/-- R182 on the reference bus (R76 to R85, log 9): with a device on the bus a pass completes and leaves the
identifier of a device that is present, whatever the search state and whatever the slaves were doing. -/
def Obligations.SearchFindsAPresentDevice : Prop :=
  ∀ (s : State) (bus : ReferenceBus), Idle s → s.line.env = .reference bus → bus.slaves ≠ [] →
    ∃ t, exec .searchRom s = .next t ∧ t.fail = false ∧ t.present = true ∧
      (∃ v ∈ bus.slaves, t.ident = v.ident)

/-- R180, the document's property P4: with exactly one device a pass returns `DONE` and that device's identifier. -/
def Obligations.SearchOfOneDeviceIsDone : Prop :=
  ∀ (s : State) (v : Slave) (b : Bool), Idle s → s.line.env = .reference ⟨[v], b⟩ →
    ∃ t, exec .searchRom s = .next t ∧ t.fail = false ∧ t.result = .done ∧ t.lastDev = 0xFF ∧
      t.ident = v.ident

/-! ## Enumeration -/

/-- R191: `FIND_DEVICES` with `MAX` = 0 or `MAX` > `NBUF` fails with `ILLEGAL_OPERAND` and does nothing else. -/
def Obligations.FindDevicesRejectsIllegalMax : Prop :=
  ∀ s : State, Idle s → (s.max = 0 ∨ s.params.nbuf < s.max.toNat) →
    exec .findDevices s = .next { s with cmd := 0x0A, fail := true, err := .illegalOperand }

/-- R188: when the first pass fails, as a `SEARCH_ROM` from the initial search state would, `FIND_DEVICES` ends as that
pass does, with `COUNT` = 0 and `BUF` untouched; with no device that is `BUS_ERROR` after one reset sequence. -/
def Obligations.FindDevicesWhoseFirstPassFails : Prop :=
  ∀ s : State, Idle s → 1 ≤ s.max.toNat → s.max.toNat ≤ s.params.nbuf →
    (∀ t, exec .searchRom { s with lastDev := 0xFF, ident := 0, result := .none } = .next t → t.fail = true →
      exec .findDevices s = .next { t with cmd := 0x0A, count := 0 } ∧
      t.buf = s.buf ∧ t.result = .failed ∧ (t.err = .busError ∨ t.err = .protocolError)) ∧
    (presenceAhead s = false →
      exec .findDevices s = .next
        { s with
          cmd := 0x0A, present := false, fail := true, err := .busError, result := .failed
          lastDev := 0xFF, ident := 0, count := 0, line := lineAfterReset s.line })

/-- R187, R190: with a legal `MAX` `FIND_DEVICES` completes; it changes only its results, the search state and the status;
`COUNT` is at most `MAX`; entries from `COUNT` on keep what they held, byte by byte. Entry `e` below `COUNT` holds the
identifier that the `e + 1`-th of successive `SEARCH_ROM` commands from the initial search state finds, and all but
`CMD`, `COUNT` and `BUF` is as the last of those commands leaves it: the `COUNT`-th, or the failing one after it. -/
def Obligations.FindDevicesCompletesWithinMax : Prop :=
  ∀ s : State, Idle s → 1 ≤ s.max.toNat → s.max.toNat ≤ s.params.nbuf →
    let pass := fun n => afterPasses n { s with lastDev := 0xFF, ident := 0, result := .none }
    ∃ t, exec .findDevices s = .next t ∧
      t = { s with
            cmd := 0x0A, present := t.present, fail := t.fail, err := t.err, result := t.result
            lastDev := t.lastDev, ident := t.ident, count := t.count, buf := t.buf, line := t.line } ∧
      t.count.toNat ≤ s.max.toNat ∧
      (∀ e i, i < 8 → t.count.toNat ≤ e → bufByte t e i = bufByte s e i) ∧
      (∀ e i, i < 8 → e < t.count.toNat → (t.buf.read (bufAddress e i)).isSome = true) ∧
      (∀ e < t.count.toNat, (pass (e + 1)).fail = false ∧ EntryIs t e (pass (e + 1)).ident) ∧
      (∀ e, e + 1 < t.count.toNat → (pass (e + 1)).result = .moreAvailable) ∧
      (t.fail = false → 1 ≤ t.count.toNat ∧ EntryIs t (t.count.toNat - 1) t.ident ∧
        (t.result = .done ∨ (t.result = .moreAvailable ∧ t.count = s.max)) ∧
        t = { pass t.count.toNat with cmd := 0x0A, count := t.count, buf := t.buf }) ∧
      (t.fail = true → t.result = .failed ∧ t.count.toNat < s.max.toNat ∧
        t = { pass (t.count.toNat + 1) with cmd := 0x0A, count := t.count, buf := t.buf })

/-- R183, R187, R189 on the reference bus (log 9): with `N` devices of distinct identifiers, `FIND_DEVICES` stores the
first `min(N, MAX)` of them, each once, in ascending order with position 0 as the most significant digit; it
returns `DONE` if `N` <= `MAX`, else it truncates silently with `MORE_AVAILABLE`. -/
def Obligations.FindDevicesEnumeratesTheBus : Prop :=
  ∀ (s : State) (bus : ReferenceBus) (ids : List Identifier),
    Idle s → 1 ≤ s.max.toNat → s.max.toNat ≤ s.params.nbuf →
    s.line.env = .reference bus → bus.slaves ≠ [] →
    ids.Perm (bus.slaves.map Slave.ident) → ids.Pairwise FoundBefore →
    ∃ t, exec .findDevices s = .next t ∧ t.fail = false ∧ t.err = .none ∧
      t.count.toNat = min ids.length s.max.toNat ∧
      t.result = (if ids.length ≤ s.max.toNat then .done else .moreAvailable) ∧
      (∀ e < t.count.toNat, ∃ id, ids[e]? = some id ∧ EntryIs t e id)

/-! ## The initial search state and the CRC unit -/

/-- R172, R203: `SEARCH_INIT` and `CRC_CLEAR`, whole. -/
def Obligations.SearchInitAndCrcClear : Prop :=
  ∀ s : State, Idle s →
    exec .searchInit s = .next
      { s with cmd := 0x0B, fail := false, err := .none, lastDev := 0xFF, ident := 0, result := .none } ∧
    exec .crcClear s = .next { s with cmd := 0x0C, fail := false, err := .none, crc := 0x00 }

/-- R200, R201, R204: `CRC_UPDATE` shifts the eight bits of `DATA` into the register, bit 0 first: the bit that
leaves, added to the data bit, decides whether the constant 0x8C is added; nothing else changes. -/
def Obligations.CrcUpdateShiftsDataIn : Prop :=
  ∀ s : State, Idle s →
    exec .crcUpdate s = .next
      { s with
        cmd := 0x0D, fail := false, err := .none
        crc := (byteBits s.data).foldl
          (fun c d => if (c.getLsbD 0 != d) then (c >>> 1) ^^^ 0x8C else c >>> 1) s.crc }

/-- R205: `CRC_ID` leaves the CRC of the eight identifier bytes, byte 0 first from 0x00, and raises
`INTEGRITY_ERROR` if it is not zero. -/
def Obligations.CrcIdChecksTheIdentifier : Prop :=
  ∀ s : State, Idle s →
    let c := crc8 ((List.range 8).map (fun i => idByte s.ident i))
    exec .crcId s = .next
      { s with
        cmd := 0x0E
        crc := c
        fail := decide (c ≠ 0x00)
        err := if c = 0x00 then .none else .integrityError }

/-- R206: `CRC_CHECK` raises `INTEGRITY_ERROR` exactly when `CRC` is not zero; nothing else changes. -/
def Obligations.CrcCheckTestsTheRegister : Prop :=
  ∀ s : State, Idle s →
    exec .crcCheck s = .next
      { s with
        cmd := 0x0F
        fail := decide (s.crc ≠ 0x00)
        err := if s.crc = 0x00 then .none else .integrityError }

/-- R207: an identifier has CRC 0 over its eight bytes exactly when byte 7 is the CRC of bytes 0 to 6. -/
def Obligations.ValidIdentifierForms : Prop :=
  ∀ id : Identifier, crcOfIdent id = 0x00 ↔ idByte id 7 = crc8 ((List.range 7).map (fun i => idByte id i))

/-- R209: flipping any single bit of a valid identifier makes the CRC over its eight bytes nonzero. -/
def Obligations.CrcDetectsSingleBitErrors : Prop :=
  ∀ (id : Identifier) (k : Nat), k < 64 → crcOfIdent id = 0x00 → crcOfIdent (id ^^^ (1#64 <<< k)) ≠ 0x00

/-! ## The host port -/

/-- R63, R25, R27, R32, R33, R41, R42, R107, R108: what a host read shows while `BUSY` = 0, at every address. -/
def Obligations.HostReadShowsTheRegister : Prop :=
  ∀ s : State, s.busy = false →
    let rd := fun a : Address => (clockEdge (Ports.read a) s).hRdata
    rd 0x00 = s.cmd ∧
    ((rd 0x01).getLsbD 0 = false ∧ (rd 0x01).getLsbD 1 = s.present ∧ (rd 0x01).getLsbD 2 = s.fail ∧
      (rd 0x01).getLsbD 3 = (s.crc == 0x00) ∧ (rd 0x01).extractLsb' 4 2 =
        (match s.result with
          | .none => 0
          | .failed => 1
          | .done => 2
          | .moreAvailable => 3) ∧
      (rd 0x01).extractLsb' 6 2 = 0) ∧
    ((rd 0x02).extractLsb' 0 3 =
        (match s.err with
          | .none => 0
          | .busError => 1
          | .protocolError => 2
          | .integrityError => 3
          | .illegalCmd => 5
          | .illegalOperand => 6) ∧ (rd 0x02).extractLsb' 3 5 = 0) ∧
    rd 0x03 = s.data ∧ rd 0x04 = s.crc ∧ rd 0x05 = s.lastDev ∧ rd 0x06 = s.max ∧ rd 0x07 = s.count ∧
    (∀ i < 8, rd (BitVec.ofNat 5 (0x08 + i)) = idByte s.ident i) ∧ rd 0x10 = s.bufSel ∧
    (∀ a : Address, 0x11 ≤ a.toNat → a.toNat ≤ 0x17 → rd a = 0x00) ∧
    (∀ i < 8, rd (BitVec.ofNat 5 (0x18 + i)) =
      if s.bufSel.toNat < s.params.nbuf then bufByte s s.bufSel.toNat i else 0x00)

/-- R63, R68: a host read of any address changes no state of the block, `BUSY` = 0 or 1: the edge is the edge without host
access but for `h_rdata`, the port, and the model's own count of reads (log 5). While `BUSY` = 0 the edge without host access
leaves every state as it was but for `h_rdata`, which is 0x00 (R22). -/
def Obligations.HostReadHasNoSideEffect : Prop :=
  ∀ (s : State) (a : Address),
    clockEdge (Ports.read a) s =
      { clockEdge Ports.quiet s with hRdata := (clockEdge (Ports.read a) s).hRdata, reads := s.reads + 1 } ∧
    (s.busy = false → clockEdge Ports.quiet s = { s with hRdata := 0x00 })

/-- R62, R64, R111: a host write while `BUSY` = 0 stores the whole byte in a writable register (a write to `CMD` also
starts its command, R26) and changes nothing at a read-only or reserved address. With `h_re` = 1 in the same period the
write is performed all the same, the start of a command included: the edge is the edge with `h_re` = 0, and nothing is said
of `h_rdata`, nor of the model's own count of reads (log 5); without `h_re`, `h_rdata` is 0x00 (R22). -/
def Obligations.HostWriteStoresTheByte : Prop :=
  ∀ (s : State) (v : Byte) (re : Bool), s.busy = false →
    let wr := fun a : Address => clockEdge { Ports.write a v with re := re } s
    let kept := fun a : Address =>
      { s with
        hRdata := if re then (wr a).hRdata else 0x00
        reads := if re then (wr a).reads else s.reads }
    (∀ a : Address, wr a =
      { clockEdge (Ports.write a v) s with hRdata := (kept a).hRdata, reads := (kept a).reads }) ∧
    (wr 0x00).cmd = v ∧
    wr 0x03 = { kept 0x03 with data := v } ∧ wr 0x05 = { kept 0x05 with lastDev := v } ∧
    wr 0x06 = { kept 0x06 with max := v } ∧ wr 0x10 = { kept 0x10 with bufSel := v } ∧
    (∀ i < 8, let a : Address := BitVec.ofNat 5 (0x08 + i)
      wr a = { kept a with ident := (wr a).ident } ∧ idByte (wr a).ident i = v ∧
      ∀ j < 8, j ≠ i → idByte (wr a).ident j = idByte s.ident j) ∧
    (∀ a : Address, (a = 0x01 ∨ a = 0x02 ∨ a = 0x04 ∨ a = 0x07 ∨ (0x11 ≤ a.toNat)) → wr a = kept a)

/-- R67, R64: while `BUSY` = 1 a host write to any address is ignored: the edge is the edge without it. With `h_re` = 1 in
the same period it is ignored all the same, and nothing is said of `h_rdata`, nor of the model's own count of reads
(log 5). Without `h_re`, `h_rdata` is 0x00 while `BUSY` = 1 too, with the write or without it (R22). -/
def Obligations.WritesWhileBusyAreIgnored : Prop :=
  ∀ (s : State) (a : Address) (v : Byte) (re : Bool), s.busy = true →
    let wr := clockEdge { Ports.write a v with re := re } s
    let without := clockEdge Ports.quiet s
    without.hRdata = 0x00 ∧
    wr = { without with
      hRdata := if re then wr.hRdata else 0x00
      reads := if re then wr.reads else without.reads }

/-- A read of `STATUS` while `BUSY` = 1 shows `BUSY` = 1 (R68) and the reserved bits as 0, whatever the free value is. The
reserved bits are the model's reading of R27 and R68, which leaves the other bits unspecified (log 5). -/
def Obligations.StatusReadWhileBusy : Prop :=
  ∀ s : State, s.busy = true →
    (clockEdge (Ports.read 0x01) s).hRdata.getLsbD 0 = true ∧
    (clockEdge (Ports.read 0x01) s).hRdata.extractLsb' 6 2 = 0

/-! ## The clock-edge level -/

/-- R120, R292, R47: a bus command accepted at an edge has `BUSY` = 1 and the line low in the next period, `CMD` holds its
word, `FAIL` and `ERR` are cleared, the sequencer holds its `OP` and `RSTF`. Every other field is unchanged, but that
`FIND_DEVICES` has put the search state at its initial value (R187) and `h_rdata` is 0x00 in a write period (R22). -/
def Obligations.BusCommandStartsAtItsAcceptanceEdge : Prop :=
  ∀ (s : State) (i : Instr), Idle s → 1 ≤ i.op.toNat → i.op.toNat ≤ 0xA →
    (i = .findDevices → 1 ≤ s.max.toNat ∧ s.max.toNat ≤ s.params.nbuf) →
    let t := clockEdge (Ports.write 0x00 (encode i)) s
    t.seq.op = i.op ∧ t.seq.rstf = i.rstf ∧
    t = { s with
          busy := true, drv := true, cmd := encode i, fail := false, err := .none, hRdata := 0x00, seq := t.seq
          lastDev := if i = .findDevices then 0xFF else s.lastDev
          ident := if i = .findDevices then 0 else s.ident
          result := if i = .findDevices then .none else s.result }

/-- R296, R120: the two levels agree. After the acceptance edge of any command, some number `n` of quiet clock edges
leads to the state the command level gives, `BUSY` = 1 at every edge before, and `n` is the time of the segments
driven, in µs, times `TICKS_PER_US`. The command level as one step is log 1; the exact number of edges rests on log 12,
latency 0 and no input synchroniser. -/
def Obligations.ClockLevelAgreesWithCommandLevel : Prop :=
  ∀ (s : State) (i : Instr), Idle s → s.params.wf →
    ∃ (t : State) (n : Nat), exec i { s with hRdata := 0x00 } = .next t ∧
      quietEdges n (clockEdge (Ports.write 0x00 (encode i)) s) = t ∧
      (∀ m < n, (quietEdges m (clockEdge (Ports.write 0x00 (encode i)) s)).busy = true) ∧
      n + s.params.ticksPerUs * wireTime s.line.wire = s.params.ticksPerUs * wireTime t.line.wire

/-! ## Durations and samples -/

/-- R290, R296: the duration in µs and the number of samples of each command with a fixed waveform. -/
def Obligations.FixedDurationsAndSamples : Prop :=
  ∀ s : State, Idle s →
    let costs := fun (i : Instr) (us samples : Nat) => ∃ t, exec i s = .next t ∧
      wireTime t.line.wire = wireTime s.line.wire + us ∧ t.line.samples = s.line.samples + samples
    costs .reset 960 1 ∧ costs .writeBit 70 0 ∧ costs .readBit 70 1 ∧ costs .writeByte 560 0 ∧
    costs .readByte 560 8 ∧ costs (.skipRom false) 560 0 ∧ costs (.readRom false) 5040 64 ∧
    costs (.matchRom false) 5040 0 ∧
    (presenceAhead s = true →
      costs (.skipRom true) 1520 1 ∧ costs (.readRom true) 6000 65 ∧ costs (.matchRom true) 6000 1) ∧
    (presenceAhead s = false →
      costs (.skipRom true) 960 1 ∧ costs (.readRom true) 960 1 ∧ costs (.matchRom true) 960 1 ∧
      costs .searchRom 960 1) ∧
    costs .searchInit 0 0 ∧ costs .crcClear 0 0 ∧ costs .crcUpdate 0 0 ∧ costs .crcId 0 0 ∧
    costs .crcCheck 0 0

/-- R290, R296: the duration and the samples of a `SEARCH_ROM` by how it ends. -/
def Obligations.SearchDurationsAndSamples : Prop :=
  ∀ s t : State, Idle s → exec .searchRom s = .next t →
    (t.err = .busError → wireTime t.line.wire = wireTime s.line.wire + 960 ∧
      t.line.samples = s.line.samples + 1) ∧
    (t.err = .protocolError → ∃ p < 64, wireTime t.line.wire = wireTime s.line.wire + (1660 + 210 * p) ∧
      t.line.samples = s.line.samples + (1 + 2 * (p + 1))) ∧
    (t.err = .none → wireTime t.line.wire = wireTime s.line.wire + 14960 ∧
      t.line.samples = s.line.samples + 129)

/-- R257: `FIND_DEVICES` takes at most `MAX` * 14960 µs. -/
def Obligations.FindDevicesTimeBound : Prop :=
  ∀ s t : State, Idle s → exec .findDevices s = .next t →
    wireTime t.line.wire ≤ wireTime s.line.wire + s.max.toNat * 14960
end

