-- ==== Sys2Proof/Laws/Bits.lean ====
section
/-! SUPPORT. The counted loop and the bits and bytes of identifiers: what each operation does, bit by bit. -/

namespace Sys2Proof.Machine

@[simp] theorem forUpTo_zero {σ : Type} (f : Nat → σ → σ) (s : σ) : forUpTo f 0 s = s := rfl

theorem forUpTo_succ {σ : Type} (f : Nat → σ → σ) (n : Nat) (s : σ) :
    forUpTo f (n + 1) s = f n (forUpTo f n s) := rfl

/-- What holds before a loop and is carried from round to round holds after it. -/
theorem forUpTo_induction {σ : Type} {f : Nat → σ → σ} {s : σ} (P : Nat → σ → Prop) (h0 : P 0 s)
    (n : Nat) (hstep : ∀ k < n, ∀ t, P k t → P (k + 1) (f k t)) : P n (forUpTo f n s) := by
  induction n with
  | zero => exact h0
  | succ n ih =>
    exact hstep n (Nat.lt_succ_self n) _ (ih fun k hk t ht => hstep k (Nat.lt_succ_of_lt hk) t ht)

@[simp] theorem getLsbD_zextBit (b : Bool) (k : Nat) :
    (zextBit b).getLsbD k = (decide (k = 0) && b) := by
  cases b <;> cases k <;> simp [zextBit]

theorem zextBit_eq (b : Bool) : zextBit b = if b then 0x01 else 0x00 := by cases b <;> rfl

/-- A bit of an identifier after one bit is set. -/
theorem idBit_setIdBit (id : Identifier) {pos : Nat} (hpos : pos < 64) (b : Bool) (q : Nat) :
    idBit (setIdBit id pos b) q = if q = pos then b else idBit id q := by
  have hone : ∀ k, (1#64).getLsbD k = decide (k = 0) := by intro k; simp [BitVec.getLsbD_one]
  have hbit : ∀ k, ((BitVec.ofBool b).setWidth 64).getLsbD k = (decide (k = 0) && b) := by
    intro k; cases b <;> cases k <;> simp
  simp only [idBit, setIdBit, BitVec.getLsbD_or, BitVec.getLsbD_and, BitVec.getLsbD_not,
    BitVec.getLsbD_shiftLeft, hone, hbit]
  by_cases h : q = pos
  · subst h; simp [hpos]
  · by_cases hq : q < 64
    · have h0 : ¬ (pos ≤ q ∧ q - pos = 0) := by omega
      by_cases h1 : q < pos
      · simp [h, hq, h1]
      · have h2 : q - pos ≠ 0 := by omega
        simp [h, hq, h2]
    · simp [h, hq, BitVec.getLsbD_of_ge _ q (Nat.le_of_not_lt hq)]

/-- A bit of a byte of an identifier. -/
theorem getLsbD_idByte (id : Identifier) (i k : Nat) :
    (idByte id i).getLsbD k = (decide (k < 8) && idBit id (8 * i + k)) := by
  simp [idByte, idBit]

/-- Two identifiers with the same 64 bits are the same. -/
theorem ident_ext {a b : Identifier} (h : ∀ k < 64, idBit a k = idBit b k) : a = b :=
  BitVec.eq_of_getLsbD_eq fun k hk => h k hk

/-- R14: the bit of a position is bit `pos & 7` of byte `pos >> 3`. -/
theorem idBit_eq_byte (id : Identifier) (pos : Nat) :
    idBit id pos = (idByte id (pos / 8)).getLsbD (pos % 8) := by
  rw [getLsbD_idByte, Nat.div_add_mod]
  simp [Nat.mod_lt]

/-- A bit of an identifier after one byte is set. -/
theorem idBit_setIdByte (id : Identifier) {i : Nat} (hi : i < 8) (v : Byte) (q : Nat) :
    idBit (setIdByte id i v) q = if 8 * i ≤ q ∧ q < 8 * i + 8 then v.getLsbD (q - 8 * i) else idBit id q := by
  have hFF : ∀ k, (0xFF#64).getLsbD k = decide (k < 8) := by
    intro k
    by_cases hk : k < 64
    · revert k; decide
    · rw [BitVec.getLsbD_of_ge _ k (Nat.le_of_not_lt hk)]
      simp; omega
  simp only [idBit, setIdByte, BitVec.getLsbD_or, BitVec.getLsbD_and, BitVec.getLsbD_not,
    BitVec.getLsbD_shiftLeft, BitVec.getLsbD_setWidth, hFF]
  by_cases hq : q < 64
  · by_cases h : 8 * i ≤ q ∧ q < 8 * i + 8
    · have h1 : ¬ q < 8 * i := by omega
      have h2 : q - 8 * i < 8 := by omega
      have h3 : q - 8 * i < 64 := by omega
      simp only [hq, h, h1, h2, h3]; simp
    · by_cases h1 : q < 8 * i
      · simp only [hq, h, h1]; simp
      · have h2 : ¬ q - 8 * i < 8 := by omega
        have h3 : v.getLsbD (q - 8 * i) = false := BitVec.getLsbD_of_ge _ _ (by omega)
        simp only [hq, h, h1, h2, h3]; simp
  · have hne : ¬ (8 * i ≤ q ∧ q < 8 * i + 8) := by omega
    have hge : id.getLsbD q = false := BitVec.getLsbD_of_ge _ q (Nat.le_of_not_lt hq)
    simp only [hq, hne, hge]; simp

/-- A byte of an identifier after one byte is set. -/
theorem idByte_setIdByte (id : Identifier) {i : Nat} (hi : i < 8) (v : Byte) {j : Nat} (_hj : j < 8) :
    idByte (setIdByte id i v) j = if j = i then v else idByte id j := by
  apply BitVec.eq_of_getLsbD_eq
  intro k hk
  rw [getLsbD_idByte, idBit_setIdByte id hi]
  by_cases h : j = i
  · subst h
    have : 8 * j ≤ 8 * j + k ∧ 8 * j + k < 8 * j + 8 := by omega
    simp [this, hk]
  · have : ¬ (8 * i ≤ 8 * j + k ∧ 8 * j + k < 8 * i + 8) := by omega
    rw [if_neg this, if_neg h, getLsbD_idByte]

end Sys2Proof.Machine
end

