-- ==== Sys2Proof/Laws/Memory.lean ====
section
/-! SUPPORT. The identifier buffer: a read after a write, and the canonical form, which every operation keeps. -/

namespace Sys2Proof.Machine

/-- Every address of a buffer in canonical form that starts above `a` is above `a`. -/
theorem Memory.mem_write {m : Memory} {a : Nat} {v : Byte} {c : Host.Cell} (h : c ∈ m.write a v) :
    c = (a, v) ∨ c ∈ m := by
  induction m with
  | nil => exact .inl (List.mem_singleton.1 h)
  | cons d rest ih =>
    obtain ⟨b, w⟩ := d
    simp only [Memory.write] at h
    split at h
    · rcases List.mem_cons.1 h with h | h
      · exact .inl h
      · exact .inr h
    · split at h
      · rcases List.mem_cons.1 h with h | h
        · exact .inl h
        · exact .inr (List.mem_cons_of_mem _ h)
      · rcases List.mem_cons.1 h with h | h
        · exact .inr (h ▸ List.mem_cons_self)
        · rcases ih h with h | h
          · exact .inl h
          · exact .inr (List.mem_cons_of_mem _ h)

/-- A write keeps the canonical form. -/
theorem Memory.wf_write {m : Memory} (h : Memory.wf m) (a : Nat) (v : Byte) : Memory.wf (m.write a v) := by
  induction m with
  | nil => exact List.pairwise_singleton _ _
  | cons d rest ih =>
    obtain ⟨b, w⟩ := d
    obtain ⟨h1, h2⟩ := List.pairwise_cons.1 h
    simp only [Memory.write]
    split
    · rename_i hab
      refine List.pairwise_cons.2 ⟨fun c hc => ?_, h⟩
      rcases List.mem_cons.1 hc with rfl | hc
      · exact hab
      · exact Nat.lt_trans hab (h1 c hc)
    · split
      · rename_i hab
        exact List.pairwise_cons.2 ⟨fun c hc => hab ▸ h1 c hc, h2⟩
      · rename_i hab hne
        refine List.pairwise_cons.2 ⟨fun c hc => ?_, ih h2⟩
        rcases Memory.mem_write hc with rfl | hc
        · show b < a
          omega
        · exact h1 c hc

/-- A read after a write: the value written at its own address, what was there at every other. -/
theorem Memory.read_write (m : Memory) (a : Nat) (v : Byte) (q : Nat) :
    (m.write a v).read q = if q = a then some v else m.read q := by
  induction m with
  | nil =>
    simp only [Memory.write, Memory.read]
    by_cases h : q = a
    · simp [h]
    · rw [if_neg (Ne.symm h), if_neg h]
  | cons d rest ih =>
    obtain ⟨b, w⟩ := d
    simp only [Memory.write]
    split
    · simp only [Memory.read]
      by_cases h : q = a
      · simp [h]
      · rw [if_neg (Ne.symm h), if_neg h]
    · split
      · rename_i h1 h2
        subst h2
        simp only [Memory.read]
        by_cases h : q = a
        · simp [h]
        · rw [if_neg (Ne.symm h), if_neg h, if_neg (Ne.symm h)]
      · rename_i h1 h2
        simp only [Memory.read, ih]
        by_cases h : q = a
        · subst h
          simp [Ne.symm h2]
        · simp [h]

/-- Storing an identifier keeps the canonical form. -/
theorem wf_storeIdent {m : Memory} (h : Memory.wf m) (e : Nat) (id : Identifier) :
    Memory.wf (storeIdent e id m) :=
  forUpTo_induction (fun _ m => Memory.wf m) h 8 fun _ _ _ ht => Memory.wf_write ht _ _

/-- The addresses of a buffer after an identifier is stored. -/
theorem mem_storeIdent {m : Memory} {e : Nat} {id : Identifier} {c : Host.Cell}
    (h : c ∈ storeIdent e id m) : c ∈ m ∨ ∃ i < 8, c.1 = bufAddress e i := by
  refine forUpTo_induction (f := fun i m => Memory.write m (bufAddress e i) (idByte id i)) (s := m)
    (fun _ t => ∀ c ∈ t, c ∈ m ∨ ∃ i < 8, c.1 = bufAddress e i) (fun c hc => .inl hc) 8
    (fun k hk t ht c hc => ?_) c h
  rcases Memory.mem_write hc with rfl | hc
  · exact .inr ⟨k, hk, rfl⟩
  · exact ht c hc

/-- A read after an identifier is stored: its bytes in its entry, what was there elsewhere. -/
theorem read_storeIdent (m : Memory) (e : Nat) (id : Identifier) (q : Nat) :
    (storeIdent e id m).read q =
      if 8 * e ≤ q ∧ q < 8 * e + 8 then some (idByte id (q - 8 * e)) else m.read q := by
  refine forUpTo_induction (f := fun i m => Memory.write m (bufAddress e i) (idByte id i)) (s := m)
    (fun n t => t.read q =
      if 8 * e ≤ q ∧ q < 8 * e + n then some (idByte id (q - 8 * e)) else m.read q)
    (by rw [if_neg (by omega)]) 8 (fun k hk t ht => ?_)
  rw [Memory.read_write, ht]
  have ha : bufAddress e k = 8 * e + k := rfl
  by_cases h : q = 8 * e + k
  · rw [if_pos (by omega), if_pos (by omega)]
    congr 2
    omega
  · rw [if_neg (by omega)]
    by_cases h' : 8 * e ≤ q ∧ q < 8 * e + k
    · rw [if_pos h', if_pos (by omega)]
    · rw [if_neg h', if_neg (by omega)]

end Sys2Proof.Machine
end

