-- ==== Sys2Proof/Laws/Line.lean ====
section
/-! SUPPORT. What each line operation does: one equation per operation, with the waveform it leaves on the wire. -/

namespace Sys2Proof.Machine

/-! ## Slots -/

/-- `BusReset()` (R121). -/
theorem busReset_eq (l : Line) : busReset l = (!l.level .presence, lineAfterReset l) := rfl

/-- `ReadBit()` (R127). -/
theorem readBit_eq (l : Line) : readBit l = (l.level .readSlot, lineAfterRead l) := rfl

/-- `WriteBit(b)` (R124). -/
theorem writeBit_eq (b : Bool) (l : Line) : writeBit b l = sentBits [b] l := by cases b <;> rfl

@[simp] theorem sentBits_nil (l : Line) : sentBits [] l = l := rfl

theorem sentBits_append (bs cs : List Bool) (l : Line) :
    sentBits cs (sentBits bs l) = sentBits (bs ++ cs) l := by
  simp [sentBits]

@[simp] theorem sentBits_samples (bs : List Bool) (l : Line) : (sentBits bs l).samples = l.samples := rfl

theorem writeBit_sentBits (b : Bool) (bs : List Bool) (l : Line) :
    writeBit b (sentBits bs l) = sentBits (bs ++ [b]) l := by
  rw [writeBit_eq, sentBits_append]

/-! ## Bytes and identifiers sent -/

/-- A loop of write slots sends its bits in order. -/
theorem forUpTo_writeBit (f : Nat → Bool) (n : Nat) (l : Line) :
    forUpTo (fun k => writeBit (f k)) n l = sentBits ((List.range n).map f) l := by
  induction n with
  | zero => rfl
  | succ n ih => rw [forUpTo_succ, ih, writeBit_sentBits, List.range_succ, List.map_append]; rfl

/-- `WriteByte(v)` (R141). -/
theorem writeByte_eq (v : Byte) (l : Line) : writeByte v l = sentBits (byteBits v) l :=
  forUpTo_writeBit _ 8 l

/-- The bytes of an identifier, byte 0 first, are its 64 bits from position 0 (R101). -/
theorem identBits_eq (id : Identifier) :
    (List.range 8).flatMap (fun i => byteBits (idByte id i)) = identBits id := by
  have h : (List.range 8).flatMap (fun i => (List.range 8).map (fun k => 8 * i + k)) = List.range 64 := by
    decide
  simp only [identBits, ← h, List.map_flatMap, byteBits, List.map_map]
  refine List.flatMap_congr fun i _ => List.map_congr_left fun k hk => ?_
  rw [getLsbD_idByte, decide_eq_true (List.mem_range.1 hk), Bool.true_and]
  rfl

/-- A loop of bytes sends their bits in order. -/
theorem forUpTo_writeByte (f : Nat → Byte) (n : Nat) (l : Line) :
    forUpTo (fun i => writeByte (f i)) n l = sentBits ((List.range n).flatMap fun i => byteBits (f i)) l := by
  induction n with
  | zero => rfl
  | succ n ih => rw [forUpTo_succ, ih, writeByte_eq, sentBits_append, List.range_succ]; simp

/-- The bytes of `MATCH_ROM` (R155). -/
theorem writeIdent_eq (id : Identifier) (l : Line) : writeIdent id l = sentBits (identBits id) l := by
  rw [writeIdent, forUpTo_writeByte, identBits_eq]

/-! ## Bytes and identifiers received -/

theorem lineAfterReads_add (m n : Nat) (l : Line) :
    lineAfterReads n (lineAfterReads m l) = lineAfterReads (m + n) l := by
  induction n with
  | zero => rfl
  | succ n ih => rw [lineAfterReads, ih]; rfl

/-- `ReadByte()` (R144): bit `k` is the level of the `k`-th slot. -/
theorem readByte_eq (l : Line) :
    (readByte l).2 = lineAfterReads 8 l ∧
      ∀ k < 8, (readByte l).1.getLsbD k = (lineAfterReads k l).level .readSlot := by
  have h := forUpTo_induction (f := fun k (p : Byte × Line) =>
      let r := readBit p.2
      (p.1 ||| (zextBit r.1 <<< k), r.2)) (s := (0x00, l))
    (fun n p => p.2 = lineAfterReads n l ∧
      ∀ k < 8, p.1.getLsbD k = (decide (k < n) && (lineAfterReads k l).level .readSlot))
    ⟨rfl, fun k hk => by simp⟩ 8 (fun n hn p hp => by
      obtain ⟨h1, h2⟩ := hp
      refine ⟨by simp only [readBit_eq]; rw [h1]; rfl, fun k hk => ?_⟩
      simp only [readBit_eq, h1, BitVec.getLsbD_or, h2 k hk, BitVec.getLsbD_shiftLeft, getLsbD_zextBit]
      rcases Nat.lt_trichotomy k n with hlt | heq | hgt
      · have : k < n + 1 := by omega
        simp [hlt, this]
      · subst heq; simp [hk]
      · have h3 : ¬ k < n := by omega
        have h4 : ¬ k < n + 1 := by omega
        have h5 : k - n ≠ 0 := by omega
        simp [h3, h4, h5])
  refine ⟨h.1, fun k hk => ?_⟩
  have := h.2 k hk
  rw [decide_eq_true hk, Bool.true_and] at this
  exact this

/-- The eight bytes of `READ_ROM` (R153): position `k` is the level of the `k`-th slot. -/
theorem readIdent_eq (id : Identifier) (l : Line) :
    (readIdent id l).2 = lineAfterReads 64 l ∧
      ∀ k < 64, idBit (readIdent id l).1 k = (lineAfterReads k l).level .readSlot := by
  have h := forUpTo_induction (f := fun i (p : Identifier × Line) =>
      let r := readByte p.2
      (setIdByte p.1 i r.1, r.2)) (s := (id, l))
    (fun n p => p.2 = lineAfterReads (8 * n) l ∧
      ∀ k < 8 * n, idBit p.1 k = (lineAfterReads k l).level .readSlot)
    ⟨rfl, fun k hk => absurd hk (by omega)⟩ 8 (fun n hn p hp => by
      obtain ⟨h1, h2⟩ := hp
      obtain ⟨r1, r2⟩ := readByte_eq p.2
      refine ⟨by show (readByte p.2).2 = _; rw [r1, h1, lineAfterReads_add]; rfl, fun k hk => ?_⟩
      simp only [idBit_setIdByte p.1 hn]
      by_cases hk' : 8 * n ≤ k
      · have hlt : k - 8 * n < 8 := by omega
        rw [if_pos ⟨hk', by omega⟩, r2 _ hlt, h1, lineAfterReads_add, Nat.add_sub_cancel' hk']
      · rw [if_neg (by omega), h2 k (by omega)])
  exact ⟨h.1, h.2⟩

/-! ## Time and samples -/

theorem wireTime_append (a b : List Segment) : wireTime (a ++ b) = wireTime a + wireTime b := by
  simp [wireTime]

theorem wireTime_writeSlotWire (b : Bool) : wireTime (writeSlotWire b) = 70 := by cases b <;> rfl

@[simp] theorem wireTime_sentBits (bs : List Bool) (l : Line) :
    wireTime (sentBits bs l).wire = wireTime l.wire + 70 * bs.length := by
  have h : ∀ cs : List Bool, wireTime (cs.flatMap writeSlotWire) = 70 * cs.length := by
    intro cs
    induction cs with
    | nil => rfl
    | cons c cs ih =>
      rw [List.flatMap_cons, wireTime_append, wireTime_writeSlotWire, ih, List.length_cons]; omega
  rw [sentBits, wireTime_append, h, List.length_reverse, Nat.add_comm]

@[simp] theorem length_byteBits (v : Byte) : (byteBits v).length = 8 := by simp [byteBits]

@[simp] theorem length_identBits (id : Identifier) : (identBits id).length = 64 := by simp [identBits]

@[simp] theorem wireTime_lineAfterReset (l : Line) :
    wireTime (lineAfterReset l).wire = wireTime l.wire + 960 := by
  rw [lineAfterReset, wireTime_append, Nat.add_comm]; rfl

@[simp] theorem wireTime_lineAfterRead (l : Line) :
    wireTime (lineAfterRead l).wire = wireTime l.wire + 70 := by
  rw [lineAfterRead, wireTime_append, Nat.add_comm]; rfl

@[simp] theorem samples_lineAfterReset (l : Line) : (lineAfterReset l).samples = l.samples + 1 := rfl

@[simp] theorem samples_lineAfterRead (l : Line) : (lineAfterRead l).samples = l.samples + 1 := rfl

theorem wireTime_lineAfterReads (n : Nat) (l : Line) :
    wireTime (lineAfterReads n l).wire = wireTime l.wire + 70 * n := by
  induction n with
  | zero => rfl
  | succ n ih => rw [lineAfterReads, wireTime_lineAfterRead, ih]; omega

theorem samples_lineAfterReads (n : Nat) (l : Line) : (lineAfterReads n l).samples = l.samples + n := by
  induction n with
  | zero => rfl
  | succ n ih => rw [lineAfterReads, samples_lineAfterRead, ih]; omega

end Sys2Proof.Machine
end

