-- ==== Sys2Proof/Laws/Search.lean ====
section
/-! SUPPORT. What a position, a walk over positions and a whole search pass do: one inversion lemma each, and the walk
on scripted samples. -/

namespace Sys2Proof.Machine

/-! ## One position -/

/-- The bit of a pair that is not (1, 1) is the bit rules R176 and R177 give. -/
theorem resolvedDir_eq_bitByRule (last : Int) (stored : Bool) (pos : Nat) {p : Bool × Bool}
    (hp : p ≠ (true, true)) : resolvedDir last pos stored p.1 p.2 = bitByRule last stored pos p := by
  obtain ⟨a, b⟩ := p
  cases a <;> cases b <;> simp_all [resolvedDir, bitByRule, discrepancyDir]
  rcases Int.lt_trichotomy (pos : Int) last with h | h | h
  · simp [h, Int.ne_of_lt h, Int.le_of_lt h]
  · simp [h]
  · simp [h, Int.ne_of_gt h, Int.le_of_lt h]

/-- The new deviation point stays legal at a position of the search (R186). -/
theorem legalDeviation_after {pos : Nat} (hpos : pos < 64) (a b d : Bool) {nd : Byte}
    (h : legalDeviation nd = true) : legalDeviation (deviationAfter pos a b d nd) = true := by
  rw [deviationAfter]
  split
  · have : pos < 256 := by omega
    simp [legalDeviation, Config.positions, Nat.mod_eq_of_lt this, hpos]
  · exact h

/-- A position of a pass that has failed does nothing (R175). -/
theorem searchPosition_of_failed (last : Int) (pos : Nat) {w : Walk} (h : w.failed = true) :
    searchPosition last pos w = w := by
  simp [searchPosition, h]

/-- A position whose pair reads (1, 1) ends the pass after its two read slots (R175). -/
theorem searchPosition_fails (last : Int) (pos : Nat) {w : Walk} (h : w.failed = false)
    (h1 : w.line.level .readSlot = true) (h2 : (lineAfterRead w.line).level .readSlot = true) :
    searchPosition last pos w =
      { w with line := lineAfterRead (lineAfterRead w.line), failed := true } := by
  simp [searchPosition, h, readBit_eq, h1, h2]

/-- A position whose pair does not read (1, 1) resolves, stores and writes its bit (R176 to R178). -/
theorem searchPosition_resolves (last : Int) (pos : Nat) {w : Walk} (h : w.failed = false)
    {p : Bool × Bool} (h1 : w.line.level .readSlot = p.1)
    (h2 : (lineAfterRead w.line).level .readSlot = p.2) (hp : p ≠ (true, true)) :
    searchPosition last pos w =
      let d := bitByRule last (idBit w.ident pos) pos p
      { ident := setIdBit w.ident pos d
        newDev := deviationAfter pos p.1 p.2 d w.newDev
        line := sentBits [d] (lineAfterRead (lineAfterRead w.line))
        failed := false } := by
  have hne : (p.1 && p.2) = false := by
    obtain ⟨a, b⟩ := p; cases a <;> cases b <;> simp_all
  simp only [searchPosition, h, readBit_eq, h1, h2, hne, writeBit_eq,
    resolvedDir_eq_bitByRule last _ pos hp]
  simp

/-! ## A walk -/

theorem searchWalk_succ (last : Int) (n : Nat) (w : Walk) :
    searchWalk last (n + 1) w = searchPosition last n (searchWalk last n w) := rfl

/-- The walk over the first `n` positions, in every environment: the positions from `n` on keep their bits; a walk
that has not failed has taken `n` triplets and has a legal deviation point; one that has failed at `p` has taken
`p` triplets and one pair. -/
theorem searchWalk_spec (last : Int) {w : Walk} (hf : w.failed = false)
    (hd : legalDeviation w.newDev = true) (n : Nat) (hn : n ≤ 64) :
    (∀ q, n ≤ q → idBit (searchWalk last n w).ident q = idBit w.ident q) ∧
    legalDeviation (searchWalk last n w).newDev = true ∧
    ((searchWalk last n w).failed = false →
      wireTime (searchWalk last n w).line.wire = wireTime w.line.wire + 210 * n ∧
      (searchWalk last n w).line.samples = w.line.samples + 2 * n) ∧
    ((searchWalk last n w).failed = true → ∃ p < n,
      wireTime (searchWalk last n w).line.wire = wireTime w.line.wire + (210 * p + 140) ∧
      (searchWalk last n w).line.samples = w.line.samples + 2 * (p + 1)) := by
  induction n with
  | zero => exact ⟨fun _ _ => rfl, hd, fun _ => ⟨rfl, rfl⟩, fun h => absurd h (by simp [searchWalk, hf])⟩
  | succ n ih =>
    obtain ⟨i1, i2, i3, i4⟩ := ih (by omega)
    rw [searchWalk_succ]
    cases h : (searchWalk last n w).failed with
    | true =>
      rw [searchPosition_of_failed last n h]
      obtain ⟨p, hp, ht, hs⟩ := i4 h
      exact ⟨fun q hq => i1 q (by omega), i2, fun h' => absurd h' (by simp [h]),
        fun _ => ⟨p, by omega, ht, hs⟩⟩
    | false =>
      obtain ⟨t1, t2⟩ := i3 h
      by_cases hp : ((searchWalk last n w).line.level .readSlot,
          (lineAfterRead (searchWalk last n w).line).level .readSlot) = (true, true)
      · rw [searchPosition_fails last n h (congrArg Prod.fst hp) (congrArg Prod.snd hp)]
        refine ⟨fun q hq => i1 q (by omega), i2, fun h' => absurd h' (by simp), fun _ => ⟨n, by omega, ?_, ?_⟩⟩
        · simp only [wireTime_lineAfterRead]; omega
        · simp only [samples_lineAfterRead]; omega
      · rw [searchPosition_resolves last n h rfl rfl hp]
        refine ⟨fun q hq => ?_, legalDeviation_after (by omega) _ _ _ i2, fun _ => ⟨?_, ?_⟩,
          fun h' => absurd h' (by simp)⟩
        · rw [idBit_setIdBit _ (by omega), if_neg (by omega), i1 q (by omega)]
        · simp only [wireTime_sentBits, wireTime_lineAfterRead, List.length_singleton]; omega
        · simp only [sentBits_samples, samples_lineAfterRead]; omega

theorem tripletsWire_congr {id id' : Identifier} {n : Nat} (h : ∀ k < n, idBit id k = idBit id' k) :
    tripletsWire id n = tripletsWire id' n := by
  induction n with
  | zero => rfl
  | succ n ih => rw [tripletsWire, tripletsWire, h n (by omega), ih fun k hk => h k (by omega)]

/-- What a walk that has not failed has put on the wire (R100). -/
theorem searchWalk_wire (last : Int) (w : Walk) (n : Nat) (hn : n ≤ 64)
    (hf : (searchWalk last n w).failed = false) :
    (searchWalk last n w).line.wire = tripletsWire (searchWalk last n w).ident n ++ w.line.wire := by
  induction n with
  | zero => rfl
  | succ n ih =>
    rw [searchWalk_succ] at hf ⊢
    cases h : (searchWalk last n w).failed with
    | true => rw [searchPosition_of_failed last n h, h] at hf; cases hf
    | false =>
      by_cases hp : ((searchWalk last n w).line.level .readSlot,
          (lineAfterRead (searchWalk last n w).line).level .readSlot) = (true, true)
      · rw [searchPosition_fails last n h (congrArg Prod.fst hp) (congrArg Prod.snd hp)] at hf
        cases hf
      · rw [searchPosition_resolves last n h rfl rfl hp]
        have hi := ih (by omega) h
        have hw : ∀ (d : Bool) (l : Line), (sentBits [d] (lineAfterRead (lineAfterRead l))).wire =
            writeSlotWire d ++ readSlotWire ++ readSlotWire ++ l.wire := by
          intro d l; cases d <;> rfl
        dsimp only
        generalize bitByRule last (idBit (searchWalk last n w).ident n) n _ = d
        have hc : tripletsWire (setIdBit (searchWalk last n w).ident n d) n =
            tripletsWire (searchWalk last n w).ident n :=
          tripletsWire_congr fun k hk => by rw [idBit_setIdBit _ (by omega), if_neg (by omega)]
        rw [hw, hi, tripletsWire, idBit_setIdBit _ (by omega), if_pos rfl, hc]
        simp only [List.append_assoc]

/-! ## Scripted samples -/

@[simp] theorem level_scripted (k : SampleKind) (b : Bool) (bs : List Bool) (wire : List Segment) (n : Nat) :
    Line.level k { env := .scripted (b :: bs), wire := wire, samples := n } = b := rfl

theorem level_of_scripted (k : SampleKind) {l : Line} {b : Bool} {bs : List Bool}
    (h : l.env = .scripted (b :: bs)) : l.level k = b := by
  rw [Line.level, h]; rfl

theorem env_lineAfterRead_scripted {l : Line} {bs : List Bool} (h : l.env = .scripted bs) :
    (lineAfterRead l).env = .scripted bs.tail := by
  rw [lineAfterRead, h]; rfl

theorem env_lineAfterReset_scripted {l : Line} {bs : List Bool} (h : l.env = .scripted bs) :
    (lineAfterReset l).env = .scripted bs.tail := by
  rw [lineAfterReset, h]; rfl

theorem env_sentBits_scripted (cs : List Bool) {l : Line} {bs : List Bool} (h : l.env = .scripted bs) :
    (sentBits cs l).env = .scripted bs := by
  show cs.foldl (fun e b => e.afterWrite b) l.env = _
  rw [h]
  induction cs with
  | nil => rfl
  | cons c cs ih => exact ih

/-- The walk on a script of pairs none of which is (1, 1): every position resolved by the rules (R174 to R178). -/
theorem searchWalk_scripted (last : Int) {w : Walk} (hf : w.failed = false)
    (hd : w.newDev = Config.sentinel) (pairs : List (Bool × Bool)) (rest : List Bool)
    (hp : NoFailingPair pairs) (hlen : pairs.length ≤ 64)
    (henv : w.line.env = .scripted (pairLevels pairs ++ rest)) (n : Nat) (hn : n ≤ pairs.length) :
    (searchWalk last n w).failed = false ∧
    (searchWalk last n w).line.env = .scripted (pairLevels (pairs.drop n) ++ rest) ∧
    (∀ pos (h : pos < pairs.length), pos < n → idBit (searchWalk last n w).ident pos =
      bitByRule last (idBit w.ident pos) pos pairs[pos]) ∧
    ((∀ pos < n, discrepancyAt pairs pos = true → idBit (searchWalk last n w).ident pos = true) →
      (searchWalk last n w).newDev = Config.sentinel) ∧
    (∀ p < n, discrepancyAt pairs p = true → idBit (searchWalk last n w).ident p = false →
      (∀ q < n, p < q → discrepancyAt pairs q = true → idBit (searchWalk last n w).ident q = true) →
      (searchWalk last n w).newDev = BitVec.ofNat 8 p) := by
  induction n with
  | zero => exact ⟨hf, henv, fun _ _ h => absurd h (by omega), fun _ => hd, fun _ h => absurd h (by omega)⟩
  | succ n ih =>
    obtain ⟨i1, i2, i3, i4, i5⟩ := ih (by omega)
    have hlt : n < pairs.length := hn
    have hbits : idBit (searchWalk last n w).ident n = idBit w.ident n :=
      (searchWalk_spec last hf (by rw [hd]; rfl) n (by omega)).1 n (Nat.le_refl n)
    rw [List.drop_eq_getElem_cons hlt] at i2
    generalize hpn : pairs[n] = p at i2
    have hpp : p ≠ (true, true) := hpn ▸ hp _ (List.getElem_mem hlt)
    have henv1 : (searchWalk last n w).line.env =
        .scripted (p.1 :: p.2 :: (pairLevels (pairs.drop (n + 1)) ++ rest)) := i2
    have henv2 := env_lineAfterRead_scripted henv1
    have hstep := searchPosition_resolves last n i1 (level_of_scripted .readSlot henv1)
      (level_of_scripted .readSlot henv2) hpp
    rw [searchWalk_succ, hstep, hbits]
    have hdisc : discrepancyAt pairs n = (p.1 == p.2) := by
      rw [discrepancyAt, List.getElem?_eq_getElem hlt, hpn]
      obtain ⟨a, b⟩ := p
      cases a <;> cases b <;> simp_all
    refine ⟨rfl, env_sentBits_scripted _ (env_lineAfterRead_scripted henv2), fun pos h hpos => ?_,
      fun hall => ?_, fun p' hp' hdp hbp hq => ?_⟩
    · rw [idBit_setIdBit _ (by omega)]
      by_cases he : pos = n
      · subst he; rw [if_pos rfl, hpn]
      · rw [if_neg he]; exact i3 pos h (by omega)
    · have hn' := hall n (by omega)
      have hrest : (searchWalk last n w).newDev = Config.sentinel := i4 fun pos hpos hdp => by
        have := hall pos (by omega) hdp
        rwa [idBit_setIdBit _ (by omega), if_neg (by omega)] at this
      rw [idBit_setIdBit _ (by omega), if_pos rfl, hdisc] at hn'
      simp only [deviationAfter]
      cases hpq : (p.1 == p.2)
      · simpa using hrest
      · rw [hn' hpq]; simpa using hrest
    · rw [idBit_setIdBit _ (by omega)] at hbp
      simp only [deviationAfter]
      by_cases he : p' = n
      · subst he
        rw [if_pos rfl] at hbp
        rw [hdisc] at hdp
        rw [hdp, hbp]; rfl
      · rw [if_neg he] at hbp
        have hnd := i5 p' (by omega) hdp hbp fun q hq1 hq2 hdq => by
          have := hq q (by omega) hq2 hdq
          rwa [idBit_setIdBit _ (by omega), if_neg (by omega)] at this
        have hn' := hq n (by omega) (by omega)
        rw [idBit_setIdBit _ (by omega), if_pos rfl, hdisc] at hn'
        cases hpq : (p.1 == p.2)
        · simpa using hnd
        · rw [hn' hpq]; simpa using hnd

/-! ## A pass -/

/-- The walk a pass makes when a device is present (R174 step 2 and 3). -/
def passWalk (s : State) : Walk :=
  searchWalk (lastDeviation s) 64
    { ident := s.ident, newDev := Config.sentinel
      line := sentBits (byteBits 0xF0) (lineAfterReset s.line), failed := false }

/-- A pass without presence (R174 step 1). -/
theorem searchPass_absent {s : State} (h : s.line.level .presence = true) :
    searchPass s = (.raised .busError,
      { s with present := false, result := .failed, line := lineAfterReset s.line }) := by
  simp [searchPass, busReset_eq, h]

/-- A pass that fails at a pair (R175). -/
theorem searchPass_fails {s : State} (h : s.line.level .presence = false) (hw : (passWalk s).failed = true) :
    searchPass s = (.raised .protocolError,
      { s with present := true, result := .failed, ident := (passWalk s).ident, line := (passWalk s).line }) := by
  rw [passWalk] at hw
  simp only [searchPass, busReset_eq, h, writeByte_eq, Config.romSearch, Config.positions, passWalk, hw]
  simp

/-- A pass that completes (R179). -/
theorem searchPass_completes {s : State} (h : s.line.level .presence = false)
    (hw : (passWalk s).failed = false) :
    searchPass s = (.returned (passResult (passWalk s).newDev),
      { s with present := true, result := passResult (passWalk s).newDev, lastDev := (passWalk s).newDev,
               ident := (passWalk s).ident, line := (passWalk s).line }) := by
  rw [passWalk] at hw
  simp only [searchPass, busReset_eq, h, writeByte_eq, Config.romSearch, Config.positions, passWalk, hw]
  simp

/-- The three ways a pass ends. -/
theorem searchPass_cases (s : State) :
    (s.line.level .presence = true ∧ searchPass s = (.raised .busError,
      { s with present := false, result := .failed, line := lineAfterReset s.line })) ∨
    (s.line.level .presence = false ∧ (passWalk s).failed = true ∧ searchPass s = (.raised .protocolError,
      { s with present := true, result := .failed, ident := (passWalk s).ident, line := (passWalk s).line })) ∨
    (s.line.level .presence = false ∧ (passWalk s).failed = false ∧
      searchPass s = (.returned (passResult (passWalk s).newDev),
        { s with present := true, result := passResult (passWalk s).newDev, lastDev := (passWalk s).newDev,
                 ident := (passWalk s).ident, line := (passWalk s).line })) := by
  cases h : s.line.level .presence with
  | true => exact .inl ⟨rfl, searchPass_absent h⟩
  | false =>
    cases hw : (passWalk s).failed with
    | true => exact .inr (.inl ⟨rfl, rfl, searchPass_fails h hw⟩)
    | false => exact .inr (.inr ⟨rfl, rfl, searchPass_completes h hw⟩)

/-- The walk of a pass: a legal deviation point, its time and its samples. -/
theorem passWalk_spec (s : State) :
    legalDeviation (passWalk s).newDev = true ∧
    ((passWalk s).failed = false →
      wireTime (passWalk s).line.wire = wireTime s.line.wire + 14960 ∧
      (passWalk s).line.samples = s.line.samples + 129) ∧
    ((passWalk s).failed = true → ∃ p < 64,
      wireTime (passWalk s).line.wire = wireTime s.line.wire + (1660 + 210 * p) ∧
      (passWalk s).line.samples = s.line.samples + (1 + 2 * (p + 1))) := by
  obtain ⟨-, h2, h3, h4⟩ := searchWalk_spec (lastDeviation s)
    (w := { ident := s.ident, newDev := Config.sentinel
            line := sentBits (byteBits 0xF0) (lineAfterReset s.line), failed := false })
    rfl rfl 64 (Nat.le_refl 64)
  simp only [wireTime_sentBits, wireTime_lineAfterReset, sentBits_samples, samples_lineAfterReset,
    length_byteBits] at h3 h4
  refine ⟨h2, fun h => ?_, fun h => ?_⟩
  · obtain ⟨a, b⟩ := h3 h
    simp only [passWalk]
    omega
  · obtain ⟨p, hp, a, b⟩ := h4 h
    simp only [passWalk]
    exact ⟨p, hp, by omega, by omega⟩

/-- With `last_deviation` = -1 no bit of the seed is used: two walks that differ only in the identifier they start from
stay together (R171). -/
theorem searchWalk_seed {w w' : Walk} (h1 : w.failed = false) (h2 : w'.failed = false)
    (h3 : w.newDev = w'.newDev) (h4 : w.line = w'.line) (n : Nat) (hn : n ≤ 64) :
    (searchWalk (-1) n w).failed = (searchWalk (-1) n w').failed ∧
      ((searchWalk (-1) n w).failed = false →
        (searchWalk (-1) n w).newDev = (searchWalk (-1) n w').newDev ∧
        (searchWalk (-1) n w).line = (searchWalk (-1) n w').line ∧
        ∀ k < n, idBit (searchWalk (-1) n w).ident k = idBit (searchWalk (-1) n w').ident k) := by
  have hb : ∀ n a b pr, bitByRule (-1) a n pr = bitByRule (-1) b n pr := by
    rintro n a b ⟨x, y⟩
    cases x <;> cases y <;> simp only [bitByRule]
    rw [if_neg (by omega), if_neg (by omega)]
  induction n with
  | zero => exact ⟨h1.trans h2.symm, fun _ => ⟨h3, h4, fun _ h => absurd h (by omega)⟩⟩
  | succ n ih =>
    obtain ⟨i1, i2⟩ := ih (by omega)
    rw [searchWalk_succ, searchWalk_succ]
    cases hc : (searchWalk (-1) n w).failed with
    | true =>
      rw [searchPosition_of_failed _ _ hc, searchPosition_of_failed _ _ (i1 ▸ hc)]
      exact ⟨i1, fun h => absurd h (by simp [hc])⟩
    | false =>
      obtain ⟨j1, j2, j3⟩ := i2 hc
      have hc' : (searchWalk (-1) n w').failed = false := i1 ▸ hc
      by_cases hp : ((searchWalk (-1) n w).line.level .readSlot,
          (lineAfterRead (searchWalk (-1) n w).line).level .readSlot) = (true, true)
      · have hp' := hp
        rw [j2] at hp'
        rw [searchPosition_fails (-1) n hc (congrArg Prod.fst hp) (congrArg Prod.snd hp),
          searchPosition_fails (-1) n hc' (congrArg Prod.fst hp') (congrArg Prod.snd hp')]
        exact ⟨rfl, fun h => absurd h (by simp)⟩
      · have hp' := hp
        rw [j2] at hp'
        rw [searchPosition_resolves (-1) n hc rfl rfl hp, searchPosition_resolves (-1) n hc' rfl rfl hp']
        refine ⟨rfl, fun _ => ⟨?_, ?_, ?_⟩⟩
        · simp only [j1, j2]; rw [hb]
        · simp only [j2]; rw [hb]
        · intro k hk
          rw [idBit_setIdBit _ (by omega), idBit_setIdBit _ (by omega)]
          by_cases he : k = n
          · rw [if_pos he, if_pos he, j2, hb]
          · rw [if_neg he, if_neg he]; exact j3 k (by omega)

end Sys2Proof.Machine
end

