-- ==== Sys2Proof/Laws/State.lean ====
section
/-! SUPPORT. What each shared update leaves in each field of State, so that no proof unfolds a record update. -/

namespace Sys2Proof.Machine

/-! ## `accept` -/

@[simp] theorem accept_cmd (w : Byte) (s : State) : (accept w s).cmd = w := rfl
@[simp] theorem accept_busy (w : Byte) (s : State) : (accept w s).busy = s.busy := rfl
@[simp] theorem accept_present (w : Byte) (s : State) : (accept w s).present = s.present := rfl
@[simp] theorem accept_fail (w : Byte) (s : State) : (accept w s).fail = false := rfl
@[simp] theorem accept_result (w : Byte) (s : State) : (accept w s).result = s.result := rfl
@[simp] theorem accept_err (w : Byte) (s : State) : (accept w s).err = .none := rfl
@[simp] theorem accept_data (w : Byte) (s : State) : (accept w s).data = s.data := rfl
@[simp] theorem accept_crc (w : Byte) (s : State) : (accept w s).crc = s.crc := rfl
@[simp] theorem accept_lastDev (w : Byte) (s : State) : (accept w s).lastDev = s.lastDev := rfl
@[simp] theorem accept_max (w : Byte) (s : State) : (accept w s).max = s.max := rfl
@[simp] theorem accept_count (w : Byte) (s : State) : (accept w s).count = s.count := rfl
@[simp] theorem accept_ident (w : Byte) (s : State) : (accept w s).ident = s.ident := rfl
@[simp] theorem accept_bufSel (w : Byte) (s : State) : (accept w s).bufSel = s.bufSel := rfl
@[simp] theorem accept_buf (w : Byte) (s : State) : (accept w s).buf = s.buf := rfl
@[simp] theorem accept_drv (w : Byte) (s : State) : (accept w s).drv = s.drv := rfl
@[simp] theorem accept_seq (w : Byte) (s : State) : (accept w s).seq = s.seq := rfl
@[simp] theorem accept_hRdata (w : Byte) (s : State) : (accept w s).hRdata = s.hRdata := rfl
@[simp] theorem accept_params (w : Byte) (s : State) : (accept w s).params = s.params := rfl
@[simp] theorem accept_line (w : Byte) (s : State) : (accept w s).line = s.line := rfl
@[simp] theorem accept_reads (w : Byte) (s : State) : (accept w s).reads = s.reads := rfl
@[simp] theorem accept_resets (w : Byte) (s : State) : (accept w s).resets = s.resets := rfl
@[simp] theorem accept_pending (w : Byte) (s : State) : (accept w s).pending = s.pending := rfl

/-! ## `finish` -/

@[simp] theorem finish_cmd (s : State) : (finish s).cmd = s.cmd := rfl
@[simp] theorem finish_busy (s : State) : (finish s).busy = false := rfl
@[simp] theorem finish_present (s : State) : (finish s).present = s.present := rfl
@[simp] theorem finish_fail (s : State) : (finish s).fail = s.fail := rfl
@[simp] theorem finish_result (s : State) : (finish s).result = s.result := rfl
@[simp] theorem finish_err (s : State) : (finish s).err = s.err := rfl
@[simp] theorem finish_data (s : State) : (finish s).data = s.data := rfl
@[simp] theorem finish_crc (s : State) : (finish s).crc = s.crc := rfl
@[simp] theorem finish_lastDev (s : State) : (finish s).lastDev = s.lastDev := rfl
@[simp] theorem finish_max (s : State) : (finish s).max = s.max := rfl
@[simp] theorem finish_count (s : State) : (finish s).count = s.count := rfl
@[simp] theorem finish_ident (s : State) : (finish s).ident = s.ident := rfl
@[simp] theorem finish_bufSel (s : State) : (finish s).bufSel = s.bufSel := rfl
@[simp] theorem finish_buf (s : State) : (finish s).buf = s.buf := rfl
@[simp] theorem finish_drv (s : State) : (finish s).drv = false := rfl
@[simp] theorem finish_seq (s : State) : (finish s).seq = Sequencer.idle := rfl
@[simp] theorem finish_hRdata (s : State) : (finish s).hRdata = s.hRdata := rfl
@[simp] theorem finish_params (s : State) : (finish s).params = s.params := rfl
@[simp] theorem finish_line (s : State) : (finish s).line = s.line := rfl
@[simp] theorem finish_reads (s : State) : (finish s).reads = s.reads := rfl
@[simp] theorem finish_resets (s : State) : (finish s).resets = s.resets := rfl
@[simp] theorem finish_pending (s : State) : (finish s).pending = s.pending := rfl

/-! ## `raise` -/

@[simp] theorem raise_cmd (c : Cause) (s : State) : (raise c s).cmd = s.cmd := rfl
@[simp] theorem raise_busy (c : Cause) (s : State) : (raise c s).busy = false := rfl
@[simp] theorem raise_present (c : Cause) (s : State) : (raise c s).present = s.present := rfl
@[simp] theorem raise_fail (c : Cause) (s : State) : (raise c s).fail = true := rfl
@[simp] theorem raise_result (c : Cause) (s : State) : (raise c s).result = s.result := rfl
@[simp] theorem raise_err (c : Cause) (s : State) : (raise c s).err = c := rfl
@[simp] theorem raise_data (c : Cause) (s : State) : (raise c s).data = s.data := rfl
@[simp] theorem raise_crc (c : Cause) (s : State) : (raise c s).crc = s.crc := rfl
@[simp] theorem raise_lastDev (c : Cause) (s : State) : (raise c s).lastDev = s.lastDev := rfl
@[simp] theorem raise_max (c : Cause) (s : State) : (raise c s).max = s.max := rfl
@[simp] theorem raise_count (c : Cause) (s : State) : (raise c s).count = s.count := rfl
@[simp] theorem raise_ident (c : Cause) (s : State) : (raise c s).ident = s.ident := rfl
@[simp] theorem raise_bufSel (c : Cause) (s : State) : (raise c s).bufSel = s.bufSel := rfl
@[simp] theorem raise_buf (c : Cause) (s : State) : (raise c s).buf = s.buf := rfl
@[simp] theorem raise_drv (c : Cause) (s : State) : (raise c s).drv = false := rfl
@[simp] theorem raise_seq (c : Cause) (s : State) : (raise c s).seq = Sequencer.idle := rfl
@[simp] theorem raise_hRdata (c : Cause) (s : State) : (raise c s).hRdata = s.hRdata := rfl
@[simp] theorem raise_params (c : Cause) (s : State) : (raise c s).params = s.params := rfl
@[simp] theorem raise_line (c : Cause) (s : State) : (raise c s).line = s.line := rfl
@[simp] theorem raise_reads (c : Cause) (s : State) : (raise c s).reads = s.reads := rfl
@[simp] theorem raise_resets (c : Cause) (s : State) : (raise c s).resets = s.resets := rfl
@[simp] theorem raise_pending (c : Cause) (s : State) : (raise c s).pending = s.pending := rfl

/-! ## `illegalWord` -/

@[simp] theorem illegalWord_cmd (w : Byte) (s : State) : (illegalWord w s).cmd = w := rfl
@[simp] theorem illegalWord_busy (w : Byte) (s : State) : (illegalWord w s).busy = s.busy := rfl
@[simp] theorem illegalWord_present (w : Byte) (s : State) : (illegalWord w s).present = s.present := rfl
@[simp] theorem illegalWord_fail (w : Byte) (s : State) : (illegalWord w s).fail = true := rfl
@[simp] theorem illegalWord_result (w : Byte) (s : State) : (illegalWord w s).result = s.result := rfl
@[simp] theorem illegalWord_err (w : Byte) (s : State) : (illegalWord w s).err = .illegalCmd := rfl
@[simp] theorem illegalWord_data (w : Byte) (s : State) : (illegalWord w s).data = s.data := rfl
@[simp] theorem illegalWord_crc (w : Byte) (s : State) : (illegalWord w s).crc = s.crc := rfl
@[simp] theorem illegalWord_lastDev (w : Byte) (s : State) : (illegalWord w s).lastDev = s.lastDev := rfl
@[simp] theorem illegalWord_max (w : Byte) (s : State) : (illegalWord w s).max = s.max := rfl
@[simp] theorem illegalWord_count (w : Byte) (s : State) : (illegalWord w s).count = s.count := rfl
@[simp] theorem illegalWord_ident (w : Byte) (s : State) : (illegalWord w s).ident = s.ident := rfl
@[simp] theorem illegalWord_bufSel (w : Byte) (s : State) : (illegalWord w s).bufSel = s.bufSel := rfl
@[simp] theorem illegalWord_buf (w : Byte) (s : State) : (illegalWord w s).buf = s.buf := rfl
@[simp] theorem illegalWord_drv (w : Byte) (s : State) : (illegalWord w s).drv = s.drv := rfl
@[simp] theorem illegalWord_seq (w : Byte) (s : State) : (illegalWord w s).seq = s.seq := rfl
@[simp] theorem illegalWord_hRdata (w : Byte) (s : State) : (illegalWord w s).hRdata = s.hRdata := rfl
@[simp] theorem illegalWord_params (w : Byte) (s : State) : (illegalWord w s).params = s.params := rfl
@[simp] theorem illegalWord_line (w : Byte) (s : State) : (illegalWord w s).line = s.line := rfl
@[simp] theorem illegalWord_reads (w : Byte) (s : State) : (illegalWord w s).reads = s.reads := rfl
@[simp] theorem illegalWord_resets (w : Byte) (s : State) : (illegalWord w s).resets = s.resets := rfl
@[simp] theorem illegalWord_pending (w : Byte) (s : State) : (illegalWord w s).pending = s.pending := rfl

/-! ## `searchInit` -/

@[simp] theorem searchInit_cmd (s : State) : (searchInit s).cmd = s.cmd := rfl
@[simp] theorem searchInit_busy (s : State) : (searchInit s).busy = s.busy := rfl
@[simp] theorem searchInit_present (s : State) : (searchInit s).present = s.present := rfl
@[simp] theorem searchInit_fail (s : State) : (searchInit s).fail = s.fail := rfl
@[simp] theorem searchInit_result (s : State) : (searchInit s).result = .none := rfl
@[simp] theorem searchInit_err (s : State) : (searchInit s).err = s.err := rfl
@[simp] theorem searchInit_data (s : State) : (searchInit s).data = s.data := rfl
@[simp] theorem searchInit_crc (s : State) : (searchInit s).crc = s.crc := rfl
@[simp] theorem searchInit_lastDev (s : State) : (searchInit s).lastDev = Config.sentinel := rfl
@[simp] theorem searchInit_max (s : State) : (searchInit s).max = s.max := rfl
@[simp] theorem searchInit_count (s : State) : (searchInit s).count = s.count := rfl
@[simp] theorem searchInit_ident (s : State) : (searchInit s).ident = 0 := rfl
@[simp] theorem searchInit_bufSel (s : State) : (searchInit s).bufSel = s.bufSel := rfl
@[simp] theorem searchInit_buf (s : State) : (searchInit s).buf = s.buf := rfl
@[simp] theorem searchInit_drv (s : State) : (searchInit s).drv = s.drv := rfl
@[simp] theorem searchInit_seq (s : State) : (searchInit s).seq = s.seq := rfl
@[simp] theorem searchInit_hRdata (s : State) : (searchInit s).hRdata = s.hRdata := rfl
@[simp] theorem searchInit_params (s : State) : (searchInit s).params = s.params := rfl
@[simp] theorem searchInit_line (s : State) : (searchInit s).line = s.line := rfl
@[simp] theorem searchInit_reads (s : State) : (searchInit s).reads = s.reads := rfl
@[simp] theorem searchInit_resets (s : State) : (searchInit s).resets = s.resets := rfl
@[simp] theorem searchInit_pending (s : State) : (searchInit s).pending = s.pending := rfl

/-! ## `crcClearCommand` -/

@[simp] theorem crcClearCommand_cmd (s : State) : (crcClearCommand s).cmd = s.cmd := rfl
@[simp] theorem crcClearCommand_busy (s : State) : (crcClearCommand s).busy = s.busy := rfl
@[simp] theorem crcClearCommand_present (s : State) : (crcClearCommand s).present = s.present := rfl
@[simp] theorem crcClearCommand_fail (s : State) : (crcClearCommand s).fail = s.fail := rfl
@[simp] theorem crcClearCommand_result (s : State) : (crcClearCommand s).result = s.result := rfl
@[simp] theorem crcClearCommand_err (s : State) : (crcClearCommand s).err = s.err := rfl
@[simp] theorem crcClearCommand_data (s : State) : (crcClearCommand s).data = s.data := rfl
@[simp] theorem crcClearCommand_crc (s : State) : (crcClearCommand s).crc = 0x00 := rfl
@[simp] theorem crcClearCommand_lastDev (s : State) : (crcClearCommand s).lastDev = s.lastDev := rfl
@[simp] theorem crcClearCommand_max (s : State) : (crcClearCommand s).max = s.max := rfl
@[simp] theorem crcClearCommand_count (s : State) : (crcClearCommand s).count = s.count := rfl
@[simp] theorem crcClearCommand_ident (s : State) : (crcClearCommand s).ident = s.ident := rfl
@[simp] theorem crcClearCommand_bufSel (s : State) : (crcClearCommand s).bufSel = s.bufSel := rfl
@[simp] theorem crcClearCommand_buf (s : State) : (crcClearCommand s).buf = s.buf := rfl
@[simp] theorem crcClearCommand_drv (s : State) : (crcClearCommand s).drv = s.drv := rfl
@[simp] theorem crcClearCommand_seq (s : State) : (crcClearCommand s).seq = s.seq := rfl
@[simp] theorem crcClearCommand_hRdata (s : State) : (crcClearCommand s).hRdata = s.hRdata := rfl
@[simp] theorem crcClearCommand_params (s : State) : (crcClearCommand s).params = s.params := rfl
@[simp] theorem crcClearCommand_line (s : State) : (crcClearCommand s).line = s.line := rfl
@[simp] theorem crcClearCommand_reads (s : State) : (crcClearCommand s).reads = s.reads := rfl
@[simp] theorem crcClearCommand_resets (s : State) : (crcClearCommand s).resets = s.resets := rfl
@[simp] theorem crcClearCommand_pending (s : State) : (crcClearCommand s).pending = s.pending := rfl

/-! ## `crcUpdateCommand` -/

@[simp] theorem crcUpdateCommand_cmd (s : State) : (crcUpdateCommand s).cmd = s.cmd := rfl
@[simp] theorem crcUpdateCommand_busy (s : State) : (crcUpdateCommand s).busy = s.busy := rfl
@[simp] theorem crcUpdateCommand_present (s : State) : (crcUpdateCommand s).present = s.present := rfl
@[simp] theorem crcUpdateCommand_fail (s : State) : (crcUpdateCommand s).fail = s.fail := rfl
@[simp] theorem crcUpdateCommand_result (s : State) : (crcUpdateCommand s).result = s.result := rfl
@[simp] theorem crcUpdateCommand_err (s : State) : (crcUpdateCommand s).err = s.err := rfl
@[simp] theorem crcUpdateCommand_data (s : State) : (crcUpdateCommand s).data = s.data := rfl
@[simp] theorem crcUpdateCommand_crc (s : State) :
    (crcUpdateCommand s).crc = crc8Step s.crc (byteOperand s) := rfl
@[simp] theorem crcUpdateCommand_lastDev (s : State) : (crcUpdateCommand s).lastDev = s.lastDev := rfl
@[simp] theorem crcUpdateCommand_max (s : State) : (crcUpdateCommand s).max = s.max := rfl
@[simp] theorem crcUpdateCommand_count (s : State) : (crcUpdateCommand s).count = s.count := rfl
@[simp] theorem crcUpdateCommand_ident (s : State) : (crcUpdateCommand s).ident = s.ident := rfl
@[simp] theorem crcUpdateCommand_bufSel (s : State) : (crcUpdateCommand s).bufSel = s.bufSel := rfl
@[simp] theorem crcUpdateCommand_buf (s : State) : (crcUpdateCommand s).buf = s.buf := rfl
@[simp] theorem crcUpdateCommand_drv (s : State) : (crcUpdateCommand s).drv = s.drv := rfl
@[simp] theorem crcUpdateCommand_seq (s : State) : (crcUpdateCommand s).seq = s.seq := rfl
@[simp] theorem crcUpdateCommand_hRdata (s : State) : (crcUpdateCommand s).hRdata = s.hRdata := rfl
@[simp] theorem crcUpdateCommand_params (s : State) : (crcUpdateCommand s).params = s.params := rfl
@[simp] theorem crcUpdateCommand_line (s : State) : (crcUpdateCommand s).line = s.line := rfl
@[simp] theorem crcUpdateCommand_reads (s : State) : (crcUpdateCommand s).reads = s.reads := rfl
@[simp] theorem crcUpdateCommand_resets (s : State) : (crcUpdateCommand s).resets = s.resets := rfl
@[simp] theorem crcUpdateCommand_pending (s : State) : (crcUpdateCommand s).pending = s.pending := rfl

/-! ## `latchRead` -/

@[simp] theorem latchRead_cmd (p : Ports) (s : State) : (latchRead p s).cmd = s.cmd := rfl
@[simp] theorem latchRead_busy (p : Ports) (s : State) : (latchRead p s).busy = s.busy := rfl
@[simp] theorem latchRead_present (p : Ports) (s : State) : (latchRead p s).present = s.present := rfl
@[simp] theorem latchRead_fail (p : Ports) (s : State) : (latchRead p s).fail = s.fail := rfl
@[simp] theorem latchRead_result (p : Ports) (s : State) : (latchRead p s).result = s.result := rfl
@[simp] theorem latchRead_err (p : Ports) (s : State) : (latchRead p s).err = s.err := rfl
@[simp] theorem latchRead_data (p : Ports) (s : State) : (latchRead p s).data = s.data := rfl
@[simp] theorem latchRead_crc (p : Ports) (s : State) : (latchRead p s).crc = s.crc := rfl
@[simp] theorem latchRead_lastDev (p : Ports) (s : State) : (latchRead p s).lastDev = s.lastDev := rfl
@[simp] theorem latchRead_max (p : Ports) (s : State) : (latchRead p s).max = s.max := rfl
@[simp] theorem latchRead_count (p : Ports) (s : State) : (latchRead p s).count = s.count := rfl
@[simp] theorem latchRead_ident (p : Ports) (s : State) : (latchRead p s).ident = s.ident := rfl
@[simp] theorem latchRead_bufSel (p : Ports) (s : State) : (latchRead p s).bufSel = s.bufSel := rfl
@[simp] theorem latchRead_buf (p : Ports) (s : State) : (latchRead p s).buf = s.buf := rfl
@[simp] theorem latchRead_drv (p : Ports) (s : State) : (latchRead p s).drv = s.drv := rfl
@[simp] theorem latchRead_seq (p : Ports) (s : State) : (latchRead p s).seq = s.seq := rfl
@[simp] theorem latchRead_hRdata (p : Ports) (s : State) : (latchRead p s).hRdata = readPort p s := rfl
@[simp] theorem latchRead_params (p : Ports) (s : State) : (latchRead p s).params = s.params := rfl
@[simp] theorem latchRead_line (p : Ports) (s : State) : (latchRead p s).line = s.line := rfl
@[simp] theorem latchRead_reads (p : Ports) (s : State) :
    (latchRead p s).reads = if p.re then s.reads + 1 else s.reads := rfl
@[simp] theorem latchRead_resets (p : Ports) (s : State) : (latchRead p s).resets = s.resets := rfl
@[simp] theorem latchRead_pending (p : Ports) (s : State) : (latchRead p s).pending = s.pending := rfl

/-! ## `startSegment` -/

@[simp] theorem startSegment_cmd (n : Fin 3) (g : Segment) (s : State) :
    (startSegment n g s).cmd = s.cmd := rfl
@[simp] theorem startSegment_busy (n : Fin 3) (g : Segment) (s : State) :
    (startSegment n g s).busy = s.busy := rfl
@[simp] theorem startSegment_present (n : Fin 3) (g : Segment) (s : State) :
    (startSegment n g s).present = s.present := rfl
@[simp] theorem startSegment_fail (n : Fin 3) (g : Segment) (s : State) :
    (startSegment n g s).fail = s.fail := rfl
@[simp] theorem startSegment_result (n : Fin 3) (g : Segment) (s : State) :
    (startSegment n g s).result = s.result := rfl
@[simp] theorem startSegment_err (n : Fin 3) (g : Segment) (s : State) :
    (startSegment n g s).err = s.err := rfl
@[simp] theorem startSegment_data (n : Fin 3) (g : Segment) (s : State) :
    (startSegment n g s).data = s.data := rfl
@[simp] theorem startSegment_crc (n : Fin 3) (g : Segment) (s : State) :
    (startSegment n g s).crc = s.crc := rfl
@[simp] theorem startSegment_lastDev (n : Fin 3) (g : Segment) (s : State) :
    (startSegment n g s).lastDev = s.lastDev := rfl
@[simp] theorem startSegment_max (n : Fin 3) (g : Segment) (s : State) :
    (startSegment n g s).max = s.max := rfl
@[simp] theorem startSegment_count (n : Fin 3) (g : Segment) (s : State) :
    (startSegment n g s).count = s.count := rfl
@[simp] theorem startSegment_ident (n : Fin 3) (g : Segment) (s : State) :
    (startSegment n g s).ident = s.ident := rfl
@[simp] theorem startSegment_bufSel (n : Fin 3) (g : Segment) (s : State) :
    (startSegment n g s).bufSel = s.bufSel := rfl
@[simp] theorem startSegment_buf (n : Fin 3) (g : Segment) (s : State) :
    (startSegment n g s).buf = s.buf := rfl
@[simp] theorem startSegment_drv (n : Fin 3) (g : Segment) (s : State) :
    (startSegment n g s).drv = g.isLow := rfl
@[simp] theorem startSegment_seq (n : Fin 3) (g : Segment) (s : State) :
    (startSegment n g s).seq = { s.seq with seg := n, timer := g.us * s.params.ticksPerUs } := rfl
@[simp] theorem startSegment_hRdata (n : Fin 3) (g : Segment) (s : State) :
    (startSegment n g s).hRdata = s.hRdata := rfl
@[simp] theorem startSegment_params (n : Fin 3) (g : Segment) (s : State) :
    (startSegment n g s).params = s.params := rfl
@[simp] theorem startSegment_line (n : Fin 3) (g : Segment) (s : State) :
    (startSegment n g s).line = s.line := rfl
@[simp] theorem startSegment_reads (n : Fin 3) (g : Segment) (s : State) :
    (startSegment n g s).reads = s.reads := rfl
@[simp] theorem startSegment_resets (n : Fin 3) (g : Segment) (s : State) :
    (startSegment n g s).resets = s.resets := rfl
@[simp] theorem startSegment_pending (n : Fin 3) (g : Segment) (s : State) :
    (startSegment n g s).pending = s.pending := rfl

/-! ## `hardwareReset` -/

@[simp] theorem hardwareReset_cmd (s : State) : (hardwareReset s).cmd = 0x00 := rfl
@[simp] theorem hardwareReset_busy (s : State) : (hardwareReset s).busy = false := rfl
@[simp] theorem hardwareReset_present (s : State) : (hardwareReset s).present = false := rfl
@[simp] theorem hardwareReset_fail (s : State) : (hardwareReset s).fail = false := rfl
@[simp] theorem hardwareReset_result (s : State) : (hardwareReset s).result = .none := rfl
@[simp] theorem hardwareReset_err (s : State) : (hardwareReset s).err = .none := rfl
@[simp] theorem hardwareReset_data (s : State) : (hardwareReset s).data = 0x00 := rfl
@[simp] theorem hardwareReset_crc (s : State) : (hardwareReset s).crc = 0x00 := rfl
@[simp] theorem hardwareReset_lastDev (s : State) : (hardwareReset s).lastDev = Config.sentinel := rfl
@[simp] theorem hardwareReset_max (s : State) : (hardwareReset s).max = 0x00 := rfl
@[simp] theorem hardwareReset_count (s : State) : (hardwareReset s).count = 0x00 := rfl
@[simp] theorem hardwareReset_ident (s : State) : (hardwareReset s).ident = 0 := rfl
@[simp] theorem hardwareReset_bufSel (s : State) : (hardwareReset s).bufSel = 0x00 := rfl
@[simp] theorem hardwareReset_buf (s : State) : (hardwareReset s).buf = [] := rfl
@[simp] theorem hardwareReset_drv (s : State) : (hardwareReset s).drv = false := rfl
@[simp] theorem hardwareReset_seq (s : State) : (hardwareReset s).seq = Sequencer.idle := rfl
@[simp] theorem hardwareReset_hRdata (s : State) : (hardwareReset s).hRdata = 0x00 := rfl
@[simp] theorem hardwareReset_params (s : State) : (hardwareReset s).params = s.params := rfl
@[simp] theorem hardwareReset_line (s : State) :
    (hardwareReset s).line = if s.busy then { s.line with env := s.line.env.afterCut } else s.line := rfl
@[simp] theorem hardwareReset_reads (s : State) : (hardwareReset s).reads = s.reads := rfl
@[simp] theorem hardwareReset_resets (s : State) : (hardwareReset s).resets = s.resets + 1 := rfl
@[simp] theorem hardwareReset_pending (s : State) : (hardwareReset s).pending = s.pending := rfl

/-! ## One clock edge by its case (R20, R67, R270) -/

theorem clockEdge_rst {p : Ports} {s : State} (h : p.rst = true) :
    clockEdge p s = { hardwareReset (latchRead p s) with hRdata := readPort p s } :=
  (if_pos h).trans rfl

theorem clockEdge_busy {p : Ports} {s : State} (hr : p.rst = false) (hb : s.busy = true) :
    clockEdge p s = tick (latchRead p s) :=
  (if_neg (by rw [hr]; decide)).trans (if_pos hb)

theorem clockEdge_write {p : Ports} {s : State} (hr : p.rst = false) (hb : s.busy = false) (hw : p.we = true) :
    clockEdge p s = hostWrite p.addr p.wdata (latchRead p s) :=
  (if_neg (by rw [hr]; decide)).trans ((if_neg (by show ¬ s.busy = true; rw [hb]; decide)).trans (if_pos hw))

theorem clockEdge_noWrite {p : Ports} {s : State} (hr : p.rst = false) (hb : s.busy = false)
    (hw : p.we = false) : clockEdge p s = latchRead p s :=
  (if_neg (by rw [hr]; decide)).trans
    ((if_neg (by show ¬ s.busy = true; rw [hb]; decide)).trans (if_neg (by rw [hw]; decide)))

end Sys2Proof.Machine
end

