-- ==== Sys2Proof/Laws/FindDevices.lean ====
section
/-! SUPPORT. What `FIND_DEVICES` does: its loop in every environment, and the command as one equation. -/

namespace Sys2Proof.Machine

/-- What the loop of `FIND_DEVICES` does with `left` entries allowed and `cnt` stored, in every environment (R187). -/
structure EnumEnd (left cnt : Nat) (s t : State) : Prop where
  frame : t = { finish s with
      present := t.present, fail := t.fail, err := t.err, result := t.result, lastDev := t.lastDev
      ident := t.ident, count := t.count, buf := t.buf, line := t.line }
  low : cnt ≤ t.count.toNat
  high : t.count.toNat ≤ cnt + left
  others : ∀ q, (q < 8 * cnt ∨ 8 * t.count.toNat ≤ q) → t.buf.read q = s.buf.read q
  written : ∀ q, 8 * cnt ≤ q → q < 8 * t.count.toNat → (t.buf.read q).isSome = true
  good : t.fail = false → t.err = .none ∧
    ((left = 0 ∧ t.result = s.result ∧ t.ident = s.ident ∧ t.count.toNat = cnt ∧ t.buf = s.buf) ∨
     (cnt < t.count.toNat ∧ (∀ i < 8, t.buf.read (8 * (t.count.toNat - 1) + i) = some (idByte t.ident i)) ∧
      (t.result = .done ∨ (t.result = .moreAvailable ∧ t.count.toNat = cnt + left))))
  bad : t.fail = true → t.result = .failed ∧ t.count.toNat < cnt + left ∧
    ((t.err = .busError ∧ t.present = false) ∨ (t.err = .protocolError ∧ t.present = true))
  time : wireTime t.line.wire ≤ wireTime s.line.wire + left * 14960

/-- The two results of a completed pass (R179). -/
theorem passResult_cases (b : Byte) : passResult b = .done ∨ passResult b = .moreAvailable := by
  unfold passResult; split <;> simp

/-! ## The loop, one pass at a time -/

theorem enumerate_zero (cnt : Nat) (s : State) :
    enumerate 0 cnt s = finish { s with count := BitVec.ofNat 8 cnt } := rfl

theorem enumerate_absent (left cnt : Nat) {s : State} (h : s.line.level .presence = true) :
    enumerate (left + 1) cnt s = raise .busError
      { s with present := false, result := .failed, line := lineAfterReset s.line
               count := BitVec.ofNat 8 cnt } := by
  simp only [enumerate, searchPass_absent h]

theorem enumerate_fails (left cnt : Nat) {s : State} (h : s.line.level .presence = false)
    (hw : (passWalk s).failed = true) :
    enumerate (left + 1) cnt s = raise .protocolError
      { s with present := true, result := .failed, ident := (passWalk s).ident, line := (passWalk s).line
               count := BitVec.ofNat 8 cnt } := by
  simp only [enumerate, searchPass_fails h hw]

/-- The state after a completed pass whose identifier is stored in entry `cnt`. -/
def stored (cnt : Nat) (w : Walk) (s : State) : State :=
  { s with
    present := true, result := passResult w.newDev, lastDev := w.newDev
    ident := w.ident, line := w.line
    buf := storeIdent cnt w.ident s.buf }

theorem enumerate_completes (left cnt : Nat) {s : State} (h : s.line.level .presence = false)
    (hw : (passWalk s).failed = false) :
    enumerate (left + 1) cnt s =
      if passResult (passWalk s).newDev = .done then
        finish { stored cnt (passWalk s) s with count := BitVec.ofNat 8 (cnt + 1) }
      else enumerate left (cnt + 1) (stored cnt (passWalk s) s) := by
  simp only [enumerate, searchPass_completes h hw, stored]

/-- The loop in every environment. -/
theorem enumerate_spec (left : Nat) : ∀ (cnt : Nat) (s : State), cnt + left ≤ 255 →
    s.fail = false → s.err = .none → EnumEnd left cnt s (enumerate left cnt s) := by
  induction left with
  | zero =>
    intro cnt s hb hf he
    have hc : (BitVec.ofNat 8 cnt).toNat = cnt := by simp; omega
    rw [enumerate_zero]
    refine ⟨rfl, ?_, ?_, fun _ _ => rfl, ?_, fun _ => ⟨he, .inl ⟨rfl, rfl, rfl, hc, rfl⟩⟩, ?_, ?_⟩
    · simp only [finish_count, hc, Nat.le_refl]
    · simp only [finish_count, hc]; omega
    · simp only [finish_count, hc]; intros; omega
    · simp [hf]
    · simp
  | succ left ih =>
    intro cnt s hb hf he
    have hc : (BitVec.ofNat 8 cnt).toNat = cnt := by simp; omega
    have hc1 : (BitVec.ofNat 8 (cnt + 1)).toNat = cnt + 1 := by simp; omega
    cases h : s.line.level .presence with
    | true =>
      rw [enumerate_absent left cnt h]
      refine ⟨rfl, ?_, ?_, fun _ _ => rfl, ?_, ?_, fun _ => ⟨rfl, ?_, .inl ⟨rfl, rfl⟩⟩, ?_⟩
      · simp only [raise_count, hc, Nat.le_refl]
      · simp only [raise_count, hc]; omega
      · simp only [raise_count, hc]; intros; omega
      · simp
      · simp only [raise_count, hc]; omega
      · simp only [raise_line, wireTime_lineAfterReset]; omega
    | false =>
      obtain ⟨hl, htime, hfail⟩ := passWalk_spec s
      cases hw : (passWalk s).failed with
      | true =>
        rw [enumerate_fails left cnt h hw]
        obtain ⟨p, hp, ht, -⟩ := hfail hw
        clear htime hfail ih
        generalize passWalk s = w at *
        refine ⟨rfl, ?_, ?_, fun _ _ => rfl, ?_, ?_, fun _ => ⟨rfl, ?_, .inr ⟨rfl, rfl⟩⟩, ?_⟩
        · simp only [raise_count, hc, Nat.le_refl]
        · simp only [raise_count, hc]; omega
        · simp only [raise_count, hc]; intros; omega
        · simp
        · simp only [raise_count, hc]; omega
        · simp only [raise_line, ht]; omega
      | false =>
        rw [enumerate_completes left cnt h hw]
        have ht := (htime hw).1
        clear htime hfail
        generalize passWalk s = w at *
        split
        · rename_i hd
          refine ⟨rfl, ?_, ?_, ?_, ?_, fun _ => ⟨he, .inr ⟨?_, ?_, .inl hd⟩⟩, ?_, ?_⟩
          · simp only [finish_count, hc1]; omega
          · simp only [finish_count, hc1]; omega
          · simp only [finish_count, hc1, finish_buf, stored, read_storeIdent]
            intro q hq; rw [if_neg (by omega)]
          · simp only [finish_count, hc1, finish_buf, stored, read_storeIdent]
            intro q h1 h2; rw [if_pos (by omega)]; rfl
          · simp only [finish_count, hc1]; omega
          · simp only [finish_count, hc1, finish_buf, finish_ident, stored, read_storeIdent]
            intro i hi; rw [if_pos (by omega)]; congr 2; omega
          · simp [stored, hf]
          · simp only [finish_line, stored, ht]; omega
        · rename_i hd
          have hm : passResult w.newDev = .moreAvailable :=
            (passResult_cases _).resolve_left hd
          obtain ⟨i1, i2, i3, i4, i5, i6, i7, i8⟩ := ih (cnt + 1) (stored cnt w s) (by omega) hf he
          have hbuf : ∀ q, (stored cnt w s).buf.read q =
              if 8 * cnt ≤ q ∧ q < 8 * cnt + 8 then some (idByte w.ident (q - 8 * cnt))
              else s.buf.read q := fun q => read_storeIdent _ _ _ _
          have hline : wireTime (stored cnt w s).line.wire = wireTime s.line.wire + 14960 := ht
          refine ⟨?_, by omega, by omega, ?_, ?_, ?_, ?_, by omega⟩
          · exact i1
          · intro q hq; rw [i4 q (by omega), hbuf, if_neg (by omega)]
          · intro q h1 h2
            by_cases h3 : q < 8 * (cnt + 1)
            · rw [i4 q (.inl h3), hbuf, if_pos (by omega)]; rfl
            · exact i5 q (by omega) h2
          · intro hg
            obtain ⟨g1, ⟨gl, gr, gi, gc, gb⟩ | ⟨gc, gb, gr⟩⟩ := i6 hg
            · refine ⟨g1, .inr ⟨by omega, ?_, .inr ⟨by rw [gr]; exact hm, by omega⟩⟩⟩
              intro i hi
              rw [gb, hbuf, if_pos (by omega), gi]
              congr 2; omega
            · exact ⟨g1, .inr ⟨by omega, gb, gr.imp id (fun h => ⟨h.1, by omega⟩)⟩⟩
          · intro hg
            obtain ⟨g1, g2, g3⟩ := i7 hg
            exact ⟨g1, by omega, g3⟩

/-! ## The command -/

theorem maxLegal_iff (s : State) : maxLegal s = true ↔ 1 ≤ s.max.toNat ∧ s.max.toNat ≤ s.params.nbuf := by
  simp [maxLegal]; omega

theorem exec_findDevices_legal {s : State} (h1 : 1 ≤ s.max.toNat) (h2 : s.max.toNat ≤ s.params.nbuf) :
    exec .findDevices s = .next (enumerate s.max.toNat 0 (searchInit (accept 0x0A s))) := by
  have : maxLegal (accept (encode .findDevices) s) = true := (maxLegal_iff _).2 ⟨h1, h2⟩
  simp only [exec, execFindDevices, findDevicesCommand, this]
  rfl

theorem exec_findDevices_illegal {s : State} (h : ¬ (1 ≤ s.max.toNat ∧ s.max.toNat ≤ s.params.nbuf)) :
    exec .findDevices s = .next (raise .illegalOperand (accept 0x0A s)) := by
  have : maxLegal (accept (encode .findDevices) s) = false := by
    rw [Bool.eq_false_iff]; exact fun hh => h ((maxLegal_iff _).1 hh)
  simp only [exec, execFindDevices, findDevicesCommand, this]
  rfl

end Sys2Proof.Machine
end

