-- ==== Sys2Proof/Laws/Command.lean ====
section
/-! SUPPORT. The bus commands as equations: what `exec` answers, in terms of the line after their waveforms. -/

namespace Sys2Proof.Machine

/-! ## Bus Signal and Byte Framer -/

/-- `RESET` with presence (R122). -/
theorem exec_reset_present {s : State} (h : s.line.level .presence = false) :
    exec .reset s = .next (finish { accept 0x01 s with line := lineAfterReset s.line, present := true }) := by
  have h' : (accept (encode .reset) s).line.level .presence = false := h
  simp only [exec, execReset, resetCommand, busReset_eq, h']
  rfl

/-- `RESET` without presence (R122). -/
theorem exec_reset_absent {s : State} (h : s.line.level .presence = true) :
    exec .reset s =
      .next (raise .busError { accept 0x01 s with line := lineAfterReset s.line, present := false }) := by
  have h' : (accept (encode .reset) s).line.level .presence = true := h
  simp only [exec, execReset, resetCommand, busReset_eq, h']
  rfl

/-- `WRITE_BIT` (R125). -/
theorem exec_writeBit (s : State) :
    exec .writeBit s = .next (finish { accept 0x02 s with line := sentBits [bitOperand s] s.line }) := by
  simp only [exec, execWriteBit, writeBitCommand, writeBit_eq]
  rfl

/-- `READ_BIT` (R128). -/
theorem exec_readBit (s : State) :
    exec .readBit s = .next (finish
      { accept 0x03 s with line := lineAfterRead s.line, data := zextBit (s.line.level .readSlot) }) := by
  simp only [exec, execReadBit, readBitCommand, readBit_eq]
  rfl

/-- `WRITE_BYTE` (R142). -/
theorem exec_writeByte (s : State) :
    exec .writeByte s = .next (finish { accept 0x04 s with line := sentBits (byteBits s.data) s.line }) := by
  simp only [exec, execWriteByte, writeByteCommand, writeByte_eq]
  rfl

/-- `READ_BYTE` (R145). -/
theorem exec_readByte (s : State) :
    exec .readByte s = .next (finish
      { accept 0x05 s with line := lineAfterReads 8 s.line, data := (readByte s.line).1 }) := by
  simp only [exec, execReadByte, readByteCommand, accept_line, (readByte_eq s.line).1]
  rfl

/-! ## ROM commands -/

/-- The prologue of a ROM command that goes on (R150). -/
theorem romPrologue_goes_on {rstf : Bool} {s : State} (h : rstf = true → s.line.level .presence = false) :
    romPrologue rstf s =
      (true, { s with line := lineAfterPrologue rstf s.line, present := if rstf then true else s.present }) := by
  cases rstf
  · rfl
  · simp only [romPrologue, busReset_eq, h rfl, lineAfterPrologue]; rfl

/-- The prologue of a ROM command that ends it (R150). -/
theorem romPrologue_stops {s : State} (h : s.line.level .presence = true) :
    romPrologue true s = (false, { s with line := lineAfterReset s.line, present := false }) := by
  simp only [romPrologue, busReset_eq, h]; rfl

/-- `SKIP_ROM` past its prologue (R151). -/
theorem exec_skipRom {rstf : Bool} {s : State} (h : rstf = true → s.line.level .presence = false) :
    exec (.skipRom rstf) s = .next (finish
      { accept (encode (.skipRom rstf)) s with
        line := sentBits (byteBits 0xCC) (lineAfterPrologue rstf s.line)
        present := if rstf then true else s.present }) := by
  simp only [exec, execSkipRom]
  rw [romPrologue_goes_on (s := accept (encode (.skipRom rstf)) s) h]
  simp only [afterPrologue, skipRomBody, writeByte_eq]
  rfl

/-- `READ_ROM` past its prologue (R153). -/
theorem exec_readRom {rstf : Bool} {s : State} (h : rstf = true → s.line.level .presence = false) :
    exec (.readRom rstf) s = .next (finish
      { accept (encode (.readRom rstf)) s with
        line := lineAfterReads 64 (sentBits (byteBits 0x33) (lineAfterPrologue rstf s.line))
        present := if rstf then true else s.present
        ident := (readIdent s.ident (sentBits (byteBits 0x33) (lineAfterPrologue rstf s.line))).1 }) := by
  simp only [exec, execReadRom]
  rw [romPrologue_goes_on (s := accept (encode (.readRom rstf)) s) h]
  simp only [afterPrologue, readRomBody, writeByte_eq, Config.romRead, accept_line, accept_ident,
    (readIdent_eq _ _).1]
  rfl

/-- `MATCH_ROM` past its prologue (R155). -/
theorem exec_matchRom {rstf : Bool} {s : State} (h : rstf = true → s.line.level .presence = false) :
    exec (.matchRom rstf) s = .next (finish
      { accept (encode (.matchRom rstf)) s with
        line := sentBits (byteBits 0x55 ++ identBits s.ident) (lineAfterPrologue rstf s.line)
        present := if rstf then true else s.present }) := by
  simp only [exec, execMatchRom]
  rw [romPrologue_goes_on (s := accept (encode (.matchRom rstf)) s) h]
  simp only [afterPrologue, matchRomBody, writeByte_eq, writeIdent_eq, Config.romMatch, accept_line,
    accept_ident, sentBits_append]
  rfl

/-- A ROM command that ends in its prologue (R150). -/
theorem exec_rom_absent {s : State} (h : s.line.level .presence = true) (i : Instr)
    (hi : i = .skipRom true ∨ i = .readRom true ∨ i = .matchRom true) :
    exec i s = .next (raise .busError
      { accept (encode i) s with line := lineAfterReset s.line, present := false }) := by
  rcases hi with rfl | rfl | rfl
  all_goals
    simp only [exec, execSkipRom, execReadRom, execMatchRom]
    rw [romPrologue_stops (by exact h)]
    rfl

/-! ## One search pass -/

theorem passWalk_accept (w : Byte) (s : State) : passWalk (accept w s) = passWalk s := by
  simp only [passWalk, lastDeviation, accept_lastDev, accept_ident, accept_line]

/-- `SEARCH_ROM` without presence. -/
theorem exec_searchRom_absent {s : State} (h : s.line.level .presence = true) :
    exec .searchRom s = .next (raise .busError
      { accept 0x09 s with present := false, result := .failed, line := lineAfterReset s.line }) := by
  simp only [exec, execSearchRom, searchRomCommand]
  rw [searchPass_absent (s := accept (encode .searchRom) s) h]
  rfl

/-- `SEARCH_ROM` that fails at a pair. -/
theorem exec_searchRom_fails {s : State} (h : s.line.level .presence = false)
    (hw : (passWalk s).failed = true) :
    exec .searchRom s = .next (raise .protocolError
      { accept 0x09 s with
        present := true, result := .failed, ident := (passWalk s).ident, line := (passWalk s).line }) := by
  have hp := searchPass_fails (s := accept (encode .searchRom) s) h (by rw [passWalk_accept]; exact hw)
  rw [passWalk_accept] at hp
  simp only [exec, execSearchRom, searchRomCommand, hp]
  generalize passWalk s = w
  rfl

/-- `SEARCH_ROM` that completes. -/
theorem exec_searchRom_completes {s : State} (h : s.line.level .presence = false)
    (hw : (passWalk s).failed = false) :
    exec .searchRom s = .next (finish
      { accept 0x09 s with
        present := true, result := passResult (passWalk s).newDev, lastDev := (passWalk s).newDev
        ident := (passWalk s).ident, line := (passWalk s).line }) := by
  have hp := searchPass_completes (s := accept (encode .searchRom) s) h (by rw [passWalk_accept]; exact hw)
  rw [passWalk_accept] at hp
  simp only [exec, execSearchRom, searchRomCommand, hp]
  generalize passWalk s = w
  rfl

/-! ## CRC -/

/-- `CRC_ID` (R205). -/
theorem exec_crcId (s : State) :
    exec .crcId s = .next (if crcOfIdent s.ident = 0x00
      then { accept 0x0E s with crc := crcOfIdent s.ident }
      else raise .integrityError { accept 0x0E s with crc := crcOfIdent s.ident }) := rfl

/-- `CRC_CHECK` (R206). -/
theorem exec_crcCheck (s : State) :
    exec .crcCheck s = .next (if s.crc = 0x00 then accept 0x0F s
      else raise .integrityError (accept 0x0F s)) := rfl

/-! ## Everything a command can do -/

/-- The ways each command can run: the state it leaves, with what decides between them. -/
inductive Ran : Instr → State → State → Prop where
  | resetPresent {s : State} (h : s.line.level .presence = false) :
      Ran .reset s (finish { accept 0x01 s with line := lineAfterReset s.line, present := true })
  | resetAbsent {s : State} (h : s.line.level .presence = true) :
      Ran .reset s (raise .busError { accept 0x01 s with line := lineAfterReset s.line, present := false })
  | writeBit {s : State} :
      Ran .writeBit s (finish { accept 0x02 s with line := sentBits [bitOperand s] s.line })
  | readBit {s : State} : Ran .readBit s (finish
      { accept 0x03 s with line := lineAfterRead s.line, data := zextBit (s.line.level .readSlot) })
  | writeByte {s : State} :
      Ran .writeByte s (finish { accept 0x04 s with line := sentBits (byteBits s.data) s.line })
  | readByte {s : State} : Ran .readByte s (finish
      { accept 0x05 s with line := lineAfterReads 8 s.line, data := (readByte s.line).1 })
  | skipRom {s : State} (rstf : Bool) (h : rstf = true → s.line.level .presence = false) :
      Ran (.skipRom rstf) s (finish
        { accept (encode (.skipRom rstf)) s with
          line := sentBits (byteBits 0xCC) (lineAfterPrologue rstf s.line)
          present := if rstf then true else s.present })
  | readRom {s : State} (rstf : Bool) (h : rstf = true → s.line.level .presence = false) :
      Ran (.readRom rstf) s (finish
        { accept (encode (.readRom rstf)) s with
          line := lineAfterReads 64 (sentBits (byteBits 0x33) (lineAfterPrologue rstf s.line))
          present := if rstf then true else s.present
          ident := (readIdent s.ident (sentBits (byteBits 0x33) (lineAfterPrologue rstf s.line))).1 })
  | matchRom {s : State} (rstf : Bool) (h : rstf = true → s.line.level .presence = false) :
      Ran (.matchRom rstf) s (finish
        { accept (encode (.matchRom rstf)) s with
          line := sentBits (byteBits 0x55 ++ identBits s.ident) (lineAfterPrologue rstf s.line)
          present := if rstf then true else s.present })
  | romAbsent {i : Instr} {s : State} (h : s.line.level .presence = true)
      (hi : i = .skipRom true ∨ i = .readRom true ∨ i = .matchRom true) :
      Ran i s (raise .busError
        { accept (encode i) s with line := lineAfterReset s.line, present := false })
  | searchAbsent {s : State} (h : s.line.level .presence = true) :
      Ran .searchRom s (raise .busError
        { accept 0x09 s with present := false, result := .failed, line := lineAfterReset s.line })
  | searchFails {s : State} (w : Walk) (h : s.line.level .presence = false) (hw : w = passWalk s)
      (hf : w.failed = true) :
      Ran .searchRom s (raise .protocolError
        { accept 0x09 s with present := true, result := .failed, ident := w.ident, line := w.line })
  | searchCompletes {s : State} (w : Walk) (h : s.line.level .presence = false) (hw : w = passWalk s)
      (hf : w.failed = false) (hd : legalDeviation w.newDev = true) :
      Ran .searchRom s (finish
        { accept 0x09 s with
          present := true, result := passResult w.newDev, lastDev := w.newDev, ident := w.ident
          line := w.line })
  | findIllegal {s : State} (h : ¬ (1 ≤ s.max.toNat ∧ s.max.toNat ≤ s.params.nbuf)) :
      Ran .findDevices s (raise .illegalOperand (accept 0x0A s))
  | findDevices {s : State} (t : State) (h1 : 1 ≤ s.max.toNat) (h2 : s.max.toNat ≤ s.params.nbuf)
      (he : EnumEnd s.max.toNat 0 (searchInit (accept 0x0A s)) t) : Ran .findDevices s t
  | searchInit {s : State} : Ran .searchInit s (searchInit (accept 0x0B s))
  | crcClear {s : State} : Ran .crcClear s (crcClearCommand (accept 0x0C s))
  | crcUpdate {s : State} : Ran .crcUpdate s (crcUpdateCommand (accept 0x0D s))
  | crcIdValid {s : State} (h : crcOfIdent s.ident = 0x00) :
      Ran .crcId s { accept 0x0E s with crc := crcOfIdent s.ident }
  | crcIdInvalid {s : State} (h : crcOfIdent s.ident ≠ 0x00) :
      Ran .crcId s (raise .integrityError { accept 0x0E s with crc := crcOfIdent s.ident })
  | crcCheckZero {s : State} (h : s.crc = 0x00) : Ran .crcCheck s (accept 0x0F s)
  | crcCheckNonzero {s : State} (h : s.crc ≠ 0x00) :
      Ran .crcCheck s (raise .integrityError (accept 0x0F s))

theorem rom_prologue_cases (rstf : Bool) (s : State) :
    (rstf = true → s.line.level .presence = false) ∨ (rstf = true ∧ s.line.level .presence = true) := by
  cases rstf <;> cases s.line.level .presence <;> simp

/-- Every command answers a next state, in one of these ways. -/
theorem exec_ran (i : Instr) (s : State) : ∃ t, exec i s = .next t ∧ Ran i s t := by
  have hp : s.line.level .presence = true ∨ s.line.level .presence = false := by
    cases s.line.level .presence <;> simp
  cases i with
  | reset =>
    rcases hp with h | h
    · exact ⟨_, exec_reset_absent h, .resetAbsent h⟩
    · exact ⟨_, exec_reset_present h, .resetPresent h⟩
  | writeBit => exact ⟨_, exec_writeBit s, .writeBit⟩
  | readBit => exact ⟨_, exec_readBit s, .readBit⟩
  | writeByte => exact ⟨_, exec_writeByte s, .writeByte⟩
  | readByte => exact ⟨_, exec_readByte s, .readByte⟩
  | skipRom r =>
    rcases rom_prologue_cases r s with h | ⟨rfl, h⟩
    · exact ⟨_, exec_skipRom h, .skipRom r h⟩
    · exact ⟨_, exec_rom_absent h _ (.inl rfl), .romAbsent h (.inl rfl)⟩
  | readRom r =>
    rcases rom_prologue_cases r s with h | ⟨rfl, h⟩
    · exact ⟨_, exec_readRom h, .readRom r h⟩
    · exact ⟨_, exec_rom_absent h _ (.inr (.inl rfl)), .romAbsent h (.inr (.inl rfl))⟩
  | matchRom r =>
    rcases rom_prologue_cases r s with h | ⟨rfl, h⟩
    · exact ⟨_, exec_matchRom h, .matchRom r h⟩
    · exact ⟨_, exec_rom_absent h _ (.inr (.inr rfl)), .romAbsent h (.inr (.inr rfl))⟩
  | searchRom =>
    rcases hp with h | h
    · exact ⟨_, exec_searchRom_absent h, .searchAbsent h⟩
    · have hd := (passWalk_spec s).1
      cases hw : (passWalk s).failed with
      | true => exact ⟨_, exec_searchRom_fails h hw, .searchFails _ h rfl hw⟩
      | false => exact ⟨_, exec_searchRom_completes h hw, .searchCompletes _ h rfl hw hd⟩
  | findDevices =>
    by_cases hm : 1 ≤ s.max.toNat ∧ s.max.toNat ≤ s.params.nbuf
    · have hmax : s.max.toNat < 256 := s.max.isLt
      exact ⟨_, exec_findDevices_legal hm.1 hm.2, .findDevices _ hm.1 hm.2
        (enumerate_spec s.max.toNat 0 (Machine.searchInit (accept 0x0A s)) (by omega) rfl rfl)⟩
    · exact ⟨_, exec_findDevices_illegal hm, .findIllegal hm⟩
  | searchInit => exact ⟨_, rfl, .searchInit⟩
  | crcClear => exact ⟨_, rfl, .crcClear⟩
  | crcUpdate => exact ⟨_, rfl, .crcUpdate⟩
  | crcId =>
    have h := exec_crcId s
    split at h
    · exact ⟨_, h, .crcIdValid ‹_›⟩
    · exact ⟨_, h, .crcIdInvalid ‹_›⟩
  | crcCheck =>
    have h := exec_crcCheck s
    split at h
    · exact ⟨_, h, .crcCheckZero ‹_›⟩
    · exact ⟨_, h, .crcCheckNonzero ‹_›⟩

/-- The way a command has run. -/
theorem ran_of_exec {i : Instr} {s t : State} (h : exec i s = .next t) : Ran i s t := by
  obtain ⟨u, hu, hr⟩ := exec_ran i s
  rw [h] at hu
  cases hu
  exact hr

end Sys2Proof.Machine
end

