-- ==== Sys2Proof/Laws/Crc.lean ====
section
/-! SUPPORT. The CRC is linear, and the CRC of a byte appended to its own register is 0 (45_crc8.md R201, R207, R209). -/

namespace Sys2Proof.Machine

/-! ## One shift and one step -/

@[simp] theorem crcShift_zero : crcShift 0 = 0 := by decide

/-- A shift is linear. -/
theorem crcShift_xor (a b : Byte) : crcShift (a ^^^ b) = crcShift a ^^^ crcShift b := by
  have hx : ∀ x y z : Byte, x ^^^ y ^^^ z = x ^^^ z ^^^ y := fun x y z => by
    rw [BitVec.xor_assoc, BitVec.xor_comm y z, ← BitVec.xor_assoc]
  simp only [crcShift, BitVec.getLsbD_xor, BitVec.ushiftRight_xor_distrib]
  cases a.getLsbD 0 <;> cases b.getLsbD 0
  · simp
  · simp [BitVec.xor_assoc]
  · simp only [Bool.xor_false, if_true]; exact hx _ _ _
  · simp only [Bool.xor_self, if_true, Bool.false_eq_true, if_false]
    rw [BitVec.xor_assoc (a >>> 1), BitVec.xor_comm (b >>> 1), ← BitVec.xor_assoc Config.crcPoly,
      BitVec.xor_self, BitVec.zero_xor]

/-- `n` shifts. -/
def crcShifts (n : Nat) (c : Byte) : Byte := forUpTo (fun _ => crcShift) n c

theorem crcShifts_succ (n : Nat) (c : Byte) : crcShifts (n + 1) c = crcShift (crcShifts n c) := rfl

theorem crcShifts_xor (n : Nat) (a b : Byte) : crcShifts n (a ^^^ b) = crcShifts n a ^^^ crcShifts n b := by
  induction n with
  | zero => rfl
  | succ n ih => simp only [crcShifts_succ, ih, crcShift_xor]

theorem crc8Step_eq (c v : Byte) : crc8Step c v = crcShifts 8 (c ^^^ v) := rfl

/-- A step is linear. -/
theorem crc8Step_xor (a b v w : Byte) : crc8Step (a ^^^ b) (v ^^^ w) = crc8Step a v ^^^ crc8Step b w := by
  rw [crc8Step_eq, crc8Step_eq, crc8Step_eq, ← crcShifts_xor]
  congr 1
  rw [BitVec.xor_assoc, ← BitVec.xor_assoc b, BitVec.xor_comm b v, BitVec.xor_assoc v, ← BitVec.xor_assoc]

/-- The register appended to its own data gives 0 (R202). -/
@[simp] theorem crc8Step_self (c : Byte) : crc8Step c c = 0 := by
  rw [crc8Step_eq, BitVec.xor_self]; decide

/-- Only the register itself gives 0: the eight shifts lose nothing. -/
theorem crc8Step_eq_zero {c v : Byte} : crc8Step c v = 0 ↔ v = c := by
  constructor
  · intro h
    have inj : ∀ x : Byte, crcShifts 8 x = 0 → x = 0 := by decide +kernel
    have := inj _ (crc8Step_eq c v ▸ h)
    exact (BitVec.xor_eq_zero_iff.1 this).symm
  · rintro rfl; exact crc8Step_self v

/-- A step bit by bit: data bit `k` is added to the bit that leaves at shift `k` (R200). -/
theorem crc8Step_serial (c v : Byte) :
    crc8Step c v = ((List.range 8).map fun k => v.getLsbD k).foldl
      (fun (c : Byte) d => if (c.getLsbD 0 != d) then (c >>> 1) ^^^ 0x8C else c >>> 1) c := by
  have hstep : ∀ (c : Byte) (d : Bool),
      (if (c.getLsbD 0 != d) then (c >>> 1) ^^^ 0x8C else c >>> 1) =
        crcShift c ^^^ crcShift (zextBit d) := by
    intro c d
    have h0 : crcShift (zextBit false) = 0x00 := by decide
    have h1 : crcShift (zextBit true) = 0x8C := by decide
    have h2 : Config.crcPoly = 0x8C := rfl
    cases d
    · rw [h0, crcShift, h2]; cases c.getLsbD 0 <;> simp
    · rw [h1, crcShift, h2]; cases c.getLsbD 0 <;> simp
  simp only [hstep, crc8Step_eq, crcShifts_xor, List.range, List.range.loop, List.map, List.foldl, crcShift_xor]
  have hc : crcShifts 8 c =
      crcShift (crcShift (crcShift (crcShift (crcShift (crcShift (crcShift (crcShift c))))))) := rfl
  rw [hc]
  have hv : ∀ v : Byte, crcShifts 8 v =
      crcShift (crcShift (crcShift (crcShift (crcShift (crcShift (crcShift (crcShift (zextBit (v.getLsbD 0))))))))) ^^^
      crcShift (crcShift (crcShift (crcShift (crcShift (crcShift (crcShift (zextBit (v.getLsbD 1)))))))) ^^^
      crcShift (crcShift (crcShift (crcShift (crcShift (crcShift (zextBit (v.getLsbD 2))))))) ^^^
      crcShift (crcShift (crcShift (crcShift (crcShift (zextBit (v.getLsbD 3)))))) ^^^
      crcShift (crcShift (crcShift (crcShift (zextBit (v.getLsbD 4))))) ^^^
      crcShift (crcShift (crcShift (zextBit (v.getLsbD 5)))) ^^^
      crcShift (crcShift (zextBit (v.getLsbD 6))) ^^^
      crcShift (zextBit (v.getLsbD 7)) := by decide +kernel
  rw [hv v]
  simp only [BitVec.xor_assoc]

/-! ## Identifiers -/

theorem idByte_xor (a b : Identifier) (i : Nat) : idByte (a ^^^ b) i = idByte a i ^^^ idByte b i := by
  apply BitVec.eq_of_getLsbD_eq
  intro k hk
  simp [idByte, hk]

/-- The CRC over the eight bytes is linear in the identifier (R209). -/
theorem crcOfIdent_xor (a b : Identifier) : crcOfIdent (a ^^^ b) = crcOfIdent a ^^^ crcOfIdent b := by
  have h : ∀ n, forUpTo (fun i c => crc8Step c (idByte (a ^^^ b) i)) n 0x00 =
      forUpTo (fun i c => crc8Step c (idByte a i)) n 0x00 ^^^
        forUpTo (fun i c => crc8Step c (idByte b i)) n 0x00 := by
    intro n
    induction n with
    | zero => simp
    | succ n ih => rw [forUpTo_succ, forUpTo_succ, forUpTo_succ, ih, idByte_xor, crc8Step_xor]
  exact h 8

/-- The CRC over eight bytes is the step of byte 7 after the CRC over the first seven (R207). -/
theorem crcOfIdent_eq (id : Identifier) :
    crcOfIdent id = crc8Step (crc8 ((List.range 7).map fun i => idByte id i)) (idByte id 7) := rfl

end Sys2Proof.Machine
end

