-- ==== Sys2Proof/Laws/ReferenceBus.lean ====
section
/-! SUPPORT. A search pass on the reference bus (20_memory.md R76 to R85): which slaves take part at each position, what
the samples are, and which path the pass takes. -/

namespace Sys2Proof.Machine

/-! ## Identifiers that agree below a position -/

/-- The identifiers have the same bits at positions 0 to `n - 1`: the same node of the identifier tree (R75). -/
def agreesBelow (n : Nat) (a b : Identifier) : Bool := (List.range n).all fun k => idBit a k == idBit b k

theorem agreesBelow_iff {n : Nat} {a b : Identifier} :
    agreesBelow n a b = true ↔ ∀ k < n, idBit a k = idBit b k := by
  simp [agreesBelow]

@[simp] theorem agreesBelow_zero (a b : Identifier) : agreesBelow 0 a b = true := rfl

theorem agreesBelow_succ (n : Nat) (a b : Identifier) :
    agreesBelow (n + 1) a b = (agreesBelow n a b && (idBit a n == idBit b n)) := by
  simp [agreesBelow, List.range_succ]

theorem agreesBelow_congr {n : Nat} {a b c : Identifier} (h : ∀ k < n, idBit b k = idBit c k) :
    agreesBelow n a b = agreesBelow n a c := by
  rw [Bool.eq_iff_iff, agreesBelow_iff, agreesBelow_iff]
  exact ⟨fun h' k hk => (h' k hk).trans (h k hk), fun h' k hk => (h' k hk).trans (h k hk).symm⟩

theorem agreesBelow_setIdBit {n : Nat} (hn : n < 64) (a b : Identifier) (d : Bool) :
    agreesBelow (n + 1) a (setIdBit b n d) = (agreesBelow n a b && (idBit a n == d)) := by
  rw [agreesBelow_succ, idBit_setIdBit _ hn, if_pos rfl]
  congr 1
  exact agreesBelow_congr fun k hk => by rw [idBit_setIdBit _ hn, if_neg (by omega)]

theorem eq_of_agreesBelow {a b : Identifier} (h : agreesBelow 64 a b = true) : a = b :=
  ident_ext (agreesBelow_iff.1 h)

/-! ## The slaves in a search -/

/-- A slave in a search at position `n` with the path `x`: in mode `m` if it still takes part. -/
def searching (m : SlaveMode) (x : Identifier) (n : Nat) (v : Slave) : Slave :=
  { v with mode := if agreesBelow n v.ident x then m else .ignoring }

/-- The bus in a search. -/
def searchBus (slaves : List Slave) (c : Bool) (m : SlaveMode) (x : Identifier) (n : Nat) : Environment :=
  .reference { slaves := slaves.map (searching m x n), collisionsAnd := c }

/-- A slave with bit `b` at position `n` still takes part. -/
def someWith (slaves : List Slave) (x : Identifier) (n : Nat) (b : Bool) : Bool :=
  slaves.any fun v => agreesBelow n v.ident x && (idBit v.ident n == b)

theorem someWith_iff {slaves : List Slave} {x : Identifier} {n : Nat} {b : Bool} :
    someWith slaves x n b = true ↔ ∃ v ∈ slaves, agreesBelow n v.ident x = true ∧ idBit v.ident n = b := by
  simp [someWith]

theorem someWith_congr {slaves : List Slave} {x y : Identifier} {n : Nat} {b : Bool}
    (h : ∀ k < n, idBit x k = idBit y k) : someWith slaves x n b = someWith slaves y n b := by
  simp only [someWith, agreesBelow_congr h]

/-- No slave of a search talks in the sense of a collision. -/
theorem searchBus_talks {m : SlaveMode} (hm : ∀ v : Slave, Slave.talks { v with mode := m } = false)
    (slaves : List Slave) (x : Identifier) (n : Nat) :
    (slaves.map (searching m x n)).countP Slave.talks = 0 := by
  rw [List.countP_eq_zero]
  simp only [List.mem_map]
  rintro _ ⟨v, -, rfl⟩
  simp only [searching]
  split
  · simp [hm v]
  · simp [Slave.talks]

/-- The level of a read slot in which every slave that takes part sends a bit: low exactly if one sends 0. -/
theorem level_searchBus {m : SlaveMode} {f : Slave → Bool}
    (hm : ∀ v : Slave, Slave.talks { v with mode := m } = false)
    (hd : ∀ v : Slave, Slave.drive { v with mode := m } = .sends (f v))
    (slaves : List Slave) (c : Bool) (x : Identifier) (n : Nat) (free : Bool) :
    (searchBus slaves c m x n).level .readSlot free =
      !slaves.any (fun v => agreesBelow n v.ident x && !f v) := by
  have h1 : ReferenceBus.collides { slaves := slaves.map (searching m x n), collisionsAnd := c } = false := by
    simp [ReferenceBus.collides, searchBus_talks hm]
  have h2 : ∀ v : Slave, (searching m x n v).drive =
      if agreesBelow n v.ident x then .sends (f v) else .released := by
    intro v
    simp only [searching]
    split
    · rw [hd v]
    · rfl
  have h3 : (slaves.map (searching m x n)).any (fun v => v.drive == .anything) = false := by
    simp only [List.any_map, List.any_eq_false, Function.comp, h2]
    intro v _
    split <;> simp
  have h4 : (slaves.map (searching m x n)).any (fun v => v.drive == .sends false) =
      slaves.any (fun v => agreesBelow n v.ident x && !f v) := by
    simp only [List.any_map]
    congr 1
    funext v
    simp only [Function.comp, h2]
    cases agreesBelow n v.ident x <;> cases f v <;> rfl
  simp only [searchBus, Environment.level, ReferenceBus.readLevel, h1, h3, h4]
  cases slaves.any (fun v => agreesBelow n v.ident x && !f v) <;> simp

/-- The bus after a read slot of a search. -/
theorem afterSample_searchBus {m m' : SlaveMode}
    (hm : ∀ v : Slave, Slave.afterRead { v with mode := m } = { v with mode := m' })
    (slaves : List Slave) (c : Bool) (x : Identifier) (n : Nat) :
    (searchBus slaves c m x n).afterSample .readSlot = searchBus slaves c m' x n := by
  simp only [searchBus, Environment.afterSample, ReferenceBus.mapSlaves, List.map_map]
  congr 2
  refine List.map_congr_left fun v _ => ?_
  simp only [Function.comp, searching]
  split
  · exact hm v
  · rfl

/-- The mode of a slave that takes part before position `n`. -/
def searchModeAt (n : Nat) : SlaveMode := if n < 64 then .searchTrue n else .unknown

/-- The bus after the write slot of a position: the slaves with the written bit go on. -/
theorem afterWrite_searchBus {n : Nat} (hn : n < 64) (slaves : List Slave) (c : Bool) (x : Identifier)
    (d : Bool) :
    (searchBus slaves c (.searchWrite n) x n).afterWrite d =
      searchBus slaves c (searchModeAt (n + 1)) (setIdBit x n d) (n + 1) := by
  simp only [searchBus, Environment.afterWrite, ReferenceBus.mapSlaves, List.map_map]
  congr 2
  refine List.map_congr_left fun v _ => ?_
  simp only [Function.comp, searching, agreesBelow_setIdBit hn, searchModeAt]
  have hn' : (n < 63) = (n + 1 < 64) := by rw [eq_iff_iff]; omega
  cases agreesBelow n v.ident x
  · simp [Slave.afterWrite]
  · simp only [Slave.afterWrite, Bool.true_and, if_true, hn']
    cases idBit v.ident n <;> cases d <;> simp

/-- After a reset sequence and the byte 0xF0 every slave takes part from position 0 (R80, R84). -/
theorem searchBus_start (bus : ReferenceBus) (x : Identifier) (l : Line) (h : l.env = .reference bus) :
    (sentBits (byteBits 0xF0) (lineAfterReset l)).env =
      searchBus bus.slaves bus.collisionsAnd (searchModeAt 0) x 0 := by
  have hb : byteBits 0xF0 = [false, false, false, false, true, true, true, true] := by decide
  show (byteBits 0xF0).foldl (fun e b => e.afterWrite b) (l.env.afterSample .presence) = _
  rw [h, hb]
  simp only [List.foldl, Environment.afterSample, Environment.afterWrite, ReferenceBus.mapSlaves, List.map_map,
    searchBus]
  congr 2

/-! ## The walk on the reference bus -/

/-- Position `p` shows a discrepancy on the path `x` (R177): slaves with both values take part. -/
def discrepancyOn (slaves : List Slave) (x : Identifier) (p : Nat) : Bool :=
  someWith slaves x p false && someWith slaves x p true

theorem discrepancyOn_congr {slaves : List Slave} {x y : Identifier} {p : Nat}
    (h : ∀ k < p, idBit x k = idBit y k) : discrepancyOn slaves x p = discrepancyOn slaves y p := by
  simp only [discrepancyOn, someWith_congr h]

theorem searchWalk_reference (last : Int) {w : Walk} (hf : w.failed = false)
    (hd : w.newDev = Config.sentinel) (slaves : List Slave) (c : Bool) (hne : slaves ≠ [])
    (henv : w.line.env = searchBus slaves c (searchModeAt 0) w.ident 0) (n : Nat) (hn : n ≤ 64) :
    (searchWalk last n w).failed = false ∧
    (searchWalk last n w).line.env = searchBus slaves c (searchModeAt n) (searchWalk last n w).ident n ∧
    (∃ v ∈ slaves, agreesBelow n v.ident (searchWalk last n w).ident = true) ∧
    (∀ p < n, discrepancyOn slaves (searchWalk last n w).ident p = true →
      idBit (searchWalk last n w).ident p = discrepancyDir last p (idBit w.ident p)) ∧
    ((∀ p < n, discrepancyOn slaves (searchWalk last n w).ident p = true →
        idBit (searchWalk last n w).ident p = true) →
      (searchWalk last n w).newDev = Config.sentinel) ∧
    (∀ p < n, discrepancyOn slaves (searchWalk last n w).ident p = true →
      idBit (searchWalk last n w).ident p = false →
      (∀ q < n, p < q → discrepancyOn slaves (searchWalk last n w).ident q = true →
        idBit (searchWalk last n w).ident q = true) →
      (searchWalk last n w).newDev = BitVec.ofNat 8 p) := by
  induction n with
  | zero =>
    obtain ⟨v, hv⟩ := List.exists_mem_of_ne_nil _ hne
    exact ⟨hf, henv, ⟨v, hv, rfl⟩, fun _ h => absurd h (by omega), fun _ => hd,
      fun _ h => absurd h (by omega)⟩
  | succ n ih =>
    obtain ⟨i1, i2, ⟨v0, hv0, ha0⟩, i4, i5, i6⟩ := ih (by omega)
    have hlt : n < 64 := hn
    have hstored : idBit (searchWalk last n w).ident n = idBit w.ident n :=
      (searchWalk_spec last hf (by rw [hd]; rfl) n (by omega)).1 n (Nat.le_refl n)
    generalize hW : searchWalk last n w = W at *
    have hmode : searchModeAt n = .searchTrue n := by simp [searchModeAt, hlt]
    rw [hmode] at i2
    have e2 : (lineAfterRead W.line).env = searchBus slaves c (.searchCompl n) W.ident n := by
      show W.line.env.afterSample .readSlot = _
      rw [i2]; exact afterSample_searchBus (fun v => rfl) slaves c W.ident n
    have e3 : (lineAfterRead (lineAfterRead W.line)).env = searchBus slaves c (.searchWrite n) W.ident n := by
      show (lineAfterRead W.line).env.afterSample .readSlot = _
      rw [e2]; exact afterSample_searchBus (fun v => rfl) slaves c W.ident n
    have l1 : W.line.level .readSlot = !someWith slaves W.ident n false := by
      rw [Line.level, i2, level_searchBus (fun v => rfl) (f := fun v => idBit v.ident n) (fun v => rfl), someWith]
      congr 2; funext v; cases idBit v.ident n <;> simp
    have l2 : (lineAfterRead W.line).level .readSlot = !someWith slaves W.ident n true := by
      rw [Line.level, e2, level_searchBus (fun v => rfl) (f := fun v => !idBit v.ident n) (fun v => rfl), someWith]
      congr 2; funext v; cases idBit v.ident n <;> simp
    have hsome : someWith slaves W.ident n (idBit v0.ident n) = true := someWith_iff.2 ⟨v0, hv0, ha0, rfl⟩
    have hp : (!someWith slaves W.ident n false, !someWith slaves W.ident n true) ≠ (true, true) := by
      cases hb : idBit v0.ident n <;> rw [hb] at hsome <;> simp [hsome]
    have hstep := searchPosition_resolves last n i1 l1 l2 hp
    have hdir : ∃ d, bitByRule last (idBit W.ident n) n
          (!someWith slaves W.ident n false, !someWith slaves W.ident n true) = d ∧
        someWith slaves W.ident n d = true ∧
        (discrepancyOn slaves W.ident n = true → d = discrepancyDir last n (idBit W.ident n)) := by
      refine ⟨_, rfl, ?_, ?_⟩
      · generalize hb : bitByRule last (idBit W.ident n) n
          (!someWith slaves W.ident n false, !someWith slaves W.ident n true) = b
        cases h0 : someWith slaves W.ident n false <;> cases h1 : someWith slaves W.ident n true <;>
          rw [h0, h1] at hb hp
        · exact absurd rfl hp
        · rw [← hb]; exact h1
        · rw [← hb]; exact h0
        · cases b
          · exact h0
          · exact h1
      · intro hdd
        have := resolvedDir_eq_bitByRule last (idBit W.ident n) n hp
        rw [← this]
        simp only [discrepancyOn, Bool.and_eq_true] at hdd
        simp [resolvedDir, hdd.1, hdd.2]
    obtain ⟨d, hd1, hd2, hd3⟩ := hdir
    simp only [hd1] at hstep
    rw [searchWalk_succ, hW, hstep]
    have hpre : ∀ k < n, idBit (setIdBit W.ident n d) k = idBit W.ident k := fun k hk => by
      rw [idBit_setIdBit _ hlt, if_neg (by omega)]
    have hat : idBit (setIdBit W.ident n d) n = d := by rw [idBit_setIdBit _ hlt, if_pos rfl]
    have hdisc : ∀ p ≤ n, discrepancyOn slaves (setIdBit W.ident n d) p = discrepancyOn slaves W.ident p :=
      fun p hp' => discrepancyOn_congr fun k hk => hpre k (by omega)
    have hpair : ((!someWith slaves W.ident n false) == (!someWith slaves W.ident n true)) =
        discrepancyOn slaves W.ident n := by
      simp only [discrepancyOn]
      cases h0 : someWith slaves W.ident n false <;> cases h1 : someWith slaves W.ident n true <;> simp_all
    obtain ⟨v1, hv1, ha1, hb1⟩ := someWith_iff.1 hd2
    refine ⟨rfl, ?_, ⟨v1, hv1, ?_⟩, ?_, ?_, ?_⟩
    · show (lineAfterRead (lineAfterRead W.line)).env.afterWrite d = _
      rw [e3]; exact afterWrite_searchBus hlt slaves c W.ident d
    · show agreesBelow (n + 1) v1.ident (setIdBit W.ident n d) = true
      rw [agreesBelow_setIdBit hlt, ha1, hb1]; simp
    · intro p hp' hdp
      show idBit (setIdBit W.ident n d) p = _
      have hdp' : discrepancyOn slaves W.ident p = true := by rw [← hdisc p (by omega)]; exact hdp
      by_cases he : p = n
      · subst he; rw [hat, hd3 hdp', hstored]
      · rw [hpre p (by omega)]; exact i4 p (by omega) hdp'
    · intro hall
      show deviationAfter n _ _ d W.newDev = _
      have hW' : W.newDev = Config.sentinel := i5 fun p hp' hdp => by
        have := hall p (by omega) (by rw [← hdisc p (by omega)] at hdp; exact hdp)
        rw [← hpre p hp']; exact this
      rw [deviationAfter, hpair]
      cases hdn : discrepancyOn slaves W.ident n
      · simpa using hW'
      · have : d = true := by
          rw [← hat]; exact hall n (by omega) (by rw [← hdisc n (Nat.le_refl n)] at hdn; exact hdn)
        rw [this]; simpa using hW'
    · intro p hp' hdp hbp hq
      show deviationAfter n _ _ d W.newDev = _
      rw [deviationAfter, hpair]
      have hdp' : discrepancyOn slaves W.ident p = true := by rw [← hdisc p (by omega)]; exact hdp
      by_cases he : p = n
      · subst he
        have : d = false := by rw [← hat]; exact hbp
        rw [hdp', this]; rfl
      · have hnd : W.newDev = BitVec.ofNat 8 p := i6 p (by omega) hdp'
          (by rw [← hpre p (by omega)]; exact hbp) fun q hq1 hq2 hdq => by
            rw [← hpre q hq1]; exact hq q (by omega) hq2 (by rw [← hdisc q (by omega)] at hdq; exact hdq)
        cases hdn : discrepancyOn slaves W.ident n
        · simpa using hnd
        · have : d = true := by
            rw [← hat]; exact hq n (by omega) (by omega) (by rw [← hdisc n (Nat.le_refl n)] at hdn; exact hdn)
          rw [this]; simpa using hnd

end Sys2Proof.Machine
end

