-- ==== Sys2Proof/Laws/Enumeration.lean ====
section
/-! SUPPORT. The order of identifiers and the path a pass takes on the reference bus: from the state a pass leaves, the
next pass finds the next identifier (44_search_engine.md R177, R183). -/

namespace Sys2Proof.Machine

/-! ## The order -/

/-- `a` is found before `b` exactly when `a` has 0 and `b` has 1 at the first position where they differ. -/
theorem foundBefore_iff {a b : Identifier} :
    FoundBefore a b ↔ ∃ p < 64, agreesBelow p a b = true ∧ idBit a p = false ∧ idBit b p = true := by
  have hrev : ∀ (x : Identifier) (k : Nat), k < 64 → x.reverse.toNat.testBit (63 - k) = idBit x k := by
    intro x k hk
    rw [BitVec.testBit_toNat, BitVec.getLsbD_reverse, BitVec.getMsbD_eq_getLsbD]
    have h1 : 63 - k < 64 := by omega
    have h2 : 64 - 1 - (63 - k) = k := by omega
    simp only [h1, h2, decide_true, Bool.true_and, idBit]
  have hhigh : ∀ (x : Identifier) (j : Nat), 64 ≤ j → x.reverse.toNat.testBit j = false := fun x j hj => by
    rw [BitVec.testBit_toNat, BitVec.getLsbD_of_ge _ _ hj]
  have hmp : ∀ {a b : Identifier}, (∃ p < 64, agreesBelow p a b = true ∧ idBit a p = false ∧
      idBit b p = true) → FoundBefore a b := by
    rintro a b ⟨p, hp, h1, h2, h3⟩
    show a.reverse.toNat < b.reverse.toNat
    refine Nat.lt_of_testBit (63 - p) (by rw [hrev _ _ hp, h2]) (by rw [hrev _ _ hp, h3]) fun j hj => ?_
    by_cases hj' : j < 64
    · have := agreesBelow_iff.1 h1 (63 - j) (by omega)
      rw [← hrev a _ (by omega), ← hrev b _ (by omega)] at this
      have hjj : 63 - (63 - j) = j := by omega
      rwa [hjj] at this
    · rw [hhigh _ _ (by omega), hhigh _ _ (by omega)]
  refine ⟨fun h => ?_, hmp⟩
  have hne : a ≠ b := fun he => by subst he; exact Nat.lt_irrefl _ h
  have hex : ∃ p, idBit a p ≠ idBit b p := by
    by_contra hc
    push Not at hc
    exact hne (ident_ext fun k _ => hc k)
  have hspec := Nat.find_spec hex
  have hmin : ∀ k < Nat.find hex, idBit a k = idBit b k := fun k hk => not_not.1 (Nat.find_min hex hk)
  have hlt : Nat.find hex < 64 := by
    by_contra hc
    exact hspec (by rw [idBit, idBit, BitVec.getLsbD_of_ge _ _ (by omega), BitVec.getLsbD_of_ge _ _ (by omega)])
  cases ha : idBit a (Nat.find hex) with
  | false =>
    refine ⟨_, hlt, agreesBelow_iff.2 hmin, ha, ?_⟩
    rw [ha] at hspec
    cases hb : idBit b (Nat.find hex)
    · exact absurd hb.symm hspec
    · rfl
  | true =>
    have hb : idBit b (Nat.find hex) = false := by
      rw [ha] at hspec
      cases hb : idBit b (Nat.find hex)
      · rfl
      · exact absurd hb.symm hspec
    have := hmp ⟨_, hlt, agreesBelow_iff.2 fun k hk => (hmin k hk).symm, hb, ha⟩
    exact absurd (Nat.lt_trans h this) (Nat.lt_irrefl _)

theorem foundBefore_irrefl (a : Identifier) : ¬ FoundBefore a a := Nat.lt_irrefl _

theorem foundBefore_trans {a b c : Identifier} (h1 : FoundBefore a b) (h2 : FoundBefore b c) : FoundBefore a c :=
  Nat.lt_trans h1 h2

/-- Two different identifiers: one is found before the other, and they differ first at some position. -/
theorem foundBefore_total {a b : Identifier} (h : a ≠ b) : FoundBefore a b ∨ FoundBefore b a := by
  rcases Nat.lt_trichotomy a.reverse.toNat b.reverse.toNat with h' | h' | h'
  · exact .inl h'
  · have hr := congrArg BitVec.reverse (BitVec.eq_of_toNat_eq h')
    rw [BitVec.reverse_reverse_eq, BitVec.reverse_reverse_eq] at hr
    exact absurd hr h
  · exact .inr h'

/-! ## The state a pass leaves -/

/-- What a completed pass on the reference bus leaves: an identifier `x` of a slave and, in `nd`, the highest position
where a discrepancy on its path was resolved to 0 (R179). -/
structure PassLeaves (slaves : List Slave) (x : Identifier) (nd : Byte) : Prop where
  present : ∃ v ∈ slaves, v.ident = x
  deviation : (nd = Config.sentinel ∧ ∀ p < 64, discrepancyOn slaves x p = true → idBit x p = true) ∨
    (∃ d < 64, nd = BitVec.ofNat 8 d ∧ discrepancyOn slaves x d = true ∧ idBit x d = false ∧
      ∀ q < 64, d < q → discrepancyOn slaves x q = true → idBit x q = true)

/-- A decidable property of the positions holds nowhere, or at a highest position. -/
theorem none_or_highest (P : Nat → Bool) (n : Nat) :
    (∀ p < n, P p = false) ∨ (∃ d < n, P d = true ∧ ∀ q < n, d < q → P q = false) := by
  induction n with
  | zero => exact .inl fun _ h => absurd h (by omega)
  | succ n ih =>
    cases hP : P n with
    | true => exact .inr ⟨n, by omega, hP, fun q h1 h2 => absurd h1 (by omega)⟩
    | false =>
      rcases ih with h | ⟨d, hd, h1, h2⟩
      · refine .inl fun p hp => ?_
        rcases Nat.lt_succ_iff_lt_or_eq.1 hp with h' | h'
        · exact h p h'
        · rw [h', hP]
      · refine .inr ⟨d, by omega, h1, fun q hq hdq => ?_⟩
        rcases Nat.lt_succ_iff_lt_or_eq.1 hq with h' | h'
        · exact h2 q h' hdq
        · rw [h', hP]

/-- A pass on the reference bus with a slave on it completes; it leaves a path of the tree on which every discrepancy
was resolved by the rules, and the bus with the same slaves (R85, R182). -/
theorem passWalk_reference (s : State) (bus : ReferenceBus) (henv : s.line.env = .reference bus)
    (hne : bus.slaves ≠ []) :
    (passWalk s).failed = false ∧
    PassLeaves bus.slaves (passWalk s).ident (passWalk s).newDev ∧
    (∀ p < 64, discrepancyOn bus.slaves (passWalk s).ident p = true →
      idBit (passWalk s).ident p = discrepancyDir (lastDeviation s) p (idBit s.ident p)) ∧
    (∃ bus', (passWalk s).line.env = .reference bus' ∧
      bus'.slaves.map Slave.ident = bus.slaves.map Slave.ident) := by
  have h := searchWalk_reference (lastDeviation s)
    (w := { ident := s.ident, newDev := Config.sentinel
            line := sentBits (byteBits 0xF0) (lineAfterReset s.line), failed := false })
    rfl rfl bus.slaves bus.collisionsAnd hne (searchBus_start bus s.ident s.line henv) 64 (Nat.le_refl 64)
  have hw : passWalk s = searchWalk (lastDeviation s) 64
    { ident := s.ident, newDev := Config.sentinel
      line := sentBits (byteBits 0xF0) (lineAfterReset s.line), failed := false } := by rw [passWalk]
  rw [← hw] at h
  obtain ⟨h1, h2, ⟨v, hv, hva⟩, h4, h5, h6⟩ := h
  refine ⟨h1, ⟨⟨v, hv, eq_of_agreesBelow hva⟩, ?_⟩, h4, _, h2, ?_⟩
  · rcases none_or_highest (fun p => discrepancyOn bus.slaves (passWalk s).ident p &&
      !idBit (passWalk s).ident p) 64 with h | ⟨d, hd, hd1, hd2⟩
    · have hall : ∀ p < 64, discrepancyOn bus.slaves (passWalk s).ident p = true →
          idBit (passWalk s).ident p = true := fun p hp hdp => by
        have := h p hp; rw [hdp] at this; simpa using this
      exact .inl ⟨h5 hall, hall⟩
    · simp only [Bool.and_eq_true, Bool.not_eq_true'] at hd1
      have hall : ∀ q < 64, d < q → discrepancyOn bus.slaves (passWalk s).ident q = true →
          idBit (passWalk s).ident q = true := fun q hq hdq hdp => by
        have := hd2 q hq hdq; rw [hdp] at this; simpa using this
      exact .inr ⟨d, hd, h6 d hd hd1.1 hd1.2 hall, hd1.1, hd1.2, hall⟩
  · simp only [List.map_map]
    exact List.map_congr_left fun v _ => rfl

/-! ## The next identifier -/

/-- On a path, a slave that has the path's bits below `p` and the other bit at `p` makes a discrepancy there. -/
theorem discrepancyOn_of_differ {slaves : List Slave} {x y : Identifier} {p : Nat}
    (hx : ∃ v ∈ slaves, v.ident = x) (hy : ∃ v ∈ slaves, v.ident = y) (ha : agreesBelow p y x = true)
    (hd : idBit x p ≠ idBit y p) : discrepancyOn slaves x p = true := by
  obtain ⟨u, hu, rfl⟩ := hx
  obtain ⟨v, hv, rfl⟩ := hy
  have hself : agreesBelow p u.ident u.ident = true := agreesBelow_iff.2 fun _ _ => rfl
  rw [discrepancyOn, Bool.and_eq_true]
  cases hx' : idBit u.ident p <;> cases hy' : idBit v.ident p
  · exact absurd (hx'.trans hy'.symm) hd
  · exact ⟨someWith_iff.2 ⟨u, hu, hself, hx'⟩, someWith_iff.2 ⟨v, hv, ha, hy'⟩⟩
  · exact ⟨someWith_iff.2 ⟨v, hv, ha, hy'⟩, someWith_iff.2 ⟨u, hu, hself, hx'⟩⟩
  · exact absurd (hx'.trans hy'.symm) hd

/-- With `last_deviation` = -1 a pass takes the first identifier of all (R177, R183). -/
theorem fresh_pass_takes_first {slaves : List Slave} {x : Identifier} {stored : Nat → Bool}
    (hx : ∃ v ∈ slaves, v.ident = x)
    (hpath : ∀ p < 64, discrepancyOn slaves x p = true → idBit x p = discrepancyDir (-1) p (stored p))
    {y : Identifier} (hy : ∃ v ∈ slaves, v.ident = y) : y = x ∨ FoundBefore x y := by
  by_cases he : y = x
  · exact .inl he
  · refine .inr ?_
    rcases foundBefore_total (Ne.symm he) with h | h
    · exact h
    · obtain ⟨p, hp, h1, h2, h3⟩ := foundBefore_iff.1 h
      have := hpath p hp (discrepancyOn_of_differ hx hy h1 (by rw [h2, h3]; simp))
      rw [h3, discrepancyDir, if_neg (by omega), if_pos (by omega)] at this
      exact absurd this (by simp)

/-- From the state a pass has left at `x` the next pass takes the identifier next after `x` (R177, R183). -/
theorem next_pass_takes_next {slaves : List Slave} {x x' : Identifier} {d : Nat}
    (hx : ∃ v ∈ slaves, v.ident = x) (hx' : ∃ v ∈ slaves, v.ident = x') (hd : d < 64)
    (hdisc : discrepancyOn slaves x d = true) (hbit : idBit x d = false)
    (hmax : ∀ q < 64, d < q → discrepancyOn slaves x q = true → idBit x q = true)
    (hpath : ∀ p < 64, discrepancyOn slaves x' p = true → idBit x' p = discrepancyDir d p (idBit x p)) :
    FoundBefore x x' ∧ ∀ y, (∃ v ∈ slaves, v.ident = y) → FoundBefore x y → y = x' ∨ FoundBefore x' y := by
  have hbelow : ∀ n ≤ d, agreesBelow n x x' = true := by
    intro n
    induction n with
    | zero => exact fun _ => rfl
    | succ n ih =>
      intro hn
      have hi := ih (by omega)
      rw [agreesBelow_succ, hi]
      by_cases he : idBit x n = idBit x' n
      · simp [he]
      · have := hpath n (by omega) (discrepancyOn_of_differ hx' hx hi (Ne.symm he))
        rw [discrepancyDir, if_neg (by omega), if_neg (by omega)] at this
        exact absurd this.symm he
  have hd' : discrepancyOn slaves x' d = true := by
    rw [← discrepancyOn_congr (x := x) fun k hk => agreesBelow_iff.1 (hbelow d (Nat.le_refl d)) k hk]
    exact hdisc
  have hbit' : idBit x' d = true := by
    rw [hpath d hd hd', discrepancyDir, if_pos rfl]
  refine ⟨foundBefore_iff.2 ⟨d, hd, hbelow d (Nat.le_refl d), hbit, hbit'⟩, fun y hy hxy => ?_⟩
  obtain ⟨q, hq, h1, h2, h3⟩ := foundBefore_iff.1 hxy
  have hagree : ∀ k < q, idBit y k = idBit x k := fun k hk => (agreesBelow_iff.1 h1 k hk).symm
  rcases Nat.lt_trichotomy q d with hqd | hqd | hqd
  · refine .inr (foundBefore_iff.2 ⟨q, hq, agreesBelow_iff.2 fun k hk => ?_, ?_, h3⟩)
    · rw [hagree k hk, agreesBelow_iff.1 (hbelow d (Nat.le_refl d)) k (by omega)]
    · rw [← agreesBelow_iff.1 (hbelow d (Nat.le_refl d)) q hqd, h2]
  · subst hqd
    by_cases he : y = x'
    · exact .inl he
    · refine .inr ?_
      rcases foundBefore_total (Ne.symm he) with h | h
      · exact h
      · obtain ⟨r, hr, g1, g2, g3⟩ := foundBefore_iff.1 h
        have hqr : q < r := by
          by_contra hc
          rcases Nat.lt_or_eq_of_le (Nat.not_lt.1 hc) with hrq | hrq
          · rw [hagree r hrq, agreesBelow_iff.1 (hbelow q (Nat.le_refl q)) r hrq, g3] at g2
            exact absurd g2 (by simp)
          · rw [hrq, h3] at g2
            exact absurd g2 (by simp)
        have := hpath r hr (discrepancyOn_of_differ hx' hy g1 (by rw [g2, g3]; simp))
        rw [g3, discrepancyDir, if_neg (by omega), if_pos (by omega)] at this
        exact absurd this (by simp)
  · have := hmax q hq hqd (discrepancyOn_of_differ hx hy
      (agreesBelow_iff.2 hagree) (by rw [h2, h3]; simp))
    rw [h2] at this
    exact absurd this (by simp)

/-- From a pass that has left no deviation point no identifier is left (R179). -/
theorem done_pass_is_last {slaves : List Slave} {x : Identifier} (hx : ∃ v ∈ slaves, v.ident = x)
    (hall : ∀ p < 64, discrepancyOn slaves x p = true → idBit x p = true) {y : Identifier}
    (hy : ∃ v ∈ slaves, v.ident = y) : ¬ FoundBefore x y := by
  intro h
  obtain ⟨p, hp, h1, h2, h3⟩ := foundBefore_iff.1 h
  have := hall p hp (discrepancyOn_of_differ hx hy
    (agreesBelow_iff.2 fun k hk => (agreesBelow_iff.1 h1 k hk).symm) (by rw [h2, h3]; simp))
  rw [h2] at this
  exact absurd this (by simp)

/-! ## The sorted list of identifiers -/

/-- The least identifier above the one at index `k` stands at index `k + 1`. -/
theorem sorted_next {ids : List Identifier} (hs : ids.Pairwise FoundBefore) {k : Nat} {x x' : Identifier}
    (hx : ids[k]? = some x) (hx' : x' ∈ ids) (h : FoundBefore x x')
    (hmin : ∀ y ∈ ids, FoundBefore x y → y = x' ∨ FoundBefore x' y) : ids[k + 1]? = some x' := by
  have hlt := List.pairwise_iff_getElem.1 hs
  obtain ⟨j, hj, rfl⟩ := List.mem_iff_getElem.1 hx'
  obtain ⟨hk, rfl⟩ := List.getElem?_eq_some_iff.1 hx
  have hkj : k < j := by
    rcases Nat.lt_trichotomy k j with h1 | h1 | h1
    · exact h1
    · subst h1; exact absurd h (foundBefore_irrefl _)
    · exact absurd (foundBefore_trans h (hlt j k hj hk h1)) (foundBefore_irrefl _)
  by_cases he : j = k + 1
  · subst he; exact List.getElem?_eq_getElem hj
  · have h1 := hlt k (k + 1) hk (by omega) (by omega)
    have h2 := hlt (k + 1) j (by omega) hj (by omega)
    rcases hmin _ (List.getElem_mem _) h1 with h3 | h3
    · rw [h3] at h2; exact absurd h2 (foundBefore_irrefl _)
    · exact absurd (foundBefore_trans h2 h3) (foundBefore_irrefl _)

/-- The least identifier stands at index 0. -/
theorem sorted_first {ids : List Identifier} (hs : ids.Pairwise FoundBefore) {x' : Identifier}
    (hx' : x' ∈ ids) (hmin : ∀ y ∈ ids, y = x' ∨ FoundBefore x' y) : ids[0]? = some x' := by
  have hlt := List.pairwise_iff_getElem.1 hs
  obtain ⟨j, hj, rfl⟩ := List.mem_iff_getElem.1 hx'
  by_cases he : j = 0
  · subst he; exact List.getElem?_eq_getElem hj
  · have h2 := hlt 0 j (by omega) hj (by omega)
    rcases hmin _ (List.getElem_mem (by omega : 0 < ids.length)) with h3 | h3
    · rw [h3] at h2; exact absurd h2 (foundBefore_irrefl _)
    · exact absurd (foundBefore_trans h2 h3) (foundBefore_irrefl _)

/-- After the last identifier none is left; before it one is. -/
theorem sorted_last_iff {ids : List Identifier} (hs : ids.Pairwise FoundBefore) {k : Nat} {x : Identifier}
    (hx : ids[k]? = some x) : k + 1 = ids.length ↔ ∀ y ∈ ids, ¬ FoundBefore x y := by
  have hlt := List.pairwise_iff_getElem.1 hs
  obtain ⟨hk, rfl⟩ := List.getElem?_eq_some_iff.1 hx
  constructor
  · intro he y hy h
    obtain ⟨j, hj, rfl⟩ := List.mem_iff_getElem.1 hy
    rcases Nat.lt_or_eq_of_le (by omega : j ≤ k) with h1 | h1
    · exact absurd (foundBefore_trans h (hlt j k hj hk h1)) (foundBefore_irrefl _)
    · subst h1; exact absurd h (foundBefore_irrefl _)
  · intro h
    by_contra hc
    exact h _ (List.getElem_mem (by omega : k + 1 < ids.length)) (hlt k (k + 1) hk (by omega) (by omega))

/-- The search state from which the next pass finds `ids[cnt]`: fresh, or left by the pass that found `ids[cnt - 1]`. -/
def AtEntry (slaves : List Slave) (ids : List Identifier) (cnt : Nat) (s : State) : Prop :=
  (cnt = 0 ∧ s.lastDev = Config.sentinel) ∨
  (∃ k, cnt = k + 1 ∧ ids[k]? = some s.ident ∧ s.lastDev ≠ Config.sentinel ∧ PassLeaves slaves s.ident s.lastDev)

/-! ## A pass of an enumeration -/

theorem lastDeviation_sentinel {s : State} (h : s.lastDev = Config.sentinel) : lastDeviation s = -1 := by
  rw [lastDeviation, h]; rfl

/-- A pass finds the next identifier of the sorted list, and is `DONE` exactly at the last one (R183). -/
theorem pass_finds_next {s : State} {bus : ReferenceBus} {ids : List Identifier} {cnt : Nat}
    (henv : s.line.env = .reference bus) (hne : bus.slaves ≠ [])
    (hids : ∀ y, y ∈ ids ↔ ∃ v ∈ bus.slaves, v.ident = y) (hs : ids.Pairwise FoundBefore)
    (hat : AtEntry bus.slaves ids cnt s) :
    ids[cnt]? = some (passWalk s).ident ∧
      (passResult (passWalk s).newDev = .done ↔ cnt + 1 = ids.length) ∧
      ((passWalk s).newDev ≠ Config.sentinel → PassLeaves bus.slaves (passWalk s).ident (passWalk s).newDev) := by
  obtain ⟨-, hleave, hpath, -⟩ := passWalk_reference s bus henv hne
  generalize passWalk s = w at *
  have hx' := hleave.present
  have hentry : ids[cnt]? = some w.ident := by
    rcases hat with ⟨rfl, hd⟩ | ⟨k, rfl, hk, hd, hp⟩
    · rw [lastDeviation_sentinel hd] at hpath
      exact sorted_first hs ((hids _).2 hx') fun y hy => fresh_pass_takes_first hx' hpath ((hids y).1 hy)
    · rcases hp.deviation with ⟨he, -⟩ | ⟨d, hd64, he, hdisc, hbit, hmax⟩
      · exact absurd he hd
      · have hl : lastDeviation s = d := by
          rw [lastDeviation, he, BitVec.toInt_eq_toNat_cond]; simp; omega
        rw [hl] at hpath
        obtain ⟨h1, h2⟩ := next_pass_takes_next hp.present hx' hd64 hdisc hbit hmax hpath
        exact sorted_next hs hk ((hids _).2 hx') h1 fun y hy => h2 y ((hids y).1 hy)
  refine ⟨hentry, ?_, fun _ => hleave⟩
  rw [sorted_last_iff hs hentry, passResult]
  rcases hleave.deviation with ⟨he, hall⟩ | ⟨d, hd64, he, hdisc, hbit, hmax⟩
  · rw [if_pos he]
    exact ⟨fun _ y hy => done_pass_is_last hx' hall ((hids y).1 hy), fun _ => rfl⟩
  · have hne' : w.newDev ≠ Config.sentinel := by
      rw [he]; intro hc; have := congrArg BitVec.toNat hc; simp [Config.sentinel] at this; omega
    rw [if_neg hne']
    constructor
    · intro h; cases h
    · intro h
      simp only [discrepancyOn, Bool.and_eq_true] at hdisc
      obtain ⟨v, hv, ha, hb⟩ := someWith_iff.1 hdisc.2
      refine absurd (foundBefore_iff.2 ⟨d, hd64, agreesBelow_iff.2 fun k hk => (agreesBelow_iff.1 ha k hk).symm, hbit, hb⟩) (h v.ident ((hids _).2 ⟨v, hv, rfl⟩))

end Sys2Proof.Machine
end

