-- ==== Sys2Proof/Laws/EnumerateBus.lean ====
section
/-! SUPPORT. The loop of `FIND_DEVICES` on the reference bus (44_search_engine.md R183, R187, R189). -/

namespace Sys2Proof.Machine

theorem mem_idents {bus bus' : ReferenceBus}
    (h : bus'.slaves.map Slave.ident = bus.slaves.map Slave.ident) (y : Identifier) :
    (∃ v ∈ bus'.slaves, v.ident = y) ↔ ∃ v ∈ bus.slaves, v.ident = y := by
  simp only [← List.mem_map, h]

/-- What a pass sees of the slaves depends on their identifiers alone. -/
theorem someWith_mem {slaves slaves' : List Slave}
    (h : slaves'.map Slave.ident = slaves.map Slave.ident) (x : Identifier) (n : Nat) (b : Bool) :
    someWith slaves' x n b = someWith slaves x n b := by
  have : ∀ l : List Slave, someWith l x n b =
      (l.map Slave.ident).any fun y => agreesBelow n y x && (idBit y n == b) := by
    intro l; simp [someWith, List.any_map, Function.comp_def]
  rw [this, this, h]

theorem passLeaves_congr {slaves slaves' : List Slave}
    (h : slaves'.map Slave.ident = slaves.map Slave.ident) {x : Identifier} {nd : Byte}
    (hp : PassLeaves slaves x nd) : PassLeaves slaves' x nd := by
  have hd : ∀ p, discrepancyOn slaves' x p = discrepancyOn slaves x p := fun p => by
    rw [discrepancyOn, discrepancyOn, someWith_mem h, someWith_mem h]
  constructor
  · obtain ⟨v, hv, he⟩ := hp.present
    have : x ∈ slaves'.map Slave.ident := h ▸ List.mem_map.2 ⟨v, hv, he⟩
    obtain ⟨u, hu, he⟩ := List.mem_map.1 this
    exact ⟨u, hu, he⟩
  · simp only [hd]; exact hp.deviation

/-- The loop of `FIND_DEVICES` on the reference bus, from a state that is about to find `ids[cnt]` (R183, R187, R189). -/
theorem enumerate_reference {ids : List Identifier} (hs : ids.Pairwise FoundBefore) (left : Nat) :
    ∀ (cnt : Nat) (s : State) (bus : ReferenceBus), cnt + left ≤ 255 → s.line.env = .reference bus →
    bus.slaves ≠ [] → (∀ y, y ∈ ids ↔ ∃ v ∈ bus.slaves, v.ident = y) → AtEntry bus.slaves ids cnt s →
    cnt < ids.length → (left = 0 → s.result = .moreAvailable) → s.fail = false → s.err = .none →
    let t := enumerate left cnt s
    t.fail = false ∧ t.err = .none ∧ t.count.toNat = min ids.length (cnt + left) ∧
    t.result = (if ids.length ≤ cnt + left then .done else .moreAvailable) ∧
    ∀ e, cnt ≤ e → e < t.count.toNat → ∃ id, ids[e]? = some id ∧
      ∀ i < 8, t.buf.read (bufAddress e i) = some (idByte id i) := by
  induction left with
  | zero =>
    intro cnt s bus hb henv hne hids hat hlt hr hf he
    have hc : (BitVec.ofNat 8 cnt).toNat = cnt := by simp; omega
    rw [enumerate_zero]
    refine ⟨hf, he, ?_, ?_, ?_⟩
    · simp only [finish_count, hc]; omega
    · rw [if_neg (by omega)]; exact hr rfl
    · simp only [finish_count, hc]; intros; omega
  | succ left ih =>
    intro cnt s bus hb henv hne hids hat hlt hr hf he
    have hc1 : (BitVec.ofNat 8 (cnt + 1)).toNat = cnt + 1 := by simp; omega
    have hpres : s.line.level .presence = false := by
      rw [Line.level, henv]; simpa [Environment.level, ReferenceBus.presenceLevel] using hne
    obtain ⟨hw, -, -, bus', henv', hmap⟩ := passWalk_reference s bus henv hne
    obtain ⟨hentry, hdone, hleave⟩ := pass_finds_next henv hne hids hs hat
    rw [enumerate_completes left cnt hpres hw]
    generalize passWalk s = w at *
    have hbuf : ∀ i < 8, (stored cnt w s).buf.read (bufAddress cnt i) = some (idByte w.ident i) := by
      intro i hi
      rw [stored, read_storeIdent, if_pos (by simp only [bufAddress]; omega)]
      congr 2; simp only [bufAddress]; omega
    split
    · rename_i hd
      have hl := hdone.1 hd
      refine ⟨hf, he, ?_, ?_, ?_⟩
      · simp only [finish_count, hc1]; omega
      · rw [if_pos (by omega)]; exact hd
      · simp only [finish_count, hc1]
        intro e h1 h2
        have : e = cnt := by omega
        subst this
        exact ⟨_, hentry, hbuf⟩
    · rename_i hd
      have hm : passResult w.newDev = .moreAvailable := (passResult_cases _).resolve_left hd
      have hnd : w.newDev ≠ Config.sentinel := by
        intro h; rw [passResult, if_pos h] at hm; cases hm
      have hlt' : cnt + 1 < ids.length := by
        have : cnt + 1 ≠ ids.length := fun h => hd (hdone.2 h)
        omega
      have hne' : bus'.slaves ≠ [] := by
        intro h; rw [h] at hmap; exact hne (List.map_eq_nil_iff.1 hmap.symm)
      obtain ⟨i1, i2, i3, i4, i5⟩ := ih (cnt + 1) (stored cnt w s) bus' (by omega) henv' hne'
        (fun y => (hids y).trans (mem_idents hmap y).symm)
        (.inr ⟨cnt, rfl, hentry, hnd, passLeaves_congr hmap (hleave hnd)⟩) hlt' (fun _ => hm) hf he
      refine ⟨i1, i2, by omega, ?_, ?_⟩
      · rw [i4]; congr 1; simp; omega
      · intro e h1 h2
        by_cases hec : e = cnt
        · subst hec
          refine ⟨_, hentry, fun i hi => ?_⟩
          rw [(enumerate_spec left (e + 1) (stored e w s) (by omega) hf he).others _
            (.inl (by simp only [bufAddress]; omega)), hbuf i hi]
        · exact i5 e (by omega) h2

end Sys2Proof.Machine
end

