-- ==== Sys2Proof/Laws/HostPort.lean ====
section
/-! SUPPORT. A clock edge with any host access: what the block does does not depend on the host's read port
(20_memory.md R63, R64, R67, R68). -/

namespace Sys2Proof.Machine

/-- The state with these values of `h_rdata` and of the model's count of reads. -/
def State.withPort (x : Byte) (n : Nat) (s : State) : State := { s with hRdata := x, reads := n }

/-! ## What the sequencer calls neither reads nor writes the port

Where `f` is called on an update of a state, its lemma takes that state as `t`. -/

theorem startSlot_withPort {x : Byte} {n : Nat} {s t : State} (h : t = s.withPort x n) :
    startSlot t = (startSlot s).withPort x n := by
  subst h
  rw [startSlot, show slotOf (s.withPort x n) = slotOf s from rfl, startSlot]
  split <;> rfl

theorem raiseRunning_withPort {x : Byte} {n : Nat} {c : Cause} {s t : State} (h : t = s.withPort x n) :
    raiseRunning c t = (raiseRunning c s).withPort x n := by
  subst h
  simp only [raiseRunning, show (s.withPort x n).seq = s.seq from rfl]
  split <;> rfl

theorem afterBusReset_withPort (x : Byte) (n : Nat) (s : State) :
    afterBusReset (s.withPort x n) = (afterBusReset s).withPort x n := by
  simp only [afterBusReset, show (s.withPort x n).seq = s.seq from rfl]
  split
  · split
    · exact startSlot_withPort rfl
    · rfl
  · split <;> exact raiseRunning_withPort rfl

theorem afterRomByteSent_withPort (x : Byte) (n : Nat) (s : State) :
    afterRomByteSent (s.withPort x n) = (afterRomByteSent s).withPort x n := by
  simp only [afterRomByteSent, show (s.withPort x n).seq = s.seq from rfl]
  (repeat' split) <;> first | exact startSlot_withPort rfl | rfl

theorem afterByteOut_withPort (x : Byte) (n : Nat) (s : State) :
    afterByteOut (s.withPort x n) = (afterByteOut s).withPort x n := by
  simp only [afterByteOut, show (s.withPort x n).seq = s.seq from rfl]
  split <;> first | exact startSlot_withPort rfl | rfl

theorem afterByteIn_withPort {x : Byte} {n : Nat} {v : Byte} {s : State} :
    afterByteIn v (s.withPort x n) = (afterByteIn v s).withPort x n := by
  simp only [afterByteIn, show (s.withPort x n).seq = s.seq from rfl]
  (repeat' split) <;> first | exact startSlot_withPort rfl | rfl

theorem nextBitOut_withPort {x : Byte} {n : Nat} {s : State} {done : State → State}
    (h : done (s.withPort x n) = (done s).withPort x n) :
    nextBitOut done (s.withPort x n) = (nextBitOut done s).withPort x n := by
  simp only [nextBitOut, show (s.withPort x n).seq = s.seq from rfl]
  split <;> first | exact h | exact startSlot_withPort rfl

theorem nextBitIn_withPort (x : Byte) (n : Nat) (s : State) :
    nextBitIn (s.withPort x n) = (nextBitIn s).withPort x n := by
  simp only [nextBitIn, show (s.withPort x n).seq = s.seq from rfl]
  split <;> first | exact afterByteIn_withPort | exact startSlot_withPort rfl

theorem afterPair_withPort {x : Byte} {n : Nat} {s t : State} (h : t = s.withPort x n) :
    afterPair t = (afterPair s).withPort x n := by
  subst h
  simp only [afterPair, show (s.withPort x n).seq = s.seq from rfl]
  split <;> first | exact raiseRunning_withPort rfl | exact startSlot_withPort rfl

theorem afterSearchWrite_withPort (x : Byte) (n : Nat) (s : State) :
    afterSearchWrite (s.withPort x n) = (afterSearchWrite s).withPort x n := by
  simp only [afterSearchWrite, afterPass, show (s.withPort x n).seq = s.seq from rfl,
    show (s.withPort x n).max = s.max from rfl]
  (repeat' split) <;> first | exact startSlot_withPort rfl | rfl

theorem afterSlot_withPort (x : Byte) (n : Nat) (s : State) :
    afterSlot (s.withPort x n) = (afterSlot s).withPort x n := by
  simp only [afterSlot, show (s.withPort x n).seq = s.seq from rfl]
  split
  · rfl
  · exact afterBusReset_withPort x n s
  · rfl
  · rfl
  · exact nextBitOut_withPort (afterRomByteSent_withPort x n s)
  · exact nextBitOut_withPort (afterByteOut_withPort x n s)
  · exact nextBitIn_withPort x n s
  · exact startSlot_withPort rfl
  · exact afterPair_withPort rfl
  · exact afterSearchWrite_withPort x n s

theorem segmentDriven_withPort (x : Byte) (n : Nat) (g : Segment) (s : State) :
    segmentDriven g (s.withPort x n) = (segmentDriven g s).withPort x n := by
  simp only [segmentDriven, show slotOf (s.withPort x n) = slotOf s from rfl,
    show (s.withPort x n).seq = s.seq from rfl]
  split <;> rfl

theorem deliverSlot_withPort (x : Byte) (n : Nat) (c : Slot) (s : State) :
    deliverSlot c (s.withPort x n) = (deliverSlot c s).withPort x n := by cases c <;> rfl

/-- A running command neither reads nor writes the host's read port. -/
theorem tick_withPort (x : Byte) (n : Nat) (s : State) : tick (s.withPort x n) = (tick s).withPort x n := by
  simp only [tick, segmentEnd, show slotOf (s.withPort x n) = slotOf s from rfl,
    show (s.withPort x n).seq = s.seq from rfl]
  (repeat' split) <;>
    first | rfl | rw [segmentDriven_withPort, deliverSlot_withPort, afterSlot_withPort]
          | rw [segmentDriven_withPort]; rfl

/-- A running command does not touch `h_rdata` (R22). -/
theorem tick_hRdata (s : State) : (tick s).hRdata = s.hRdata := by
  have h := tick_withPort s.hRdata s.reads s
  rw [show s.withPort s.hRdata s.reads = s from rfl] at h
  exact (congrArg State.hRdata h).trans rfl

/-- A clock edge while a command runs, whatever the host does: the command goes on, and only the host's read port shows the
access (R63, R64, R67, R68). -/
theorem clockEdge_busy_port {p : Ports} {s : State} (hr : p.rst = false) (hb : s.busy = true) :
    clockEdge p s = (tick s).withPort (readPort p s) (if p.re then s.reads + 1 else s.reads) :=
  (clockEdge_busy hr hb).trans (tick_withPort _ _ s)

/-- A bus command starts without regard to the read port. -/
theorem startBusCommand_withPort {x : Byte} {n : Nat} {i : Instr} {s t : State} (h : t = s.withPort x n) :
    startBusCommand i t = (startBusCommand i s).withPort x n := by
  subst h
  cases i <;> simp only [startBusCommand] <;> (repeat' split) <;> first | exact startSlot_withPort rfl | rfl

theorem checkCrc_withPort {x : Byte} {n : Nat} {s t : State} (h : t = s.withPort x n) :
    checkCrc t = (checkCrc s).withPort x n := by
  subst h
  simp only [checkCrc, show (s.withPort x n).crc = s.crc from rfl]
  split <;> rfl

theorem acceptCommand_withPort (x : Byte) (n : Nat) (i : Instr) (s : State) :
    acceptCommand i (s.withPort x n) = (acceptCommand i s).withPort x n := by
  cases i
  case findDevices =>
    simp only [acceptCommand, show maxLegal (accept (encode .findDevices) (s.withPort x n)) =
      maxLegal (accept (encode .findDevices) s) from rfl]
    split
    · exact startBusCommand_withPort rfl
    · rfl
  case crcId => exact checkCrc_withPort rfl
  case crcCheck => exact checkCrc_withPort rfl
  all_goals simp only [acceptCommand]
  all_goals first | exact startBusCommand_withPort rfl | rfl

/-- A host write is performed without regard to the read port (R64). -/
theorem hostWrite_withPort (x : Byte) (n : Nat) (a : Address) (v : Byte) (s : State) :
    hostWrite a v (s.withPort x n) = (hostWrite a v s).withPort x n := by
  simp only [hostWrite, acceptWord]
  split
  · split
    · exact acceptCommand_withPort x n _ s
    · rfl
  · cases registerAt a <;> rfl

/-- A clock edge with a host write while no command runs: the write is performed, and only the host's read port shows
whether it reads too (R62, R64). -/
theorem clockEdge_write_port {p : Ports} {s : State} (hr : p.rst = false) (hb : s.busy = false) (hw : p.we = true) :
    clockEdge p s =
      (hostWrite p.addr p.wdata s).withPort (readPort p s) (if p.re then s.reads + 1 else s.reads) :=
  (clockEdge_write hr hb hw).trans (hostWrite_withPort _ _ _ _ s)

end Sys2Proof.Machine
end

