-- ==== Sys2Proof/Laws/Sequencer.lean ====
section
/-! SUPPORT. The clock-edge level runs each command to the state the command level gives (R296, log 1). -/

namespace Sys2Proof.Machine

/-! ## Clock edges without host access -/

/-- `n` quiet edges lead from `s` to `t`, a command running before each of them. -/
def Runs (n : Nat) (s t : State) : Prop :=
  quietEdges n s = t ∧ ∀ m < n, (quietEdges m s).busy = true

theorem quietEdges_succ (n : Nat) (s : State) :
    quietEdges (n + 1) s = quietEdges n (clockEdge Ports.quiet s) := rfl

theorem quietEdges_add (n m : Nat) (s : State) : quietEdges (n + m) s = quietEdges m (quietEdges n s) := by
  induction n generalizing s with
  | zero => rw [Nat.zero_add]; rfl
  | succ n ih => rw [Nat.succ_add, quietEdges_succ, ih, quietEdges_succ]

theorem Runs.refl (s : State) : Runs 0 s s := ⟨rfl, fun _ h => absurd h (by omega)⟩

theorem Runs.trans {n m : Nat} {s t u : State} (h1 : Runs n s t) (h2 : Runs m t u) : Runs (n + m) s u := by
  refine ⟨by rw [quietEdges_add, h1.1, h2.1], fun k hk => ?_⟩
  by_cases h : k < n
  · exact h1.2 k h
  · obtain ⟨j, rfl⟩ : ∃ j, k = n + j := ⟨k - n, by omega⟩
    rw [quietEdges_add, h1.1]
    exact h2.2 j (by omega)

/-- A running command: `BUSY` = 1, no host access in the last period. -/
abbrev Going (s : State) : Prop := s.busy = true ∧ s.hRdata = 0x00

theorem clockEdge_quiet {s : State} (h : Going s) : clockEdge Ports.quiet s = tick s := by
  have hl : latchRead Ports.quiet s = s := by
    cases s; obtain ⟨-, h⟩ := h; simp only at h; subst h; rfl
  simp only [clockEdge, hl, h.1]
  simp [Ports.quiet]

/-- The timer counts a segment down; its last edge ends the segment (R258). -/
theorem runs_segment (k : Nat) : ∀ s : State, Going s → s.seq.timer = k + 1 →
    Runs (k + 1) s (segmentEnd { s with seq := { s.seq with timer := 1 } }) := by
  induction k with
  | zero =>
    intro s h ht
    have : { s with seq := { s.seq with timer := 1 } } = s := by rw [← show s.seq.timer = 1 from ht]
    rw [this]
    refine ⟨?_, fun m hm => ?_⟩
    · rw [quietEdges_succ, clockEdge_quiet h, tick, if_pos (by omega)]; rfl
    · obtain rfl : m = 0 := by omega
      exact h.1
  | succ k ih =>
    intro s h ht
    have hstep : clockEdge Ports.quiet s = { s with seq := { s.seq with timer := k + 1 } } := by
      rw [clockEdge_quiet h, tick, if_neg (by omega), ht]; rfl
    have hr := ih { s with seq := { s.seq with timer := k + 1 } } h rfl
    refine ⟨?_, fun m hm => ?_⟩
    · rw [quietEdges_succ, hstep]; exact hr.1
    · cases m with
      | zero => exact h.1
      | succ m => rw [quietEdges_succ, hstep]; exact hr.2 m (by omega)

/-! ## Whole slots -/

/-- The line after a slot. -/
def Slot.line : Slot → Line → Line
  | .busReset, l => lineAfterReset l
  | .write b, l => sentBits [b] l
  | .read, l => lineAfterRead l

/-- The held sample after a slot. -/
def Slot.sample : Slot → Bool → Line → Bool
  | .busReset, _, l => l.level .presence
  | .write _, old, _ => old
  | .read, _, l => l.level .readSlot

/-- The length of a slot, µs (R99). -/
def Slot.us : Slot → Nat
  | .busReset => 960
  | .write _ => 70
  | .read => 70

/-- The last segment of a slot. -/
def Slot.last : Slot → Fin 3
  | .busReset => 2
  | .write _ => 1
  | .read => 2

/-- The state at the end of the slot that `s` starts. -/
def slotEnd (s : State) : State :=
  { s with
    drv := false
    line := (slotOf s).line s.line
    seq := { s.seq with seg := (slotOf s).last, timer := 1, smp := (slotOf s).sample s.seq.smp s.line } }

theorem runs_segment' {s : State} {n : Nat} (h : Going s) (hn : 1 ≤ n) (ht : s.seq.timer = n) :
    Runs n s (segmentEnd { s with seq := { s.seq with timer := 1 } }) := by
  obtain ⟨k, rfl⟩ : ∃ k, n = k + 1 := ⟨n - 1, by omega⟩
  exact runs_segment k s h ht

theorem runs_slot {s : State} (h : Going s) (hp : 1 ≤ s.params.ticksPerUs) :
    Runs (s.params.ticksPerUs * (slotOf s).us) (startSlot s) (afterSlot (slotEnd s)) := by
  have hpos : ∀ n, 1 ≤ n → 1 ≤ n * s.params.ticksPerUs := fun n hn => Nat.mul_pos hn hp
  generalize hslot : slotOf s = slot
  -- two and three segments
  cases slot with
  | write b =>
    obtain ⟨n, m, hseg, hlow, hn, hm, hnm⟩ : ∃ n m, (Slot.write b).segments = [.low n, .released m] ∧
        sentBits [b] s.line = ((driveLow n s.line).record (.released m)).deliver b ∧ 1 ≤ n ∧ 1 ≤ m ∧ n + m = 70 := by
      cases b
      · exact ⟨60, 10, rfl, rfl, by omega, by omega, by omega⟩
      · exact ⟨6, 64, rfl, rfl, by omega, by omega, by omega⟩
    have h0 : startSlot s = startSegment 0 (.low n) s := by simp only [startSlot, hslot, hseg]
    let s1 : State := { s with
      drv := false, line := s.line.record (.low n)
      seq := { s.seq with seg := 1, timer := m * s.params.ticksPerUs } }
    have r1 : Runs (n * s.params.ticksPerUs) (startSlot s) s1 := by
      rw [h0]
      have := runs_segment' (s := startSegment 0 (.low n) s) h (hpos n hn) rfl
      refine cast ?_ this
      congr 1
      have hs : ∀ t : State, slotOf t = .write b → t.seq.seg = 0 → segmentEnd t =
          startSegment 1 (.released m) { t with line := t.line.record (.low n) } := by
        intro t h1 h2; simp only [segmentEnd, h1, hseg, h2, segmentDriven]; rfl
      exact hs _ hslot rfl
    have r2 : Runs (m * s.params.ticksPerUs) s1 (afterSlot (slotEnd s)) := by
      have := runs_segment' (s := s1) h (hpos m hm) rfl
      refine cast ?_ this
      congr 1
      have hs : ∀ t : State, slotOf t = .write b → t.seq.seg = 1 → segmentEnd t =
          afterSlot { t with line := (t.line.record (.released m)).deliver b } := by
        intro t h1 h2
        simp only [segmentEnd, h1, hseg, h2, segmentDriven]; rfl
      rw [slotEnd, hslot, Slot.line, hlow]; exact hs _ hslot rfl
    have := r1.trans r2
    rw [← Nat.add_mul, hnm, Nat.mul_comm] at this
    exact this
  | read =>
    have h0 : startSlot s = startSegment 0 (.low 6) s := by simp only [startSlot, hslot]; rfl
    let s1 : State := { s with
      drv := false, line := s.line.record (.low 6)
      seq := { s.seq with seg := 1, timer := 9 * s.params.ticksPerUs } }
    let s2 : State := { s with
      drv := false, line := ((s.line.record (.low 6)).record (.released 9)).sampled .readSlot
      seq := { s.seq with seg := 2, timer := 55 * s.params.ticksPerUs, smp := s.line.level .readSlot } }
    have r1 : Runs (6 * s.params.ticksPerUs) (startSlot s) s1 := by
      rw [h0]
      refine cast ?_ (runs_segment' (s := startSegment 0 (.low 6) s) h (hpos 6 (by omega)) rfl)
      congr 1
      have hs : ∀ t : State, slotOf t = .read → t.seq.seg = 0 → segmentEnd t =
          startSegment 1 (.released 9) { t with line := t.line.record (.low 6) } := by
        intro t h1 h2; simp only [segmentEnd, h1, h2, segmentDriven]; rfl
      exact hs _ hslot rfl
    have r2 : Runs (9 * s.params.ticksPerUs) s1 s2 := by
      refine cast ?_ (runs_segment' (s := s1) h (hpos 9 (by omega)) rfl)
      congr 1
      have hs : ∀ t : State, slotOf t = .read → t.seq.seg = 1 → segmentEnd t =
          startSegment 2 (.released 55) { t with
            line := (t.line.record (.released 9)).sampled .readSlot
            seq := { t.seq with smp := (t.line.record (.released 9)).level .readSlot } } := by
        intro t h1 h2; simp only [segmentEnd, h1, h2, segmentDriven]; rfl
      exact hs _ hslot rfl
    have r3 : Runs (55 * s.params.ticksPerUs) s2 (afterSlot (slotEnd s)) := by
      refine cast ?_ (runs_segment' (s := s2) h (hpos 55 (by omega)) rfl)
      congr 1
      have hs : ∀ t : State, slotOf t = .read → t.seq.seg = 2 → segmentEnd t =
          afterSlot { t with line := t.line.record (.released 55) } := by
        intro t h1 h2; simp only [segmentEnd, h1, h2, segmentDriven]; rfl
      rw [slotEnd, hslot]; exact hs _ hslot rfl
    have := (r1.trans r2).trans r3
    rw [← Nat.add_mul, ← Nat.add_mul, Nat.mul_comm] at this
    exact this
  | busReset =>
    have h0 : startSlot s = startSegment 0 (.low 480) s := by simp only [startSlot, hslot]; rfl
    let s1 : State := { s with
      drv := false, line := s.line.record (.low 480)
      seq := { s.seq with seg := 1, timer := 70 * s.params.ticksPerUs } }
    let s2 : State := { s with
      drv := false, line := ((s.line.record (.low 480)).record (.released 70)).sampled .presence
      seq := { s.seq with seg := 2, timer := 410 * s.params.ticksPerUs, smp := s.line.level .presence } }
    have r1 : Runs (480 * s.params.ticksPerUs) (startSlot s) s1 := by
      rw [h0]
      refine cast ?_ (runs_segment' (s := startSegment 0 (.low 480) s) h (hpos 480 (by omega)) rfl)
      congr 1
      have hs : ∀ t : State, slotOf t = .busReset → t.seq.seg = 0 → segmentEnd t =
          startSegment 1 (.released 70) { t with line := t.line.record (.low 480) } := by
        intro t h1 h2; simp only [segmentEnd, h1, h2, segmentDriven]; rfl
      exact hs _ hslot rfl
    have r2 : Runs (70 * s.params.ticksPerUs) s1 s2 := by
      refine cast ?_ (runs_segment' (s := s1) h (hpos 70 (by omega)) rfl)
      congr 1
      have hs : ∀ t : State, slotOf t = .busReset → t.seq.seg = 1 → segmentEnd t =
          startSegment 2 (.released 410) { t with
            line := (t.line.record (.released 70)).sampled .presence
            seq := { t.seq with smp := (t.line.record (.released 70)).level .presence } } := by
        intro t h1 h2; simp only [segmentEnd, h1, h2, segmentDriven]; rfl
      exact hs _ hslot rfl
    have r3 : Runs (410 * s.params.ticksPerUs) s2 (afterSlot (slotEnd s)) := by
      refine cast ?_ (runs_segment' (s := s2) h (hpos 410 (by omega)) rfl)
      congr 1
      have hs : ∀ t : State, slotOf t = .busReset → t.seq.seg = 2 → segmentEnd t =
          afterSlot { t with line := t.line.record (.released 410) } := by
        intro t h1 h2; simp only [segmentEnd, h1, h2, segmentDriven]; rfl
      rw [slotEnd, hslot]; exact hs _ hslot rfl
    have := (r1.trans r2).trans r3
    rw [← Nat.add_mul, ← Nat.add_mul, Nat.mul_comm] at this
    exact this


/-! ## States of a running command -/

/-- The state `c` while a command runs with the sequencer at `q`. -/
def during (c : State) (q : Sequencer) : State := { c with busy := true, drv := false, seq := q }

/-- The length of a slot's low segment, µs. -/
def Slot.low : Slot → Nat
  | .busReset => 480
  | .write true => 6
  | .write false => 60
  | .read => 6

theorem startSlot_eq (s : State) : startSlot s =
    { s with drv := true, seq := { s.seq with seg := 0, timer := (slotOf s).low * s.params.ticksPerUs } } := by
  rw [startSlot]
  cases h : slotOf s with
  | busReset => rfl
  | write b => cases b <;> rfl
  | read => rfl

/-- A slot starts the same whatever segment the registers were in. -/
theorem startSlot_congr (c : State) (q : Sequencer) (a : Fin 3) (n : Nat) :
    startSlot (during c { q with seg := a, timer := n }) = startSlot (during c q) := by
  rw [startSlot_eq, startSlot_eq]; rfl

theorem finish_during (c : State) (q : Sequencer) : finish (during c q) = finish c := rfl

theorem nextBitOut_next (done : State → State) {s : State} (h : s.seq.bitcnt ≠ 7) :
    nextBitOut done s = startSlot { s with seq := { s.seq with bitcnt := s.seq.bitcnt + 1 } } := if_neg h

theorem nextBitOut_last (done : State → State) {s : State} (h : s.seq.bitcnt = 7) :
    nextBitOut done s = done s := if_pos h

theorem nextBitIn_next {s : State} (h : s.seq.bitcnt ≠ 7) :
    nextBitIn s = startSlot { s with seq := { s.seq with
      sh := s.seq.sh ||| (zextBit s.seq.smp <<< s.seq.bitcnt.toNat), bitcnt := s.seq.bitcnt + 1 } } := if_neg h

theorem nextBitIn_last {s : State} (h : s.seq.bitcnt = 7) :
    nextBitIn s = afterByteIn (s.seq.sh ||| (zextBit s.seq.smp <<< s.seq.bitcnt.toNat)) s := if_pos h

/-- What a write slot of a byte leads to. -/
theorem afterSlot_bitOut {ph : Phase} {done : State → State}
    (hph : (ph = .romByte ∧ done = afterRomByteSent) ∨ (ph = .byteOut ∧ done = afterByteOut))
    {s : State} (h : s.seq.phase = ph) : afterSlot s = nextBitOut done s := by
  rcases hph with ⟨rfl, rfl⟩ | ⟨rfl, rfl⟩ <;> simp only [afterSlot, h]

theorem slotOf_byteOut {ph : Phase} (hph : ph = .romByte ∨ ph = .byteOut) {c : State} {q : Sequencer}
    (h : q.phase = ph) : slotOf (during c q) = .write (q.sh.getLsbD q.bitcnt.toNat) := by
  rcases hph with rfl | rfl <;> simp only [slotOf, during, h]

/-- The eight write slots of a byte (R141). -/
theorem runs_byteOut {ph : Phase} {done : State → State}
    (hph : (ph = .romByte ∧ done = afterRomByteSent) ∨ (ph = .byteOut ∧ done = afterByteOut))
    {c : State} {q : Sequencer} (hh : c.hRdata = 0x00) (hp : 1 ≤ c.params.ticksPerUs)
    (hq : q.phase = ph) (hb : q.bitcnt = 0) :
    Runs (c.params.ticksPerUs * 560) (startSlot (during c q))
      (done (during { c with line := sentBits (byteBits q.sh) c.line }
        { q with bitcnt := 7, seg := 1, timer := 1 })) := by
  have hph' : ph = .romByte ∨ ph = .byteOut := by rcases hph with ⟨h, -⟩ | ⟨h, -⟩ <;> simp [h]
  have hslot : ∀ k ≤ 7, ∀ l,
      Runs (c.params.ticksPerUs * 70)
        (startSlot (during { c with line := l } { q with bitcnt := BitVec.ofNat 3 k }))
        (nextBitOut done (during { c with line := sentBits [q.sh.getLsbD k] l }
          { q with bitcnt := BitVec.ofNat 3 k, seg := 1, timer := 1 })) := by
    intro k hk l
    have hkn : (BitVec.ofNat 3 k).toNat = k := by simp; omega
    have hr := runs_slot (s := during { c with line := l } { q with bitcnt := BitVec.ofNat 3 k }) ⟨rfl, hh⟩ hp
    have hs : slotOf (during { c with line := l } { q with bitcnt := BitVec.ofNat 3 k }) =
        .write (q.sh.getLsbD k) := by
      have := slotOf_byteOut (c := { c with line := l }) (q := { q with bitcnt := BitVec.ofNat 3 k }) hph' hq
      rw [this]; simp only [hkn]
    rw [slotEnd, hs] at hr
    rw [afterSlot_bitOut hph (by exact hq)] at hr
    exact hr
  have key : ∀ k ≤ 7, Runs (c.params.ticksPerUs * (70 * k)) (startSlot (during c q))
      (startSlot (during { c with line := sentBits ((List.range k).map fun j => q.sh.getLsbD j) c.line }
        { q with bitcnt := BitVec.ofNat 3 k })) := by
    intro k
    induction k with
    | zero =>
      intro _
      have : ({ q with bitcnt := BitVec.ofNat 3 0 } : Sequencer) = q := by cases q; simp only at hb; subst hb; rfl
      rw [this]; exact Runs.refl _
    | succ k ih =>
      intro hk
      have h1 := ih (by omega)
      have h2 := hslot k (by omega) (sentBits ((List.range k).map fun j => q.sh.getLsbD j) c.line)
      rw [sentBits_append] at h2
      have hne : (BitVec.ofNat 3 k) ≠ 7 := by
        intro h; have := congrArg BitVec.toNat h; simp at this; omega
      have hadd : BitVec.ofNat 3 k + 1 = BitVec.ofNat 3 (k + 1) := by rw [BitVec.ofNat_add]; rfl
      rw [nextBitOut_next _ (by exact hne)] at h2
      have h3 := h1.trans h2
      rw [← Nat.mul_add, show 70 * k + 70 = 70 * (k + 1) by omega] at h3
      rw [List.range_succ, List.map_append, List.map_singleton]
      refine cast (congrArg _ ?_) h3
      rw [← startSlot_congr _ _ 1 1, ← hadd]
      rfl
  have h1 := key 7 (by omega)
  have h2 := hslot 7 (by omega) (sentBits ((List.range 7).map fun j => q.sh.getLsbD j) c.line)
  rw [sentBits_append] at h2
  rw [nextBitOut_last _ (by rfl)] at h2
  have h3 := h1.trans h2
  rw [← Nat.mul_add] at h3
  exact h3

/-- One read slot into a byte. -/
def readInto (k : Nat) (p : Byte × Line) : Byte × Line :=
  (p.1 ||| (zextBit (p.2.level .readSlot) <<< k), lineAfterRead p.2)

theorem readByte_forUpTo (l : Line) : readByte l = forUpTo readInto 8 (0x00, l) := rfl

/-- The eight read slots of a byte (R144). -/
theorem runs_byteIn {c : State} {q : Sequencer} (hh : c.hRdata = 0x00) (hp : 1 ≤ c.params.ticksPerUs)
    (hq : q.phase = .byteIn) (hb : q.bitcnt = 0) (hsh : q.sh = 0x00) :
    ∃ q', q'.op = q.op ∧ q'.bytecnt = q.bytecnt ∧
      Runs (c.params.ticksPerUs * 560) (startSlot (during c q))
        (afterByteIn (readByte c.line).1 (during { c with line := (readByte c.line).2 } q')) := by
  have hslot : ∀ k ≤ 7, ∀ (l : Line) (v : Byte) (b : Bool),
      Runs (c.params.ticksPerUs * 70)
        (startSlot (during { c with line := l } { q with bitcnt := BitVec.ofNat 3 k, sh := v, smp := b }))
        (nextBitIn (during { c with line := lineAfterRead l }
          { q with bitcnt := BitVec.ofNat 3 k, sh := v, smp := l.level .readSlot, seg := 2, timer := 1 })) := by
    intro k hk l v b
    have hr := runs_slot (s := during { c with line := l } { q with bitcnt := BitVec.ofNat 3 k, sh := v, smp := b })
      ⟨rfl, hh⟩ hp
    have hs : slotOf (during { c with line := l } { q with bitcnt := BitVec.ofNat 3 k, sh := v, smp := b }) =
        .read := by simp only [slotOf, during, hq]
    rw [slotEnd, hs] at hr
    have ha : ∀ t : State, t.seq.phase = .byteIn → afterSlot t = nextBitIn t := by
      intro t ht; simp only [afterSlot, ht]
    rw [ha _ (by exact hq)] at hr
    exact hr
  have key : ∀ k ≤ 7, ∃ b, Runs (c.params.ticksPerUs * (70 * k)) (startSlot (during c q))
      (startSlot (during { c with line := (forUpTo readInto k (0x00, c.line)).2 }
        { q with bitcnt := BitVec.ofNat 3 k, sh := (forUpTo readInto k (0x00, c.line)).1, smp := b })) := by
    intro k
    induction k with
    | zero =>
      intro _
      refine ⟨q.smp, ?_⟩
      have : ({ q with bitcnt := BitVec.ofNat 3 0, sh := (forUpTo readInto 0 (0x00, c.line)).1, smp := q.smp } : Sequencer) = q := by
        cases q; simp only at hb hsh; subst hb; subst hsh; rfl
      rw [this]; exact Runs.refl _
    | succ k ih =>
      intro hk
      obtain ⟨b, h1⟩ := ih (by omega)
      have h2 := hslot k (by omega) (forUpTo readInto k (0x00, c.line)).2 (forUpTo readInto k (0x00, c.line)).1 b
      have hkn : (BitVec.ofNat 3 k).toNat = k := by simp; omega
      have hne : (BitVec.ofNat 3 k) ≠ 7 := by
        intro h; have := congrArg BitVec.toNat h; simp at this; omega
      have hadd : BitVec.ofNat 3 k + 1 = BitVec.ofNat 3 (k + 1) := by rw [BitVec.ofNat_add]; rfl
      rw [nextBitIn_next (by exact hne)] at h2
      have h3 := h1.trans h2
      rw [← Nat.mul_add, show 70 * k + 70 = 70 * (k + 1) by omega] at h3
      refine ⟨(forUpTo readInto k (0x00, c.line)).2.level .readSlot, ?_⟩
      rw [forUpTo_succ, ← hadd]
      generalize forUpTo readInto k (0x00, c.line) = P at *
      refine cast (congrArg _ ?_) h3
      rw [← startSlot_congr _ _ 2 1]
      simp only [readInto, during, hkn]
  obtain ⟨b, h1⟩ := key 7 (by omega)
  have h2 := hslot 7 (by omega) (forUpTo readInto 7 (0x00, c.line)).2 (forUpTo readInto 7 (0x00, c.line)).1 b
  rw [nextBitIn_last (by rfl)] at h2
  have h3 := h1.trans h2
  rw [← Nat.mul_add] at h3
  rw [readByte_forUpTo, forUpTo_succ]
  generalize forUpTo readInto 7 (0x00, c.line) = P at *
  refine ⟨_, ?_, ?_, h3⟩ <;> rfl


/-! ## One search position -/

/-- One slot from a state given by its parts. -/
theorem runs_slot_during {c : State} {q : Sequencer} (hh : c.hRdata = 0x00) (hp : 1 ≤ c.params.ticksPerUs)
    {slot : Slot} (hs : slotOf (during c q) = slot) :
    Runs (c.params.ticksPerUs * slot.us) (startSlot (during c q))
      (afterSlot (during { c with line := slot.line c.line }
        { q with seg := slot.last, timer := 1, smp := slot.sample q.smp c.line })) := by
  have hr := runs_slot (s := during c q) ⟨rfl, hh⟩ hp
  rw [slotEnd, hs] at hr
  exact hr

/-- What follows a slot of each phase. -/
def afterPhase : Phase → State → State
  | .idle, s => s
  | .busReset, s => afterBusReset s
  | .bitOut, s => finish s
  | .bitIn, s => finish { s with data := zextBit s.seq.smp }
  | .romByte, s => nextBitOut afterRomByteSent s
  | .byteOut, s => nextBitOut afterByteOut s
  | .byteIn, s => nextBitIn s
  | .searchTrue, s => enter .searchCompl { s with seq := { s.seq with idBit := s.seq.smp } }
  | .searchCompl, s => afterPair { s with seq := { s.seq with cmpBit := s.seq.smp } }
  | .searchWrite, s => afterSearchWrite s

theorem afterSlot_of_phase {s : State} {ph : Phase} (h : s.seq.phase = ph) : afterSlot s = afterPhase ph s := by
  subst h; rw [afterSlot]; cases s.seq.phase <;> rfl

/-- The two read slots of a position (R100). -/
theorem runs_pair {c : State} {q : Sequencer} (hh : c.hRdata = 0x00) (hp : 1 ≤ c.params.ticksPerUs)
    (hq : q.phase = .searchTrue) :
    ∃ q', q'.op = q.op ∧ q'.cnt = q.cnt ∧ q'.pos = q.pos ∧ q'.newDev = q.newDev ∧
      q'.idBit = c.line.level .readSlot ∧ q'.cmpBit = (lineAfterRead c.line).level .readSlot ∧
      Runs (c.params.ticksPerUs * 140) (startSlot (during c q))
        (afterPair (during { c with line := lineAfterRead (lineAfterRead c.line) } q')) := by
  have s1 : slotOf (during c q) = .read := by simp only [slotOf, during, hq]
  have r1 := runs_slot_during hh hp s1
  rw [afterSlot_of_phase (ph := .searchTrue) (by exact hq)] at r1
  have r2 := runs_slot_during (c := { c with line := lineAfterRead c.line })
    (q := { q with phase := .searchCompl, seg := 2, timer := 1, smp := c.line.level .readSlot
                   idBit := c.line.level .readSlot }) hh hp (slot := .read) rfl
  rw [afterSlot_of_phase (ph := .searchCompl) rfl] at r2
  have r3 := r1.trans r2
  refine ⟨{ q with phase := .searchCompl, seg := 2, timer := 1, smp := (lineAfterRead c.line).level .readSlot
                   idBit := c.line.level .readSlot, cmpBit := (lineAfterRead c.line).level .readSlot },
    rfl, rfl, rfl, rfl, rfl, rfl, ?_⟩
  rw [show 140 = 70 + 70 from rfl, Nat.mul_add]
  exact r3

/-- A position that ends the pass (R175). -/
theorem afterPair_fails {c : State} {q : Sequencer} (h1 : q.idBit = true) (h2 : q.cmpBit = true) :
    afterPair (during c q) = raiseRunning .protocolError (during { c with result := .failed } q) := by
  have : ((during c q).seq.idBit && (during c q).seq.cmpBit) = true := by simp [during, h1, h2]
  rw [afterPair, if_pos this]; rfl

theorem afterPair_resolves {c : State} {q : Sequencer} (h : (q.idBit && q.cmpBit) = false) {d : Bool}
    (hd : resolvedDir (lastDeviation c) q.pos.toNat (idBit c.ident q.pos.toNat) q.idBit q.cmpBit = d) :
    afterPair (during c q) = startSlot (during { c with ident := setIdBit c.ident q.pos.toNat d }
      { q with phase := .searchWrite, dir := d
               newDev := deviationAfter q.pos.toNat q.idBit q.cmpBit d q.newDev }) := by
  have : ¬ ((during c q).seq.idBit && (during c q).seq.cmpBit) = true := by
    intro h'; rw [show ((during c q).seq.idBit && (during c q).seq.cmpBit) = false from h] at h'; cases h'
  rw [afterPair, if_neg this]
  subst hd
  rfl

/-- One position of a pass (R174). -/
theorem runs_position {c : State} {q : Sequencer} {w : Walk} (hh : c.hRdata = 0x00)
    (hp : 1 ≤ c.params.ticksPerUs) (hq : q.phase = .searchTrue) (hi : w.ident = c.ident)
    (hn : w.newDev = q.newDev) (hl : w.line = c.line) (hf : w.failed = false) {w' : Walk}
    (hw : searchPosition (lastDeviation c) q.pos.toNat w = w') :
    ∃ q', q'.op = q.op ∧ q'.cnt = q.cnt ∧
      ((w'.failed = true ∧ wireTime w'.line.wire = wireTime c.line.wire + 140 ∧ w'.ident = c.ident ∧
        Runs (c.params.ticksPerUs * 140) (startSlot (during c q))
          (raiseRunning .protocolError (during { c with line := w'.line, result := .failed } q'))) ∨
       (w'.failed = false ∧ wireTime w'.line.wire = wireTime c.line.wire + 210 ∧ q'.pos = q.pos ∧
        q'.newDev = w'.newDev ∧
        Runs (c.params.ticksPerUs * 210) (startSlot (during c q))
          (afterSearchWrite (during { c with ident := w'.ident, line := w'.line } q')))) := by
  obtain ⟨q1, a1, a2, a3, a4, a5, a6, r1⟩ := runs_pair hh hp hq
  by_cases hpair : (c.line.level .readSlot, (lineAfterRead c.line).level .readSlot) = (true, true)
  · rw [searchPosition_fails _ _ hf (by rw [hl]; exact congrArg Prod.fst hpair)
      (by rw [hl]; exact congrArg Prod.snd hpair)] at hw
    subst hw
    refine ⟨q1, a1, a2, .inl ⟨rfl, ?_, hi, ?_⟩⟩
    · simp only [hl, wireTime_lineAfterRead]
    · rw [afterPair_fails (a5.trans (congrArg Prod.fst hpair)) (a6.trans (congrArg Prod.snd hpair))] at r1
      rw [hl]; exact r1
  · rw [searchPosition_resolves _ _ hf (by rw [hl]) (by rw [hl]) hpair] at hw
    have hne : (q1.idBit && q1.cmpBit) = false := by
      rw [a5, a6]
      revert hpair
      cases c.line.level .readSlot <;> cases (lineAfterRead c.line).level .readSlot <;> simp
    have hd : resolvedDir (lastDeviation c) q1.pos.toNat (idBit c.ident q1.pos.toNat) q1.idBit q1.cmpBit =
        bitByRule (lastDeviation c) (idBit w.ident q.pos.toNat) q.pos.toNat
          (c.line.level .readSlot, (lineAfterRead c.line).level .readSlot) := by
      rw [a3, a5, a6, hi]; exact resolvedDir_eq_bitByRule _ _ _ hpair
    generalize bitByRule (lastDeviation c) (idBit w.ident q.pos.toNat) q.pos.toNat
          (c.line.level .readSlot, (lineAfterRead c.line).level .readSlot) = d at hw hd
    rw [afterPair_resolves (c := { c with line := lineAfterRead (lineAfterRead c.line) }) hne hd] at r1
    have r2 := runs_slot_during (c := { c with
        line := lineAfterRead (lineAfterRead c.line), ident := setIdBit c.ident q1.pos.toNat d })
      (q := { q1 with phase := .searchWrite, dir := d
                      newDev := deviationAfter q1.pos.toNat q1.idBit q1.cmpBit d q1.newDev })
      hh hp (slot := .write d) rfl
    rw [afterSlot_of_phase (ph := .searchWrite) rfl] at r2
    have r3 := r1.trans r2
    subst hw
    refine ⟨{ q1 with
        phase := .searchWrite, dir := d, newDev := deviationAfter q1.pos.toNat q1.idBit q1.cmpBit d q1.newDev
        seg := 1, timer := 1 }, a1, a2, .inr ⟨rfl, ?_, a3, ?_, ?_⟩⟩
    · simp only [hl, wireTime_sentBits, wireTime_lineAfterRead, List.length_singleton]
    · simp only [a3, a4, a5, a6, hn]
    · rw [hi, hl, ← a3, show 210 = 140 + 70 from rfl, Nat.mul_add]
      exact r3


/-! ## One search pass -/

theorem afterSearchWrite_next {c : State} {q : Sequencer} (h : q.pos ≠ 63) :
    afterSearchWrite (during c q) = startSlot (during c { q with phase := .searchTrue, pos := q.pos + 1 }) := by
  rw [afterSearchWrite, if_neg (by exact h)]; rfl

theorem afterSearchWrite_last {c : State} {q : Sequencer} (h : q.pos = 63) :
    afterSearchWrite (during c q) = afterPass (during c q) := by
  rw [afterSearchWrite, if_pos (by exact h)]

/-- The first `n` positions of a pass (R174), up to the last one. -/
theorem runs_walk {c : State} {q : Sequencer} {w : Walk} (hh : c.hRdata = 0x00)
    (hp : 1 ≤ c.params.ticksPerUs) (hq : q.phase = .searchTrue) (hpos : q.pos = 0) (hi : w.ident = c.ident)
    (hn : w.newDev = q.newDev) (hl : w.line = c.line) (hf : w.failed = false) (n : Nat) (h63 : n ≤ 63) :
    ∃ q' k, q'.op = q.op ∧ q'.cnt = q.cnt ∧
      k + c.params.ticksPerUs * wireTime c.line.wire =
        c.params.ticksPerUs * wireTime (searchWalk (lastDeviation c) n w).line.wire ∧
      (((searchWalk (lastDeviation c) n w).failed = true ∧
        Runs k (startSlot (during c q)) (raiseRunning .protocolError (during
          { c with ident := (searchWalk (lastDeviation c) n w).ident
                   line := (searchWalk (lastDeviation c) n w).line, result := .failed } q'))) ∨
       ((searchWalk (lastDeviation c) n w).failed = false ∧ q'.phase = .searchTrue ∧ q'.pos.toNat = n ∧
        q'.newDev = (searchWalk (lastDeviation c) n w).newDev ∧
        Runs k (startSlot (during c q)) (startSlot (during
          { c with ident := (searchWalk (lastDeviation c) n w).ident
                   line := (searchWalk (lastDeviation c) n w).line } q')))) := by
  induction n with
  | zero =>
    refine ⟨q, 0, rfl, rfl, ?_, .inr ⟨hf, hq, by rw [hpos]; rfl, hn.symm, ?_⟩⟩
    · show 0 + _ = _ * wireTime w.line.wire
      rw [hl, Nat.zero_add]
    · show Runs 0 _ (startSlot (during { c with ident := w.ident, line := w.line } q))
      rw [hi, hl]; exact Runs.refl _
  | succ n ih =>
    obtain ⟨q1, k, a1, a2, a3, h⟩ := ih (by omega)
    rw [searchWalk_succ]
    generalize searchWalk (lastDeviation c) n w = W at *
    rcases h with ⟨hW, hr⟩ | ⟨hW, b1, b2, b3, hr⟩
    · rw [searchPosition_of_failed _ _ hW]
      exact ⟨q1, k, a1, a2, a3, .inl ⟨hW, hr⟩⟩
    · obtain ⟨q2, c1, c2, h⟩ := runs_position (c := { c with ident := W.ident, line := W.line }) (q := q1) (w := W)
        hh hp b1 rfl b3.symm rfl hW rfl
      rw [show lastDeviation { c with ident := W.ident, line := W.line } = lastDeviation c from rfl, b2] at h
      generalize searchPosition (lastDeviation c) n W = W' at *
      have hmul : ∀ a b : Nat, c.params.ticksPerUs * (a + b) = c.params.ticksPerUs * a + c.params.ticksPerUs * b :=
        fun a b => Nat.mul_add _ _ _
      rcases h with ⟨hf', ht, hid, hr'⟩ | ⟨hf', ht, hps, hnd, hr'⟩
      · refine ⟨q2, k + c.params.ticksPerUs * 140, c1.trans a1, c2.trans a2, ?_, .inl ⟨hf', ?_⟩⟩
        · rw [ht, hmul]
          show _ = c.params.ticksPerUs * wireTime W.line.wire + _
          omega
        · rw [show W'.ident = W.ident from hid]; exact hr.trans hr'
      · have hne : q2.pos ≠ 63 := by
          intro h; rw [hps] at h; rw [h] at b2; simp at b2; omega
        rw [afterSearchWrite_next hne] at hr'
        refine ⟨{ q2 with phase := .searchTrue, pos := q2.pos + 1 }, k + c.params.ticksPerUs * 210,
          c1.trans a1, c2.trans a2, ?_, .inr ⟨hf', rfl, ?_, hnd, hr.trans hr'⟩⟩
        · rw [ht, hmul]
          show _ = c.params.ticksPerUs * wireTime W.line.wire + _
          omega
        · show (q2.pos + 1).toNat = n + 1
          rw [hps, BitVec.toNat_add, b2]
          show (n + 1) % 64 = n + 1
          omega

theorem romByteOf_search {op : BitVec 4} (h : op = 0x9 ∨ op = 0xA) : romByteOf op = some Config.romSearch := by
  rcases h with rfl | rfl <;> decide

theorem isSearch_of {op : BitVec 4} (h : op = 0x9 ∨ op = 0xA) : isSearch op = true := by
  rcases h with rfl | rfl <;> decide

theorem afterRomByteSent_search {c : State} {q : Sequencer} (h : q.op = 0x9 ∨ q.op = 0xA) :
    afterRomByteSent (during c q) =
      startSlot (during c { q with phase := .searchTrue, pos := 0, newDev := Config.sentinel }) := by
  rw [afterRomByteSent, if_neg, if_neg, if_pos]
  · rfl
  · exact isSearch_of h
  · show ¬ q.op = _
    rcases h with h | h <;> rw [h] <;> decide
  · show ¬ q.op = _
    rcases h with h | h <;> rw [h] <;> decide

theorem afterBusReset_absent {c : State} {q : Sequencer} (h : q.smp = true) :
    afterBusReset (during c q) = raiseRunning .busError
      (if isSearch q.op then during { c with present := false, result := .failed } q
       else during { c with present := false } q) := by
  rw [afterBusReset]
  have : (during c q).seq.smp = true := h
  simp only [this, Bool.not_true, Bool.false_eq_true, if_false]
  rfl

theorem afterBusReset_present {c : State} {q : Sequencer} (h : q.smp = false) :
    afterBusReset (during c q) =
      match romByteOf q.op with
      | some v => startSlot (during { c with present := true }
          { q with phase := .romByte, sh := v, bitcnt := 0 })
      | none => finish { c with present := true } := by
  rw [afterBusReset]
  have : (during c q).seq.smp = false := h
  simp only [this, Bool.not_false, if_true]
  show (match romByteOf q.op with
    | some v => enterByte .romByte v _
    | none => finish _) = _
  cases romByteOf q.op <;> rfl

theorem afterBusReset_sends {c : State} {q : Sequencer} {v : Byte} (h : q.smp = false)
    (hv : romByteOf q.op = some v) :
    afterBusReset (during c q) = startSlot (during { c with present := true }
      { q with phase := .romByte, sh := v, bitcnt := 0 }) := by
  rw [afterBusReset_present h, hv]

theorem afterBusReset_ends {c : State} {q : Sequencer} (h : q.smp = false) (hv : romByteOf q.op = none) :
    afterBusReset (during c q) = finish { c with present := true } := by
  rw [afterBusReset_present h, hv]

/-- The ways a pass runs at the clock level, as `searchPass_cases` (R174). -/
theorem runs_pass {c : State} {q : Sequencer} (hh : c.hRdata = 0x00) (hp : 1 ≤ c.params.ticksPerUs)
    (hop : q.op = 0x9 ∨ q.op = 0xA) :
    ∃ q' k, q'.op = q.op ∧ q'.cnt = q.cnt ∧
      ((c.line.level .presence = true ∧ k = c.params.ticksPerUs * 960 ∧
        Runs k (enterPass (during c q)) (raiseRunning .busError (during
          { c with present := false, result := .failed, line := lineAfterReset c.line } q'))) ∨
       (c.line.level .presence = false ∧
        k + c.params.ticksPerUs * wireTime c.line.wire =
          c.params.ticksPerUs * wireTime (passWalk c).line.wire ∧
        (((passWalk c).failed = true ∧
          Runs k (enterPass (during c q)) (raiseRunning .protocolError (during
            { c with present := true, result := .failed, ident := (passWalk c).ident
                     line := (passWalk c).line } q'))) ∨
         ((passWalk c).failed = false ∧ q'.newDev = (passWalk c).newDev ∧
          Runs k (enterPass (during c q)) (afterPass (during
            { c with present := true, ident := (passWalk c).ident, line := (passWalk c).line } q')))))) := by
  have r1 := runs_slot_during (c := c) (q := { q with phase := .busReset, newDev := Config.sentinel }) hh hp
    (slot := .busReset) rfl
  rw [afterSlot_of_phase (ph := .busReset) rfl] at r1
  cases hl : c.line.level .presence with
  | true =>
    rw [afterPhase, afterBusReset_absent (by exact hl)] at r1
    rw [if_pos (by exact isSearch_of hop)] at r1
    exact ⟨_, _, rfl, rfl, .inl ⟨rfl, rfl, r1⟩⟩
  | false =>
    rw [afterPhase, afterBusReset_present (by exact hl)] at r1
    rw [show romByteOf _ = some Config.romSearch from romByteOf_search hop] at r1
    have r2 := runs_byteOut (ph := .romByte) (.inl ⟨rfl, rfl⟩)
      (c := { c with present := true, line := lineAfterReset c.line })
      (q := { q with phase := .romByte, seg := 2, timer := 1, smp := false, sh := Config.romSearch, bitcnt := 0,
                     newDev := Config.sentinel })
      hh hp rfl rfl
    rw [afterRomByteSent_search (by exact hop)] at r2
    have r1' : Runs (c.params.ticksPerUs * 960) (enterPass (during c q)) _ := r1
    rw [show (Slot.sample .busReset q.smp c.line) = false from hl] at r1'
    have r3 := r1'.trans r2
    let w0 : Walk := { ident := c.ident, newDev := Config.sentinel
                       line := sentBits (byteBits 0xF0) (lineAfterReset c.line), failed := false }
    obtain ⟨q2, k, a1, a2, a3, h⟩ := runs_walk
      (c := { c with present := true, line := sentBits (byteBits 0xF0) (lineAfterReset c.line) })
      (q := { q with phase := .searchTrue, seg := 1, timer := 1, smp := false, sh := Config.romSearch, bitcnt := 7,
                     pos := 0, newDev := Config.sentinel })
      (w := w0) hh hp rfl rfl rfl rfl rfl rfl 63 (Nat.le_refl 63)
    have hW : passWalk c = searchPosition (lastDeviation c) 63 (searchWalk (lastDeviation c) 63 w0) := by
      rw [passWalk, ← searchWalk_succ]
    rw [hW]
    rw [show lastDeviation { c with present := true, line := sentBits (byteBits 0xF0) (lineAfterReset c.line) } =
      lastDeviation c from rfl] at a3 h
    have htime : ∀ k' : Nat, k' = c.params.ticksPerUs * 960 + c.params.ticksPerUs * 560 →
        k' + c.params.ticksPerUs * wireTime c.line.wire =
          c.params.ticksPerUs * wireTime (sentBits (byteBits 0xF0) (lineAfterReset c.line)).wire := by
      rintro _ rfl
      have arith : ∀ a x : Nat, a * 960 + a * 560 + a * x = a * (x + 960 + 70 * 8) := fun a x => by
        rw [Nat.mul_add, Nat.mul_add]; omega
      rw [wireTime_sentBits, wireTime_lineAfterReset, length_byteBits]
      exact arith _ _
    have htime' := htime _ rfl
    clear htime hW r1 r1' r2
    generalize searchWalk (lastDeviation c) 63 w0 = W at *
    rcases h with ⟨hf, hr⟩ | ⟨hf, b1, b2, b3, hr⟩
    · rw [searchPosition_of_failed _ _ hf]
      refine ⟨q2, _, a1, a2, .inr ⟨rfl, ?_, .inl ⟨hf, r3.trans hr⟩⟩⟩
      rw [← a3]; dsimp only; linarith
    · obtain ⟨q3, c1, c2, h⟩ := runs_position
        (c := { c with present := true, ident := W.ident, line := W.line }) (q := q2) (w := W)
        hh hp b1 rfl b3.symm rfl hf rfl
      rw [show lastDeviation { c with present := true, ident := W.ident, line := W.line } = lastDeviation c from rfl,
        b2] at h
      have r4 := r3.trans hr
      generalize searchPosition (lastDeviation c) 63 W = W' at *
      rcases h with ⟨hf', ht, hid, hr'⟩ | ⟨hf', ht, hps, hnd, hr'⟩
      · have r5 := r4.trans hr'
        rw [← show W'.ident = W.ident from hid] at r5
        refine ⟨q3, _, c1.trans a1, c2.trans a2, .inr ⟨rfl, ?_, .inl ⟨hf', r5⟩⟩⟩
        rw [ht, Nat.mul_add]; dsimp only at *; linarith
      · have h63 : q3.pos = 63 := by
          rw [hps]; apply BitVec.eq_of_toNat_eq; rw [b2]; rfl
        rw [afterSearchWrite_last h63] at hr'
        refine ⟨q3, _, c1.trans a1, c2.trans a2, .inr ⟨rfl, ?_, .inr ⟨hf', hnd, r4.trans hr'⟩⟩⟩
        rw [ht, Nat.mul_add]; dsimp only at *; linarith


/-! ## The commands -/

theorem raise_during (k : Cause) (c : State) (q : Sequencer) : raise k (during c q) = raise k c := rfl

theorem raiseRunning_of_ne {k : Cause} {c : State} {q : Sequencer} (h : q.op ≠ 0xA) :
    raiseRunning k (during c q) = raise k c := by
  rw [raiseRunning, if_neg (by exact h)]; rfl

theorem raiseRunning_find {k : Cause} {c : State} {q : Sequencer} (h : q.op = 0xA) :
    raiseRunning k (during c q) = raise k { c with count := q.cnt } := by
  rw [raiseRunning, if_pos (by exact h)]; rfl

theorem afterPass_search {c : State} {q : Sequencer} (h : q.op ≠ 0xA) :
    afterPass (during c q) = finish { c with lastDev := q.newDev, result := passResult q.newDev } := by
  rw [afterPass, if_neg (by exact h)]; rfl

theorem afterPass_find_ends {c : State} {q : Sequencer} (h : q.op = 0xA)
    (hc : passResult q.newDev = .done ∨ q.cnt + 1 = c.max) :
    afterPass (during c q) =
      finish { c with lastDev := q.newDev, result := passResult q.newDev
                      buf := storeIdent q.cnt.toNat c.ident c.buf, count := q.cnt + 1 } := by
  rw [afterPass, if_pos (by exact h)]
  exact (if_pos (by simpa using (show passResult (during c q).seq.newDev = .done ∨
    (during c q).seq.cnt + 1 = (during c q).max from hc))).trans rfl

theorem afterPass_find_goes_on {c : State} {q : Sequencer} (h : q.op = 0xA)
    (hc : ¬ (passResult q.newDev = .done ∨ q.cnt + 1 = c.max)) :
    afterPass (during c q) =
      enterPass (during { c with lastDev := q.newDev, result := passResult q.newDev
                                 buf := storeIdent q.cnt.toNat c.ident c.buf }
        { q with cnt := q.cnt + 1 }) := by
  rw [afterPass, if_pos (by exact h)]
  exact (if_neg (by simpa using (show ¬ (passResult (during c q).seq.newDev = .done ∨
    (during c q).seq.cnt + 1 = (during c q).max) from hc))).trans rfl

/-- The clock level from an accepted command: it ends in the state the command level gives, after the time of the
segments driven. -/
def Agrees (i : Instr) (s : State) : Prop :=
  ∃ t n, exec i s = .next t ∧ Runs n (acceptCommand i s) t ∧
    n + s.params.ticksPerUs * wireTime s.line.wire = s.params.ticksPerUs * wireTime t.line.wire

theorem Agrees.intro {i : Instr} {s t u : State} {n : Nat} (he : exec i s = .next t)
    (hr : Runs n (acceptCommand i s) u) (hu : u = t)
    (ht : n + s.params.ticksPerUs * wireTime s.line.wire = s.params.ticksPerUs * wireTime t.line.wire) :
    Agrees i s := by subst hu; exact ⟨_, n, he, hr, ht⟩

/-- The sequencer as a command starts. -/
def startOf (i : Instr) : Sequencer := { Sequencer.idle with op := i.op, rstf := i.rstf }

theorem acceptBus_eq {s : State} (h : Idle s) (i : Instr) :
    ({ accept (encode i) s with busy := true, seq := startOf i } : State) =
      during (accept (encode i) s) (startOf i) := by
  obtain ⟨-, hd, -⟩ := h
  cases s; simp only at hd; subst hd; rfl

theorem agrees_reset {s : State} (h : Idle s) (hh : s.hRdata = 0x00) (hp : 1 ≤ s.params.ticksPerUs) :
    Agrees .reset s := by
  have h0 : acceptCommand .reset s = startSlot (during (accept 0x01 s) { startOf .reset with phase := .busReset }) := by
    show enter .busReset { accept (encode .reset) s with busy := true, seq := startOf .reset } = _
    rw [acceptBus_eq h]; rfl
  have r := runs_slot_during (c := accept 0x01 s) (q := { startOf .reset with phase := .busReset }) hh hp
    (slot := .busReset) rfl
  rw [← h0, afterSlot_of_phase (ph := .busReset) rfl, afterPhase] at r
  have harith : s.params.ticksPerUs * 960 + s.params.ticksPerUs * wireTime s.line.wire =
      s.params.ticksPerUs * wireTime (lineAfterReset s.line).wire := by
    rw [wireTime_lineAfterReset, Nat.mul_add, Nat.add_comm]
  cases hl : s.line.level .presence with
  | true =>
    rw [afterBusReset_absent (by exact hl), if_neg (by exact (by decide : ¬ isSearch 0x1 = true)),
      raiseRunning_of_ne (by exact (by decide : (0x1 : BitVec 4) ≠ 0xA))] at r
    exact .intro (exec_reset_absent hl) r rfl harith
  | false =>
    rw [afterBusReset_present (by exact hl)] at r
    exact .intro (exec_reset_present hl) r rfl harith

theorem arith_slots (a x k : Nat) : a * k + a * x = a * (x + k) := by rw [Nat.mul_add, Nat.add_comm]

theorem agrees_writeBit {s : State} (h : Idle s) (hh : s.hRdata = 0x00) (hp : 1 ≤ s.params.ticksPerUs) :
    Agrees .writeBit s := by
  have h0 : acceptCommand .writeBit s = startSlot (during (accept 0x02 s) { startOf .writeBit with phase := .bitOut }) := by
    show enter .bitOut { accept (encode .writeBit) s with busy := true, seq := startOf .writeBit } = _
    rw [acceptBus_eq h]; rfl
  have r := runs_slot_during (c := accept 0x02 s) (q := { startOf .writeBit with phase := .bitOut }) hh hp
    (slot := .write (bitOperand s)) rfl
  rw [← h0, afterSlot_of_phase (ph := .bitOut) rfl, afterPhase] at r
  have ht : s.params.ticksPerUs * 70 + s.params.ticksPerUs * wireTime s.line.wire =
      s.params.ticksPerUs * wireTime (sentBits [bitOperand s] s.line).wire := by
    rw [wireTime_sentBits]; exact arith_slots _ _ _
  exact .intro (exec_writeBit s) r rfl ht

theorem agrees_readBit {s : State} (h : Idle s) (hh : s.hRdata = 0x00) (hp : 1 ≤ s.params.ticksPerUs) :
    Agrees .readBit s := by
  have h0 : acceptCommand .readBit s = startSlot (during (accept 0x03 s) { startOf .readBit with phase := .bitIn }) := by
    show enter .bitIn { accept (encode .readBit) s with busy := true, seq := startOf .readBit } = _
    rw [acceptBus_eq h]; rfl
  have r := runs_slot_during (c := accept 0x03 s) (q := { startOf .readBit with phase := .bitIn }) hh hp
    (slot := .read) rfl
  rw [← h0, afterSlot_of_phase (ph := .bitIn) rfl, afterPhase] at r
  have ht : s.params.ticksPerUs * 70 + s.params.ticksPerUs * wireTime s.line.wire =
      s.params.ticksPerUs * wireTime (lineAfterRead s.line).wire := by
    rw [wireTime_lineAfterRead]; exact arith_slots _ _ _
  exact .intro (exec_readBit s) r rfl ht

theorem agrees_writeByte {s : State} (h : Idle s) (hh : s.hRdata = 0x00) (hp : 1 ≤ s.params.ticksPerUs) :
    Agrees .writeByte s := by
  have h0 : acceptCommand .writeByte s =
      startSlot (during (accept 0x04 s) { startOf .writeByte with phase := .byteOut, sh := s.data, bitcnt := 0 }) := by
    show enterByte .byteOut s.data { accept (encode .writeByte) s with busy := true, seq := startOf .writeByte } = _
    rw [acceptBus_eq h]; rfl
  have r := runs_byteOut (ph := .byteOut) (.inr ⟨rfl, rfl⟩) (c := accept 0x04 s)
    (q := { startOf .writeByte with phase := .byteOut, sh := s.data, bitcnt := 0 }) hh hp rfl rfl
  rw [← h0] at r
  have ht : s.params.ticksPerUs * 560 + s.params.ticksPerUs * wireTime s.line.wire =
      s.params.ticksPerUs * wireTime (sentBits (byteBits s.data) s.line).wire := by
    rw [wireTime_sentBits, length_byteBits]; exact arith_slots _ _ _
  exact .intro (exec_writeByte s) r rfl ht

theorem agrees_readByte {s : State} (h : Idle s) (hh : s.hRdata = 0x00) (hp : 1 ≤ s.params.ticksPerUs) :
    Agrees .readByte s := by
  have h0 : acceptCommand .readByte s =
      startSlot (during (accept 0x05 s) { startOf .readByte with phase := .byteIn, sh := 0x00, bitcnt := 0 }) := by
    show enterByte .byteIn 0x00 { accept (encode .readByte) s with busy := true, seq := startOf .readByte } = _
    rw [acceptBus_eq h]; rfl
  obtain ⟨q', ho, -, r⟩ := runs_byteIn (c := accept 0x05 s)
    (q := { startOf .readByte with phase := .byteIn, sh := 0x00, bitcnt := 0 }) hh hp rfl rfl rfl
  rw [← h0, afterByteIn, if_neg (by show ¬ q'.op = _; rw [ho]; decide)] at r
  have ht : s.params.ticksPerUs * 560 + s.params.ticksPerUs * wireTime s.line.wire =
      s.params.ticksPerUs * wireTime (lineAfterReads 8 s.line).wire := by
    rw [wireTime_lineAfterReads]; exact arith_slots _ _ _
  refine .intro (exec_readByte s) r ?_ ht
  rw [show (readByte (accept 0x05 s).line) = readByte s.line from rfl, ← (readByte_eq s.line).1]; rfl


/-! ## ROM commands -/

/-- The start of a ROM command at the clock level. -/
def romStart (v : Byte) (i : Instr) (s : State) : State :=
  if i.rstf then startSlot (during (accept (encode i) s) { startOf i with phase := .busReset })
  else startSlot (during (accept (encode i) s) { startOf i with phase := .romByte, sh := v, bitcnt := 0 })

/-- A ROM command whose prologue stops it. -/
theorem agrees_rom_absent {s : State} (hh : s.hRdata = 0x00) (hp : 1 ≤ s.params.ticksPerUs) {v : Byte}
    {i : Instr} (hi : i = .skipRom true ∨ i = .readRom true ∨ i = .matchRom true)
    (h0 : acceptCommand i s = romStart v i s) (hl : s.line.level .presence = true) : Agrees i s := by
  have hr : i.rstf = true := by rcases hi with rfl | rfl | rfl <;> rfl
  have hs : isSearch i.op = false := by rcases hi with rfl | rfl | rfl <;> decide
  have hf : i.op ≠ 0xA := by rcases hi with rfl | rfl | rfl <;> decide
  have r := runs_slot_during (c := accept (encode i) s) (q := { startOf i with phase := .busReset }) hh hp
    (slot := .busReset) rfl
  rw [romStart, if_pos hr] at h0
  rw [← h0, afterSlot_of_phase (ph := .busReset) rfl, afterPhase, afterBusReset_absent (by exact hl),
    if_neg (by show ¬ isSearch i.op = true; rw [hs]; decide), raiseRunning_of_ne (by exact hf)] at r
  have ht : s.params.ticksPerUs * 960 + s.params.ticksPerUs * wireTime s.line.wire =
      s.params.ticksPerUs * wireTime (lineAfterReset s.line).wire := by
    rw [wireTime_lineAfterReset]; exact arith_slots _ _ _
  exact .intro (exec_rom_absent hl i hi) r rfl ht

/-- A ROM command up to the end of its ROM command byte. -/
theorem runs_rom {s : State} (hh : s.hRdata = 0x00) (hp : 1 ≤ s.params.ticksPerUs) {v : Byte}
    {i : Instr} (hv : romByteOf i.op = some v) (h : i.rstf = true → s.line.level .presence = false) :
    ∃ q k, q.op = i.op ∧
      Runs k (romStart v i s) (afterRomByteSent (during
        { accept (encode i) s with
          line := sentBits (byteBits v) (lineAfterPrologue i.rstf s.line)
          present := if i.rstf then true else s.present } q)) ∧
      k + s.params.ticksPerUs * wireTime s.line.wire = s.params.ticksPerUs *
        wireTime (sentBits (byteBits v) (lineAfterPrologue i.rstf s.line)).wire := by
  rw [romStart]
  cases hr : i.rstf with
  | false =>
    have r := runs_byteOut (ph := .romByte) (.inl ⟨rfl, rfl⟩) (c := accept (encode i) s)
      (q := { startOf i with phase := .romByte, sh := v, bitcnt := 0 }) hh hp rfl rfl
    refine ⟨{ startOf i with phase := .romByte, sh := v, bitcnt := 7, seg := 1, timer := 1 }, _, rfl, r, ?_⟩
    rw [wireTime_sentBits, length_byteBits]
    exact arith_slots _ _ _
  | true =>
    have r1 := runs_slot_during (c := accept (encode i) s) (q := { startOf i with phase := .busReset }) hh hp
      (slot := .busReset) rfl
    rw [afterSlot_of_phase (ph := .busReset) rfl, afterPhase, 
      afterBusReset_sends (by exact h hr) (by exact hv)] at r1
    have r2 := runs_byteOut (ph := .romByte) (.inl ⟨rfl, rfl⟩)
      (c := { accept (encode i) s with present := true, line := lineAfterReset s.line })
      (q := { startOf i with phase := .romByte, sh := v, bitcnt := 0, seg := 2, timer := 1
                             smp := s.line.level .presence }) hh hp rfl rfl
    have r3 := r1.trans r2
    refine ⟨{ startOf i with phase := .romByte, sh := v, bitcnt := 7, seg := 1, timer := 1
                             smp := s.line.level .presence }, _, rfl, r3, ?_⟩
    have arith : ∀ a x : Nat, a * 960 + a * 560 + a * x = a * (x + 960 + 70 * 8) := fun a x => by
      rw [Nat.mul_add, Nat.mul_add]; omega
    rw [wireTime_sentBits, length_byteBits, lineAfterPrologue, if_pos rfl, wireTime_lineAfterReset]
    exact arith _ _

theorem agrees_skipRom {s : State} (hidle : Idle s) (hh : s.hRdata = 0x00) (hp : 1 ≤ s.params.ticksPerUs)
    (r : Bool) : Agrees (.skipRom r) s := by
  have h0 : acceptCommand (.skipRom r) s = romStart Config.romSkip (.skipRom r) s := by
    cases r
    · show enterByte .romByte Config.romSkip
        { accept (encode (.skipRom false)) s with busy := true, seq := startOf (.skipRom false) } = _
      rw [acceptBus_eq hidle]; rfl
    · show enter .busReset { accept (encode (.skipRom true)) s with busy := true, seq := startOf (.skipRom true) } = _
      rw [acceptBus_eq hidle]; rfl
  rcases rom_prologue_cases r s with h | ⟨rfl, h⟩
  · obtain ⟨q, k, ho, hr, ht⟩ := runs_rom (i := .skipRom r) (v := Config.romSkip) hh hp rfl h
    rw [← h0, afterRomByteSent, 
      if_neg (by show ¬ q.op = _; rw [ho]; exact (by decide : ¬ (0x6 : BitVec 4) = Instr.op (.readRom false))),
      if_neg (by show ¬ q.op = _; rw [ho]; exact (by decide : ¬ (0x6 : BitVec 4) = Instr.op (.matchRom false))),
      if_neg (by show ¬ isSearch q.op = _; rw [ho]; exact (by decide : ¬ isSearch 0x6 = true))] at hr
    exact .intro (exec_skipRom h) hr rfl ht
  · exact agrees_rom_absent hh hp (.inl rfl) h0 h

/-- The eight data bytes of `MATCH_ROM` (R155). -/
theorem runs_matchBytes {c : State} {q : Sequencer} (hh : c.hRdata = 0x00) (hp : 1 ≤ c.params.ticksPerUs)
    (ho : q.op = 0x8) :
    ∃ q', Runs (c.params.ticksPerUs * (560 * 8)) (afterRomByteSent (during c q))
      (finish { c with line := sentBits (identBits c.ident) c.line }) ∧ q' = q := by
  have h0 : afterRomByteSent (during c q) = startSlot (during c
      { q with phase := .byteOut, sh := idByte c.ident 0, bitcnt := 0, bytecnt := 1 }) := by
    rw [afterRomByteSent, if_neg (by show ¬ q.op = _; rw [ho]; decide),
      if_pos (by show q.op = _; rw [ho]; decide)]
    rfl
  have hbyte : ∀ n < 8, ∀ l : Line, Runs (c.params.ticksPerUs * 560)
      (startSlot (during { c with line := l } { q with
        phase := .byteOut, sh := idByte c.ident n, bitcnt := 0, bytecnt := BitVec.ofNat 4 (n + 1) }))
      (afterByteOut (during { c with line := sentBits (byteBits (idByte c.ident n)) l } { q with
        phase := .byteOut, sh := idByte c.ident n, bitcnt := 7, seg := 1, timer := 1
        bytecnt := BitVec.ofNat 4 (n + 1) })) := fun n hn l =>
    runs_byteOut (ph := .byteOut) (.inr ⟨rfl, rfl⟩) (c := { c with line := l }) (q := { q with
        phase := .byteOut, sh := idByte c.ident n, bitcnt := 0, bytecnt := BitVec.ofNat 4 (n + 1) }) hh hp rfl rfl
  have key : ∀ n ≤ 7, Runs (c.params.ticksPerUs * (560 * n)) (afterRomByteSent (during c q))
      (startSlot (during
        { c with line := forUpTo (fun i => writeByte (idByte c.ident i)) n c.line }
        { q with phase := .byteOut, sh := idByte c.ident n, bitcnt := 0, bytecnt := BitVec.ofNat 4 (n + 1) })) := by
    intro n
    induction n with
    | zero => intro _; rw [h0]; exact Runs.refl _
    | succ n ih =>
      intro hn
      have r2 := hbyte n (by omega) (forUpTo (fun i => writeByte (idByte c.ident i)) n c.line)
      have hne : BitVec.ofNat 4 (n + 1) ≠ 8 := by
        intro h; have := congrArg BitVec.toNat h; simp at this; omega
      rw [afterByteOut, if_pos (by
        show (decide (q.op = _) && (BitVec.ofNat 4 (n + 1) != 8)) = true
        rw [ho, bne_iff_ne.2 hne]; decide)] at r2
      have r3 := (ih (by omega)).trans r2
      rw [← Nat.mul_add, show 560 * n + 560 = 560 * (n + 1) by omega] at r3
      refine cast (congrArg _ ?_) r3
      rw [forUpTo_succ, writeByte_eq, ← startSlot_congr _ _ 1 1]
      have hadd : BitVec.ofNat 4 (n + 1) + 1 = BitVec.ofNat 4 (n + 1 + 1) := (BitVec.ofNat_add (n + 1) 1).symm
      have hnat : (BitVec.ofNat 4 (n + 1)).toNat = n + 1 := by simp; omega
      rw [← hadd]
      simp only [enterByte, enter, during, hnat]
  have r2 := hbyte 7 (by omega) (forUpTo (fun i => writeByte (idByte c.ident i)) 7 c.line)
  rw [afterByteOut, if_neg (by
        show ¬ (decide (q.op = _) && (BitVec.ofNat 4 8 != 8)) = true
        rw [ho]; decide)] at r2
  have r3 := (key 7 (by omega)).trans r2
  rw [← Nat.mul_add] at r3
  refine ⟨q, ?_, rfl⟩
  rw [← writeIdent_eq, writeIdent, forUpTo_succ, writeByte_eq]
  exact r3

theorem agrees_matchRom {s : State} (hidle : Idle s) (hh : s.hRdata = 0x00) (hp : 1 ≤ s.params.ticksPerUs)
    (r : Bool) : Agrees (.matchRom r) s := by
  have h0 : acceptCommand (.matchRom r) s = romStart Config.romMatch (.matchRom r) s := by
    cases r
    · show enterByte .romByte Config.romMatch
        { accept (encode (.matchRom false)) s with busy := true, seq := startOf (.matchRom false) } = _
      rw [acceptBus_eq hidle]; rfl
    · show enter .busReset { accept (encode (.matchRom true)) s with busy := true, seq := startOf (.matchRom true) } = _
      rw [acceptBus_eq hidle]; rfl
  rcases rom_prologue_cases r s with h | ⟨rfl, h⟩
  · obtain ⟨q, k, ho, hr, ht⟩ := runs_rom (i := .matchRom r) (v := Config.romMatch) hh hp rfl h
    obtain ⟨-, hr2, -⟩ := runs_matchBytes (c := { accept (encode (.matchRom r)) s with
          line := sentBits (byteBits Config.romMatch) (lineAfterPrologue r s.line)
          present := if r then true else s.present }) (q := q) hh hp ho
    rw [← h0] at hr
    have hr3 := hr.trans hr2
    refine .intro (exec_matchRom h) hr3 ?_ ?_
    · dsimp only [accept_ident]; rw [sentBits_append]; rfl
    · show _ = s.params.ticksPerUs * wireTime (sentBits (byteBits 0x55 ++ identBits s.ident)
        (lineAfterPrologue r s.line)).wire
      rw [← sentBits_append, wireTime_sentBits, length_identBits, Nat.mul_add]
      have ht' : k + s.params.ticksPerUs * wireTime s.line.wire = s.params.ticksPerUs *
        wireTime (sentBits (byteBits 0x55) (lineAfterPrologue r s.line)).wire := ht
      rw [← ht']
      show k + s.params.ticksPerUs * (560 * 8) + _ = _
      omega
  · exact agrees_rom_absent hh hp (.inr (.inr rfl)) h0 h

/-- One byte of `READ_ROM`. -/
def readByteInto (i : Nat) (p : Identifier × Line) : Identifier × Line :=
  (setIdByte p.1 i (readByte p.2).1, (readByte p.2).2)

/-- The eight data bytes of `READ_ROM` (R153). -/
theorem runs_readBytes {c : State} {q : Sequencer} (hh : c.hRdata = 0x00) (hp : 1 ≤ c.params.ticksPerUs)
    (ho : q.op = 0x7) :
    Runs (c.params.ticksPerUs * (560 * 8)) (afterRomByteSent (during c q))
      (finish { c with ident := (readIdent c.ident c.line).1, line := (readIdent c.ident c.line).2 }) := by
  have h0 : afterRomByteSent (during c q) = startSlot (during c
      { q with phase := .byteIn, sh := 0x00, bitcnt := 0, bytecnt := 1 }) := by
    rw [afterRomByteSent, if_pos (by show q.op = _; rw [ho]; decide)]
    rfl
  have hbyte : ∀ n < 8, ∀ (p : Identifier × Line) (q1 : Sequencer), q1.op = 0x7 → q1.phase = .byteIn →
      q1.sh = 0x00 → q1.bitcnt = 0 → q1.bytecnt = BitVec.ofNat 4 (n + 1) →
      ∃ q2 : Sequencer, q2.op = 0x7 ∧ q2.bytecnt = BitVec.ofNat 4 (n + 1) ∧ Runs (c.params.ticksPerUs * 560)
        (startSlot (during { c with ident := p.1, line := p.2 } q1))
        (if BitVec.ofNat 4 (n + 1) ≠ 8 then
          enterByte .byteIn 0x00 (during { c with ident := (readByteInto n p).1, line := (readByteInto n p).2 }
            { q2 with bytecnt := BitVec.ofNat 4 (n + 1) + 1 })
         else finish { c with ident := (readByteInto n p).1, line := (readByteInto n p).2 }) := by
    intro n hn p q1 e1 e2 e3 e4 e5
    obtain ⟨q2, f1, f2, r⟩ := runs_byteIn (c := { c with ident := p.1, line := p.2 }) (q := q1) hh hp e2 e4 e3
    rw [e1] at f1
    rw [e5] at f2
    rw [afterByteIn, if_pos (by show q2.op = _; rw [f1]; decide)] at r
    have hnat : (BitVec.ofNat 4 (n + 1)).toNat - 1 = n := by simp; omega
    refine ⟨q2, f1, f2, cast (congrArg _ ?_) r⟩
    have hb : ∀ x y : State, (if (during { c with ident := p.1, line := (readByte p.2).2 } q2).seq.bytecnt != 8
        then x else y) = if BitVec.ofNat 4 (n + 1) ≠ 8 then x else y := by
      intro x y
      show (if q2.bytecnt != 8 then x else y) = _
      rw [f2]
      by_cases h8 : BitVec.ofNat 4 (n + 1) = 8
      · rw [h8]; rfl
      · rw [if_pos h8, if_pos (bne_iff_ne.2 h8)]
    refine (hb _ _).trans ?_
    have h1 : setIdByte p.1 (q2.bytecnt.toNat - 1) (readByte p.2).1 = (readByteInto n p).1 := by
      rw [f2, hnat]; rfl
    congr 1
    · rw [← h1, ← f2]; rfl
    · rw [← h1]; rfl
  have key : ∀ n ≤ 7, ∃ q1 : Sequencer, q1.op = 0x7 ∧ q1.phase = .byteIn ∧ q1.sh = 0x00 ∧ q1.bitcnt = 0 ∧
      q1.bytecnt = BitVec.ofNat 4 (n + 1) ∧
      Runs (c.params.ticksPerUs * (560 * n)) (afterRomByteSent (during c q))
        (startSlot (during
          { c with ident := (forUpTo readByteInto n (c.ident, c.line)).1
                   line := (forUpTo readByteInto n (c.ident, c.line)).2 } q1)) := by
    intro n
    induction n with
    | zero =>
      intro _
      refine ⟨{ q with phase := .byteIn, sh := 0x00, bitcnt := 0, bytecnt := 1 }, ho, rfl, rfl, rfl, rfl, ?_⟩
      rw [h0]; exact Runs.refl _
    | succ n ih =>
      intro hn
      obtain ⟨q1, e1, e2, e3, e4, e5, r1⟩ := ih (by omega)
      rw [forUpTo_succ]
      generalize forUpTo readByteInto n (c.ident, c.line) = p at *
      obtain ⟨q2, f1, f2, r2⟩ := hbyte n (by omega) p q1 e1 e2 e3 e4 e5
      have hne : BitVec.ofNat 4 (n + 1) ≠ 8 := by
        intro h; have := congrArg BitVec.toNat h; simp at this; omega
      rw [if_pos hne] at r2
      have r3 := r1.trans r2
      rw [← Nat.mul_add, show 560 * n + 560 = 560 * (n + 1) by omega] at r3
      have hadd : BitVec.ofNat 4 (n + 1) + 1 = BitVec.ofNat 4 (n + 1 + 1) := (BitVec.ofNat_add (n + 1) 1).symm
      rw [hadd] at r3
      exact ⟨{ q2 with phase := .byteIn, sh := 0x00, bitcnt := 0, bytecnt := BitVec.ofNat 4 (n + 1 + 1) },
        f1, rfl, rfl, rfl, rfl, r3⟩
  obtain ⟨q1, e1, e2, e3, e4, e5, r1⟩ := key 7 (by omega)
  have hid : readIdent c.ident c.line = readByteInto 7 (forUpTo readByteInto 7 (c.ident, c.line)) := rfl
  rw [hid]
  generalize forUpTo readByteInto 7 (c.ident, c.line) = p at *
  obtain ⟨q2, f1, f2, r2⟩ := hbyte 7 (by omega) p q1 e1 e2 e3 e4 e5
  rw [if_neg (by decide)] at r2
  have r3 := r1.trans r2
  rw [← Nat.mul_add] at r3
  exact r3

theorem agrees_readRom {s : State} (hidle : Idle s) (hh : s.hRdata = 0x00) (hp : 1 ≤ s.params.ticksPerUs)
    (r : Bool) : Agrees (.readRom r) s := by
  have h0 : acceptCommand (.readRom r) s = romStart Config.romRead (.readRom r) s := by
    cases r
    · show enterByte .romByte Config.romRead
        { accept (encode (.readRom false)) s with busy := true, seq := startOf (.readRom false) } = _
      rw [acceptBus_eq hidle]; rfl
    · show enter .busReset { accept (encode (.readRom true)) s with busy := true, seq := startOf (.readRom true) } = _
      rw [acceptBus_eq hidle]; rfl
  rcases rom_prologue_cases r s with h | ⟨rfl, h⟩
  · obtain ⟨q, k, ho, hr, ht⟩ := runs_rom (i := .readRom r) (v := Config.romRead) hh hp rfl h
    have hr2 := runs_readBytes (c := { accept (encode (.readRom r)) s with
          line := sentBits (byteBits Config.romRead) (lineAfterPrologue r s.line)
          present := if r then true else s.present }) (q := q) hh hp ho
    rw [← h0] at hr
    have hr3 := hr.trans hr2
    refine .intro (exec_readRom h) hr3 ?_ ?_
    · dsimp only [accept_ident]
      rw [(readIdent_eq _ _).1]
      rfl
    · show _ = s.params.ticksPerUs * wireTime (lineAfterReads 64 (sentBits (byteBits 0x33)
        (lineAfterPrologue r s.line))).wire
      rw [wireTime_lineAfterReads, Nat.mul_add]
      have ht' : k + s.params.ticksPerUs * wireTime s.line.wire = s.params.ticksPerUs *
        wireTime (sentBits (byteBits 0x33) (lineAfterPrologue r s.line)).wire := ht
      rw [← ht']
      show k + s.params.ticksPerUs * (560 * 8) + _ = _
      omega
  · exact agrees_rom_absent hh hp (.inr (.inl rfl)) h0 h


/-! ## Search commands -/

theorem Agrees.of_runs {i : Instr} {s t : State} {n : Nat} (he : exec i s = .next t)
    (hr : Runs n (acceptCommand i s) t)
    (ht : n + s.params.ticksPerUs * wireTime s.line.wire = s.params.ticksPerUs * wireTime t.line.wire) :
    Agrees i s := ⟨_, n, he, hr, ht⟩

theorem agrees_searchRom {s : State} (hidle : Idle s) (hh : s.hRdata = 0x00) (hp : 1 ≤ s.params.ticksPerUs) :
    Agrees .searchRom s := by
  have h0 : acceptCommand .searchRom s = enterPass (during (accept 0x09 s) (startOf .searchRom)) := by
    show enterPass { accept (encode .searchRom) s with busy := true, seq := startOf .searchRom } = _
    rw [acceptBus_eq hidle]; rfl
  have hop : (startOf .searchRom).op = 0x9 ∨ (startOf .searchRom).op = 0xA := .inl rfl
  obtain ⟨q, k, ho, -, h⟩ := runs_pass (c := accept 0x09 s) hh hp hop
  have hne : q.op ≠ 0xA := by rw [ho]; exact (by decide : (0x9 : BitVec 4) ≠ 0xA)
  rw [passWalk_accept, ← h0] at h
  rcases h with ⟨hl, rfl, hr⟩ | ⟨hl, ht, ⟨hf, hr⟩ | ⟨hf, hn, hr⟩⟩
  · rw [raiseRunning_of_ne hne] at hr
    have ht : s.params.ticksPerUs * 960 + s.params.ticksPerUs * wireTime s.line.wire =
        s.params.ticksPerUs * wireTime (lineAfterReset s.line).wire := by
      rw [wireTime_lineAfterReset]; exact arith_slots _ _ _
    exact .intro (exec_searchRom_absent hl) hr rfl ht
  · have he := exec_searchRom_fails (s := s) hl hf
    rw [raiseRunning_of_ne hne] at hr
    clear h0
    generalize passWalk s = w at he hr ht
    exact Agrees.of_runs he hr ht
  · have he := exec_searchRom_completes (s := s) hl hf
    rw [afterPass_search hne, hn] at hr
    clear h0
    generalize passWalk s = w at he hr ht
    exact Agrees.of_runs he hr ht

/-- The loop of `FIND_DEVICES` at the clock level. -/
theorem runs_enumerate (left : Nat) : ∀ (cnt : Nat) (c : State) (q : Sequencer), c.hRdata = 0x00 →
    1 ≤ c.params.ticksPerUs → q.op = 0xA → q.cnt = BitVec.ofNat 8 cnt → c.max.toNat = cnt + (left + 1) →
    ∃ k, Runs k (enterPass (during c q)) (enumerate (left + 1) cnt c) ∧
      k + c.params.ticksPerUs * wireTime c.line.wire =
        c.params.ticksPerUs * wireTime (enumerate (left + 1) cnt c).line.wire := by
  induction left with
  | zero =>
    intro cnt c q hh hp hop hc hm
    obtain ⟨q', k, ho, hcn, h⟩ := runs_pass hh hp (.inr hop)
    rw [hop] at ho
    rw [hc] at hcn
    rcases h with ⟨hl, rfl, hr⟩ | ⟨hl, ht, ⟨hf, hr⟩ | ⟨hf, hn, hr⟩⟩
    · rw [raiseRunning_find ho, hcn] at hr
      rw [enumerate_absent _ _ hl]
      refine ⟨_, hr, ?_⟩
      show _ = c.params.ticksPerUs * wireTime (lineAfterReset c.line).wire
      rw [wireTime_lineAfterReset]; exact arith_slots _ _ _
    · rw [enumerate_fails _ _ hl hf]
      generalize passWalk c = w at *
      rw [raiseRunning_find ho, hcn] at hr
      exact ⟨_, hr, ht⟩
    · rw [enumerate_completes _ _ hl hf]
      generalize passWalk c = w at *
      have hlast : q'.cnt + 1 = c.max := by
        rw [hcn]; apply BitVec.eq_of_toNat_eq
        rw [BitVec.toNat_add, hm]
        have := c.max.isLt
        simp; omega
      have hcnt : q'.cnt + 1 = BitVec.ofNat 8 (cnt + 1) := by rw [hcn]; exact (BitVec.ofNat_add cnt 1).symm
      have hnat : q'.cnt.toNat = cnt := by rw [hcn]; have := c.max.isLt; simp; omega
      rw [afterPass_find_ends (c := { c with present := true, ident := w.ident, line := w.line }) ho (.inr hlast), hcnt, hnat, hn] at hr
      refine ⟨k, ?_, ?_⟩
      · rw [enumerate_zero]
        split <;> exact hr
      · rw [enumerate_zero]
        split <;> exact ht
  | succ left ih =>
    intro cnt c q hh hp hop hc hm
    obtain ⟨q', k, ho, hcn, h⟩ := runs_pass hh hp (.inr hop)
    rw [hop] at ho
    rw [hc] at hcn
    rcases h with ⟨hl, rfl, hr⟩ | ⟨hl, ht, ⟨hf, hr⟩ | ⟨hf, hn, hr⟩⟩
    · rw [raiseRunning_find ho, hcn] at hr
      rw [enumerate_absent _ _ hl]
      refine ⟨_, hr, ?_⟩
      show _ = c.params.ticksPerUs * wireTime (lineAfterReset c.line).wire
      rw [wireTime_lineAfterReset]; exact arith_slots _ _ _
    · rw [enumerate_fails _ _ hl hf]
      generalize passWalk c = w at *
      rw [raiseRunning_find ho, hcn] at hr
      exact ⟨_, hr, ht⟩
    · rw [enumerate_completes _ _ hl hf]
      generalize passWalk c = w at *
      have hnot : q'.cnt + 1 ≠ c.max := by
        rw [hcn]; intro h
        have := congrArg BitVec.toNat h
        rw [BitVec.toNat_add, hm] at this
        have := c.max.isLt
        simp at *; omega
      have hcnt : q'.cnt + 1 = BitVec.ofNat 8 (cnt + 1) := by rw [hcn]; exact (BitVec.ofNat_add cnt 1).symm
      have hnat : q'.cnt.toNat = cnt := by rw [hcn]; have := c.max.isLt; simp; omega
      split
      · rename_i hd
        rw [afterPass_find_ends (c := { c with present := true, ident := w.ident, line := w.line }) ho (.inl (by rw [hn]; exact hd)), hcnt, hnat, hn] at hr
        exact ⟨k, hr, ht⟩
      · rename_i hd
        rw [afterPass_find_goes_on (c := { c with present := true, ident := w.ident, line := w.line }) ho (by rw [hn]; rintro (h | h); exacts [hd h, hnot h])] at hr
        obtain ⟨k2, hr2, ht2⟩ := ih (cnt + 1) (stored cnt w c) { q' with cnt := BitVec.ofNat 8 (cnt + 1) }
          hh hp ho rfl (by show c.max.toNat = _; omega)
        have hr' : Runs k (enterPass (during c q)) (enterPass (during (stored cnt w c)
            { q' with cnt := BitVec.ofNat 8 (cnt + 1) })) := by
          have e : stored cnt w c = { c with present := true, ident := w.ident, line := w.line, lastDev := q'.newDev
                                             result := passResult q'.newDev
                                             buf := storeIdent q'.cnt.toNat w.ident c.buf } := by
            rw [hn, hnat]; rfl
          rw [e, ← hcnt]; exact hr
        refine ⟨k + k2, hr'.trans hr2, ?_⟩
        have ht2' : k2 + c.params.ticksPerUs * wireTime w.line.wire =
          c.params.ticksPerUs * wireTime (enumerate (left + 1) (cnt + 1) (stored cnt w c)).line.wire := ht2
        rw [← ht2', ← ht]; omega

theorem agrees_findDevices {s : State} (hidle : Idle s) (hh : s.hRdata = 0x00) (hp : 1 ≤ s.params.ticksPerUs) :
    Agrees .findDevices s := by
  by_cases hm : 1 ≤ s.max.toNat ∧ s.max.toNat ≤ s.params.nbuf
  · have hl : maxLegal (accept (encode .findDevices) s) = true := (maxLegal_iff _).2 hm
    have h0 : acceptCommand .findDevices s =
        enterPass (during (searchInit (accept 0x0A s)) (startOf .findDevices)) := by
      show (if maxLegal (accept (encode .findDevices) s) = true then
        enterPass (searchInit { accept (encode .findDevices) s with busy := true, seq := startOf .findDevices })
        else _) = _
      rw [if_pos hl, acceptBus_eq hidle]; rfl
    obtain ⟨n, hn⟩ : ∃ n, s.max.toNat = n + 1 := ⟨s.max.toNat - 1, by omega⟩
    obtain ⟨k, hr, ht⟩ := runs_enumerate n 0 (searchInit (accept 0x0A s)) (startOf .findDevices) hh hp rfl rfl
      (by show s.max.toNat = _; omega)
    rw [← h0, ← hn] at hr
    rw [← hn] at ht
    exact .intro (exec_findDevices_legal hm.1 hm.2) hr rfl ht
  · have hl : ¬ maxLegal (accept (encode .findDevices) s) = true := fun h => hm ((maxLegal_iff _).1 h)
    have h0 : acceptCommand .findDevices s = raise .illegalOperand (accept 0x0A s) := by
      show (if maxLegal (accept (encode .findDevices) s) = true then _ else
        raise .illegalOperand (accept (encode .findDevices) s)) = _
      rw [if_neg hl]; rfl
    exact .intro (exec_findDevices_illegal hm) (by rw [h0]; exact Runs.refl _) rfl (Nat.zero_add _)

end Sys2Proof.Machine
end

