-- ==== Sys2Proof/Laws/Invariant.lean ====
section
/-! SUPPORT. The invariant of the block, operation by operation: what each leaves good. -/

namespace Sys2Proof.Machine

/-! ## What the invariant asks of a state, without the place in the slot -/

/-- The parameters and the buffer. -/
def Base (s : State) : Prop := s.params.wf ∧ Memory.wf s.buf ∧ BufInRange s

/-- `i` runs; nothing is said of its place in the pseudocode. -/
def MidCommand (i : Instr) (s : State) : Prop :=
  Base s ∧ s.busy = true ∧ (s.fail = false ∧ s.err = .none) ∧
    (s.cmd = encode i ∧ s.seq.op = i.op ∧ s.seq.rstf = i.rstf ∧ s.seq.bytecnt.toNat ≤ 8) ∧
    legalDeviation s.seq.newDev = true ∧
    (s.seq.op = Instr.op .findDevices → maxLegal s = true ∧ s.seq.cnt.toNat < s.max.toNat)

theorem Inv.base {s : State} (h : Inv s) : Base s := ⟨h.params, h.bufWf, h.bufRange⟩

theorem Inv.midCommand {s : State} (h : Inv s) (hb : s.busy = true) :
    ∃ i, MidCommand i s ∧ s.seq.phase ∈ phasesOf i ∧ NoDeviationYet s := by
  obtain ⟨i, hc, ho, hr, hp⟩ := (h.running hb).command
  exact ⟨i, ⟨h.base, hb, h.runningClear hb, ⟨hc, ho, hr, (h.running hb).bytes⟩, (h.running hb).newDev,
    (h.running hb).cnt⟩, hp, (h.running hb).passStart⟩

/-! ## The phases of a command -/

theorem ne_idle_of_mem_phases {i : Instr} {ph : Phase} (h : ph ∈ phasesOf i) : ph ≠ .idle := by
  rintro rfl
  revert h
  cases i <;> (try rename_i r; cases r) <;> decide

theorem op_of_mem_phases {i : Instr} {ph : Phase} (h : ph ∈ phasesOf i) : 1 ≤ i.op.toNat ∧ i.op.toNat ≤ 0xA := by
  revert h; cases i <;> simp [phasesOf, Instr.op]

theorem romByte_mem_phases {i : Instr} {v : Byte} (h : romByteOf i.op = some v) : .romByte ∈ phasesOf i := by
  cases i <;> (try rename_i r; cases r) <;> first | decide | simp [romByteOf, Instr.op] at h

theorem byteIn_mem_phases {i : Instr} (h : i.op = Instr.op (.readRom false)) : .byteIn ∈ phasesOf i := by
  cases i <;> (try rename_i r; cases r) <;> first | decide | simp [Instr.op] at h

theorem byteOut_mem_phases {i : Instr} (h : i.op = Instr.op (.matchRom false)) : .byteOut ∈ phasesOf i := by
  cases i <;> (try rename_i r; cases r) <;> first | decide | simp [Instr.op] at h

theorem searchTrue_mem_phases {i : Instr} (h : isSearch i.op = true) : .searchTrue ∈ phasesOf i := by
  cases i <;> first | decide | simp [isSearch, Instr.op] at h

theorem busReset_mem_phases {i : Instr} (h : i.op = Instr.op .findDevices) : .busReset ∈ phasesOf i := by
  cases i <;> first | decide | simp [Instr.op] at h

/-- A command with one search phase has them all. -/
theorem search_phases {i : Instr} {ph : Phase} (h : ph = .searchTrue ∨ ph = .searchCompl ∨ ph = .searchWrite)
    (hm : ph ∈ phasesOf i) : .searchTrue ∈ phasesOf i ∧ .searchCompl ∈ phasesOf i ∧ .searchWrite ∈ phasesOf i := by
  rcases h with rfl | rfl | rfl <;> revert hm <;> cases i <;> (try rename_i r; cases r) <;> decide

theorem inv_idle {s : State} (hb : Base s) (hi : Idle s) (hf : s.fail = true ↔ s.err ≠ .none) : Inv s where
  params := hb.1
  bufWf := hb.2.1
  bufRange := hb.2.2
  idle := fun _ => hi
  failCause := fun _ => hf
  runningClear := fun h => absurd h (by rw [hi.1]; decide)
  running := fun h => absurd h (by rw [hi.1]; decide)

theorem inv_running {i : Instr} {s : State} (h : MidCommand i s) (hr : RunningWell s) : Inv s where
  params := h.1.1
  bufWf := h.1.2.1
  bufRange := h.1.2.2
  idle := fun hb => absurd hb (by rw [h.2.1]; decide)
  failCause := fun hb => absurd hb (by rw [h.2.1]; decide)
  runningClear := fun _ => h.2.2.1
  running := fun _ => hr

theorem inv_finish {s : State} (hb : Base s) (hf : s.fail = false) (he : s.err = .none) : Inv (finish s) :=
  inv_idle hb ⟨rfl, rfl, rfl⟩ (by simp [hf, he])

theorem inv_raise {s : State} (hb : Base s) {c : Cause} (hc : c ≠ .none) : Inv (raise c s) :=
  inv_idle hb ⟨rfl, rfl, rfl⟩ (by simp [hc])

theorem inv_startSegment {i : Instr} {s : State} (h : MidCommand i s) (hp : s.seq.phase ∈ phasesOf i)
    (hn : NoDeviationYet s) (seg : Fin 3) (g : Segment)
    (hs : seg.val < (slotOf s).segments.length) (hg : g.isLow = (seg == 0)) (h1 : 1 ≤ g.us)
    (h2 : g.us ≤ 480) : Inv (startSegment seg g s) := by
  obtain ⟨hc, ho, hr, hy⟩ := h.2.2.2.1
  refine inv_running h ⟨ne_idle_of_mem_phases hp, ?_, ⟨i, hc, ho, hr, hp⟩, hy, hs, hg, ?_, h.2.2.2.2.1, hn,
    h.2.2.2.2.2⟩
  · show 1 ≤ s.seq.op.toNat ∧ s.seq.op.toNat ≤ 0xA
    rw [ho]; exact op_of_mem_phases hp
  have := h.1.1.1
  constructor
  · show 1 ≤ g.us * s.params.ticksPerUs
    exact Nat.mul_pos h1 this
  · exact Nat.mul_le_mul_right _ h2

theorem inv_startSlot {i : Instr} {s : State} (h : MidCommand i s) (hp : s.seq.phase ∈ phasesOf i)
    (hn : NoDeviationYet s) : Inv (startSlot s) := by
  unfold startSlot
  cases hs : slotOf s with
  | busReset => exact inv_startSegment h hp hn 0 _ (by rw [hs]; decide) rfl (by decide) (by decide)
  | read => exact inv_startSegment h hp hn 0 _ (by rw [hs]; decide) rfl (by decide) (by decide)
  | write b => cases b <;> exact inv_startSegment h hp hn 0 _ (by rw [hs]; decide) rfl (by decide) (by decide)

theorem inv_enter {i : Instr} {s : State} (h : MidCommand i s) {ph : Phase} (hp : ph ∈ phasesOf i)
    (hn : ph = .busReset ∨ ph = .romByte → s.seq.newDev = Config.sentinel := by simp) : Inv (enter ph s) :=
  inv_startSlot (s := { s with seq := { s.seq with phase := ph } }) h hp hn

theorem inv_enterByte {i : Instr} {s : State} (h : MidCommand i s) {ph : Phase} (hp : ph ∈ phasesOf i) (v : Byte)
    (hn : ph = .busReset ∨ ph = .romByte → s.seq.newDev = Config.sentinel := by simp) : Inv (enterByte ph v s) :=
  inv_enter (s := { s with seq := { s.seq with sh := v, bitcnt := 0 } }) h hp hn

/-- A pass starts with no deviation recorded, whatever the pass before it left (R47). -/
theorem inv_enterPass {i : Instr} {s : State} (h : MidCommand i s) (hp : .busReset ∈ phasesOf i) :
    Inv (enterPass s) :=
  inv_enter (s := { s with seq := { s.seq with newDev := Config.sentinel } })
    ⟨h.1, h.2.1, h.2.2.1, h.2.2.2.1, rfl, h.2.2.2.2.2⟩ hp (fun _ => rfl)

theorem inv_raiseRunning {s : State} (h : Base s) {c : Cause} (hc : c ≠ .none) : Inv (raiseRunning c s) := by
  unfold raiseRunning
  split
  · exact inv_raise (s := { s with count := s.seq.cnt }) h hc
  · exact inv_raise h hc

theorem inv_done {i : Instr} {s : State} (h : MidCommand i s) : Inv (finish s) := inv_finish h.1 h.2.2.1.1 h.2.2.1.2

/-! ## What follows a slot -/

theorem inv_afterBusReset {i : Instr} {s : State} (h : MidCommand i s) (hn : s.seq.newDev = Config.sentinel) :
    Inv (afterBusReset s) := by
  unfold afterBusReset
  dsimp only
  split
  · split
    · rename_i hv
      rw [h.2.2.2.1.2.1] at hv
      exact inv_enterByte (s := { s with present := !s.seq.smp }) h (romByte_mem_phases hv) _
        (fun _ => hn)
    · exact inv_done (s := { s with present := !s.seq.smp }) h
  · apply inv_raiseRunning _ (by decide)
    split <;> exact h.1

/-- One more identifier byte begun. -/
theorem midCommand_bytecnt {i : Instr} {s : State} (h : MidCommand i s) {n : BitVec 4} (hn : n.toNat ≤ 8) :
    MidCommand i { s with seq := { s.seq with bytecnt := n } } :=
  ⟨h.1, h.2.1, h.2.2.1, ⟨h.2.2.2.1.1, h.2.2.2.1.2.1, h.2.2.2.1.2.2.1, hn⟩, h.2.2.2.2⟩

theorem bytecnt_succ {n : BitVec 4} (h : n.toNat ≤ 8) (hne : n ≠ 8) : (n + 1).toNat ≤ 8 := by
  revert n; decide

theorem inv_afterRomByteSent {i : Instr} {s : State} (h : MidCommand i s) : Inv (afterRomByteSent s) := by
  have ho := h.2.2.2.1.2.1
  unfold afterRomByteSent
  split
  · rename_i hv
    exact inv_enterByte (midCommand_bytecnt h (by decide)) (byteIn_mem_phases (ho ▸ hv)) _
  · split
    · rename_i hv
      exact inv_enterByte (midCommand_bytecnt h (by decide)) (byteOut_mem_phases (ho ▸ hv)) _
    · split
      · rename_i hv
        exact inv_enter (s := { s with seq := { s.seq with pos := 0, newDev := Config.sentinel } })
          ⟨h.1, h.2.1, h.2.2.1, h.2.2.2.1, rfl, h.2.2.2.2.2⟩ (searchTrue_mem_phases (ho ▸ hv))
      · exact inv_done h

theorem inv_afterByteOut {i : Instr} {s : State} (h : MidCommand i s) : Inv (afterByteOut s) := by
  unfold afterByteOut
  split
  · rename_i hv
    rw [Bool.and_eq_true, decide_eq_true_eq, bne_iff_ne] at hv
    exact inv_enterByte (midCommand_bytecnt h (bytecnt_succ h.2.2.2.1.2.2.2 hv.2))
      (byteOut_mem_phases (h.2.2.2.1.2.1 ▸ hv.1)) _
  · exact inv_done h

theorem base_storeIdent {s : State} (h : Base s) {e : Nat} (he : e < s.params.nbuf) (id : Identifier) :
    Base { s with buf := storeIdent e id s.buf } := by
  refine ⟨h.1, wf_storeIdent h.2.1 _ _, fun c hc => ?_⟩
  rcases mem_storeIdent hc with hc | ⟨i, hi, hc⟩
  · exact h.2.2 c hc
  · rw [hc]; show 8 * e + i < 8 * s.params.nbuf; omega

theorem inv_afterByteIn {i : Instr} {s : State} (h : MidCommand i s) (v : Byte) : Inv (afterByteIn v s) := by
  unfold afterByteIn
  split
  · rename_i hv
    dsimp only
    split
    · rename_i hn
      exact inv_enterByte (midCommand_bytecnt
        (s := { s with ident := setIdByte s.ident (s.seq.bytecnt.toNat - 1) v }) h
        (bytecnt_succ h.2.2.2.1.2.2.2 (bne_iff_ne.1 hn))) (byteIn_mem_phases (h.2.2.2.1.2.1 ▸ hv)) _
    · exact inv_done (s := { s with ident := setIdByte s.ident (s.seq.bytecnt.toNat - 1) v }) h
  · exact inv_done (s := { s with data := v }) h

theorem inv_afterPair {i : Instr} {s : State} (h : MidCommand i s) (hw : .searchWrite ∈ phasesOf i) : Inv (afterPair s) := by
  unfold afterPair
  split
  · exact inv_raiseRunning (s := { s with result := .failed }) h.1 (by decide)
  · dsimp only
    refine inv_enter ?_ hw
    exact ⟨h.1, h.2.1, h.2.2.1, h.2.2.2.1, legalDeviation_after s.seq.pos.isLt _ _ _ h.2.2.2.2.1,
      h.2.2.2.2.2⟩

theorem inv_afterPass {i : Instr} {s : State} (h : MidCommand i s) : Inv (afterPass s) := by
  unfold afterPass
  dsimp only
  split
  · rename_i hop
    obtain ⟨hm, hc⟩ := h.2.2.2.2.2 hop
    obtain ⟨h1, h2⟩ : 1 ≤ s.max.toNat ∧ s.max.toNat ≤ s.params.nbuf := (maxLegal_iff s).1 hm
    have hb := base_storeIdent h.1 (e := s.seq.cnt.toNat) (by omega) s.ident
    split
    · exact inv_finish hb h.2.2.1.1 h.2.2.1.2
    · rename_i hd
      refine inv_enterPass ?_ (busReset_mem_phases (h.2.2.2.1.2.1 ▸ hop))
      refine ⟨hb, h.2.1, h.2.2.1, h.2.2.2.1, h.2.2.2.2.1, fun _ => ⟨hm, ?_⟩⟩
      show (s.seq.cnt + 1).toNat < s.max.toNat
      have hne : s.seq.cnt + 1 ≠ s.max := fun h => hd (by rw [decide_eq_true h, Bool.or_true])
      have hlt := s.max.isLt
      have : (s.seq.cnt + 1).toNat = s.seq.cnt.toNat + 1 := by
        rw [BitVec.toNat_add]; simp; omega
      have : (s.seq.cnt + 1).toNat ≠ s.max.toNat := fun h => hne (BitVec.eq_of_toNat_eq h)
      omega
  · exact inv_done (s := { s with lastDev := s.seq.newDev, result := passResult s.seq.newDev }) h

theorem inv_nextBitOut {done : State → State} {i : Instr} {s : State} (h : MidCommand i s) (hp : s.seq.phase ∈ phasesOf i)
    (hn : NoDeviationYet s) (hd : Inv (done s)) : Inv (nextBitOut done s) := by
  unfold nextBitOut
  split
  · exact hd
  · exact inv_startSlot (s := { s with seq := { s.seq with bitcnt := s.seq.bitcnt + 1 } }) h hp hn

theorem inv_afterSlot {i : Instr} {s : State} (h : MidCommand i s) (hp : s.seq.phase ∈ phasesOf i)
    (hn : NoDeviationYet s) : Inv (afterSlot s) := by
  unfold afterSlot
  split
  · rename_i he; exact absurd he (ne_idle_of_mem_phases hp)
  · rename_i he; exact inv_afterBusReset h (hn (.inl he))
  · exact inv_done h
  · exact inv_done (s := { s with data := zextBit s.seq.smp }) h
  · exact inv_nextBitOut h hp hn (inv_afterRomByteSent h)
  · exact inv_nextBitOut h hp hn (inv_afterByteOut h)
  · unfold nextBitIn
    dsimp only
    split
    · exact inv_afterByteIn h _
    · exact inv_startSlot (s := { s with seq := { s.seq with
        sh := s.seq.sh ||| (zextBit s.seq.smp <<< s.seq.bitcnt.toNat), bitcnt := s.seq.bitcnt + 1 } }) h hp hn
  · rename_i he
    exact inv_enter (s := { s with seq := { s.seq with idBit := s.seq.smp } }) h
      (search_phases (.inl he) hp).2.1
  · rename_i he
    exact inv_afterPair (s := { s with seq := { s.seq with cmpBit := s.seq.smp } }) h
      (search_phases (.inr (.inl he)) hp).2.2
  · rename_i he
    unfold afterSearchWrite
    split
    · exact inv_afterPass h
    · exact inv_enter (s := { s with seq := { s.seq with pos := s.seq.pos + 1 } }) h
        (search_phases (.inr (.inr he)) hp).1

/-! ## One clock edge -/

theorem segmentDriven_eq (g : Segment) (s : State) : ∃ l b,
    segmentDriven g s = { s with line := l, seq := { s.seq with smp := b } } := by
  unfold segmentDriven
  dsimp only
  split
  · exact ⟨_, _, rfl⟩
  · exact ⟨_, s.seq.smp, rfl⟩

theorem slotOf_congr (s : State) (l : Line) (b : Bool) :
    slotOf { s with line := l, seq := { s.seq with smp := b } } = slotOf s := rfl

/-- The segment after segment `sg` of a slot. -/
theorem next_segment {slot : Slot} {sg : Fin 3} {next : Segment} (h : slot.segments[sg.val + 1]? = some next) :
    (sg + 1).val = sg.val + 1 ∧ next.isLow = (sg + 1 == 0) ∧ 1 ≤ next.us ∧ next.us ≤ 480 := by
  have key : ∀ sg : Fin 3, slot.segments[sg.val + 1]?.all (fun next => decide ((sg + 1).val = sg.val + 1 ∧
      next.isLow = (sg + 1 == 0) ∧ 1 ≤ next.us ∧ next.us ≤ 480)) = true := by
    cases slot with
    | busReset => decide
    | read => decide
    | write b => cases b <;> decide
  have := key sg
  rw [h] at this
  simpa using this

theorem inv_segmentEnd {s : State} (h : Inv s) (hb : s.busy = true) : Inv (segmentEnd s) := by
  obtain ⟨i, hg, hph, hn⟩ := h.midCommand hb
  have hsl : ∀ slot : Slot, ∀ u : State, deliverSlot slot u = u ∨ ∃ l, deliverSlot slot u = { u with line := l } := by
    intro slot u
    cases slot with
    | busReset => exact .inl rfl
    | read => exact .inl rfl
    | write b => exact .inr ⟨_, rfl⟩
  unfold segmentEnd
  split
  · rename_i g next rest he
    obtain ⟨l, b, hd⟩ := segmentDriven_eq g s
    rw [hd]
    have hlen : s.seq.seg.val + 1 < (slotOf s).segments.length := by
      have := congrArg List.length he
      simp at this; omega
    have hnx : (slotOf s).segments[s.seq.seg.val + 1]? = some next := by
      have := congrArg (fun l => l[1]?) he
      simpa using this
    have hprop := next_segment hnx
    refine inv_startSegment (s := { s with line := l, seq := { s.seq with smp := b } }) hg hph hn _ _ ?_ hprop.2.1
      hprop.2.2.1 hprop.2.2.2
    rw [slotOf_congr, hprop.1]; exact hlen
  · rename_i g he
    obtain ⟨l, b, hd⟩ := segmentDriven_eq g s
    rw [hd]
    rcases hsl (slotOf s) { s with line := l, seq := { s.seq with smp := b } } with e | ⟨l', e⟩ <;> rw [e] <;>
      exact inv_afterSlot hg hph hn
  · exact h

theorem inv_tick {s : State} (h : Inv s) (hb : s.busy = true) : Inv (tick s) := by
  unfold tick
  split
  · exact inv_segmentEnd h hb
  · have hr := h.running hb
    obtain ⟨i, hg, -, -⟩ := h.midCommand hb
    refine inv_running hg ⟨hr.phase, hr.op, hr.command, hr.bytes, hr.seg, hr.drv, ?_, hr.newDev, hr.passStart, hr.cnt⟩
    have := hr.timer
    show 1 ≤ s.seq.timer - 1 ∧ s.seq.timer - 1 ≤ Config.tRstl * s.params.ticksPerUs
    omega

theorem inv_illegalWord {s : State} (h : Inv s) (hb : s.busy = false) (w : Byte) : Inv (illegalWord w s) :=
  inv_idle h.base (h.idle hb) (by simp [illegalWord])

theorem inv_writeRegister {s : State} (h : Inv s) (hb : s.busy = false) (v : Byte) (r : Register) :
    Inv (writeRegister v s r) := by
  have e : writeRegister v s r = { s with
      data := (writeRegister v s r).data, lastDev := (writeRegister v s r).lastDev
      max := (writeRegister v s r).max, ident := (writeRegister v s r).ident
      bufSel := (writeRegister v s r).bufSel } := by cases r <;> rfl
  rw [e]
  exact inv_idle h.base (h.idle hb) (h.failCause hb)

theorem inv_checkCrc {s : State} (hb : Base s) (hi : Idle s) (hf : s.fail = false) (he : s.err = .none) :
    Inv (checkCrc s) := by
  unfold checkCrc
  split
  · exact inv_idle hb hi (by simp [hf, he])
  · (refine inv_raise ?_ ?_ <;> [exact hb; decide])

/-- A bus command at its acceptance edge. -/
theorem inv_startBusCommand {s : State} (hb : Base s) (i : Instr) (hcmd : s.cmd = encode i) (hf : s.fail = false) (he : s.err = .none)
    (hop : 1 ≤ i.op.toNat ∧ i.op.toNat ≤ 0xA) (hm : i = .findDevices → maxLegal s = true) :
    Inv (startBusCommand i s) := by
  have key : i.op = Instr.op .findDevices → i = .findDevices := by
    cases i <;> first | exact fun _ => rfl | exact fun h => absurd h (by simp [Instr.op])
  have hg : MidCommand i { s with busy := true, seq := { Sequencer.idle with op := i.op, rstf := i.rstf } } := by
    refine ⟨hb, rfl, ⟨hf, he⟩, ⟨hcmd, rfl, rfl, by show (0 : BitVec 4).toNat ≤ 8; decide⟩, rfl, fun h => ?_⟩
    have hml := hm (key h)
    obtain ⟨h1, h2⟩ := (maxLegal_iff s).1 hml
    exact ⟨hml, h1⟩
  unfold startBusCommand
  dsimp only
  cases i with
  | reset => exact inv_enter hg (by decide) (fun _ => rfl)
  | writeBit => exact inv_enter hg (by decide)
  | readBit => exact inv_enter hg (by decide)
  | writeByte => exact inv_enterByte hg (by decide) _
  | readByte => exact inv_enterByte hg (by decide) _
  | skipRom r =>
    cases r <;>
      [exact inv_enterByte hg (by decide) _ (fun _ => rfl); exact inv_enter hg (by decide) (fun _ => rfl)]
  | readRom r =>
    cases r <;>
      [exact inv_enterByte hg (by decide) _ (fun _ => rfl); exact inv_enter hg (by decide) (fun _ => rfl)]
  | matchRom r =>
    cases r <;>
      [exact inv_enterByte hg (by decide) _ (fun _ => rfl); exact inv_enter hg (by decide) (fun _ => rfl)]
  | searchRom => exact inv_enterPass hg (by decide)
  | findDevices =>
    exact inv_enterPass (s := searchInit { s with
      busy := true, seq := { Sequencer.idle with op := Instr.op .findDevices, rstf := Instr.rstf .findDevices } })
      hg (by decide)
  | searchInit => exact absurd hop.2 (by decide)
  | crcClear => exact absurd hop.2 (by decide)
  | crcUpdate => exact absurd hop.2 (by decide)
  | crcId => exact absurd hop.2 (by decide)
  | crcCheck => exact absurd hop.2 (by decide)

theorem inv_acceptCommand {s : State} (h : Inv s) (hb : s.busy = false) (i : Instr) :
    Inv (acceptCommand i s) := by
  have hi : Idle (accept (encode i) s) := h.idle hb
  have hbase : Base (accept (encode i) s) := h.base
  cases i with
  | reset => exact inv_startBusCommand hbase .reset rfl rfl rfl (by show _ ∧ _; simp [Instr.op]) nofun
  | writeBit => exact inv_startBusCommand hbase .writeBit rfl rfl rfl (by show _ ∧ _; simp [Instr.op]) nofun
  | readBit => exact inv_startBusCommand hbase .readBit rfl rfl rfl (by show _ ∧ _; simp [Instr.op]) nofun
  | writeByte => exact inv_startBusCommand hbase .writeByte rfl rfl rfl (by show _ ∧ _; simp [Instr.op]) nofun
  | readByte => exact inv_startBusCommand hbase .readByte rfl rfl rfl (by show _ ∧ _; simp [Instr.op]) nofun
  | skipRom r => exact inv_startBusCommand hbase (.skipRom r) rfl rfl rfl (by show _ ∧ _; simp [Instr.op]) nofun
  | readRom r => exact inv_startBusCommand hbase (.readRom r) rfl rfl rfl (by show _ ∧ _; simp [Instr.op]) nofun
  | matchRom r => exact inv_startBusCommand hbase (.matchRom r) rfl rfl rfl (by show _ ∧ _; simp [Instr.op]) nofun
  | searchRom => exact inv_startBusCommand hbase .searchRom rfl rfl rfl (by show _ ∧ _; simp [Instr.op]) nofun
  | findDevices =>
    show Inv (if maxLegal (accept (encode .findDevices) s) = true then _ else _)
    split
    · rename_i hm
      exact inv_startBusCommand hbase _ rfl rfl rfl (by decide) (fun _ => hm)
    · (refine inv_raise ?_ ?_ <;> [exact hbase; decide])
  | searchInit => exact inv_idle hbase hi (by simp [acceptCommand, searchInit])
  | crcClear => exact inv_idle hbase hi (by simp [acceptCommand, crcClearCommand])
  | crcUpdate => exact inv_idle hbase hi (by simp [acceptCommand, crcUpdateCommand])
  | crcId => exact inv_checkCrc (s := { accept (encode .crcId) s with crc := crcOfIdent s.ident }) hbase hi rfl rfl
  | crcCheck => exact inv_checkCrc hbase hi rfl rfl

theorem inv_latchRead {s : State} (h : Inv s) (p : Ports) : Inv (latchRead p s) :=
  ⟨h.params, h.bufWf, h.bufRange, h.idle, h.failCause, h.runningClear,
    fun hb => let r := h.running hb; ⟨r.phase, r.op, r.command, r.bytes, r.seg, r.drv, r.timer, r.newDev, r.passStart, r.cnt⟩⟩

theorem inv_clockEdge {s : State} (h : Inv s) (p : Ports) : Inv (clockEdge p s) := by
  have hl := inv_latchRead h p
  unfold clockEdge
  dsimp only
  split
  · exact inv_idle ⟨h.params, List.Pairwise.nil, nofun⟩ ⟨rfl, rfl, rfl⟩ (by simp [hardwareReset, State.reset])
  · split
    · rename_i hb
      exact inv_tick hl hb
    · rename_i hb
      have hb' : (latchRead p s).busy = false := by simpa using hb
      split
      · unfold hostWrite
        split
        · unfold acceptWord
          split
          · exact inv_acceptCommand hl hb' _
          · exact inv_illegalWord hl hb' _
        · exact inv_writeRegister hl hb' _ _
      · exact hl

/-! ## The command level -/

theorem inv_enumerate (left : Nat) : ∀ (cnt : Nat) (s : State), Base s → s.fail = false → s.err = .none →
    cnt + left ≤ s.params.nbuf → Inv (enumerate left cnt s) := by
  induction left with
  | zero =>
    intro cnt s hb hf he hn
    exact inv_finish (s := { s with count := BitVec.ofNat 8 cnt }) hb hf he
  | succ left ih =>
    intro cnt s hb hf he hn
    cases h : s.line.level .presence with
    | true =>
      rw [enumerate_absent left cnt h]
      (refine inv_raise ?_ ?_ <;> [exact hb; decide])
    | false =>
      cases hw : (passWalk s).failed with
      | true =>
        rw [enumerate_fails left cnt h hw]
        (refine inv_raise ?_ ?_ <;> [exact hb; decide])
      | false =>
        rw [enumerate_completes left cnt h hw]
        generalize passWalk s = w
        have hs : Base (stored cnt w s) := base_storeIdent hb (e := cnt) (by omega) w.ident
        split
        · exact inv_finish (s := { stored cnt w s with count := BitVec.ofNat 8 (cnt + 1) }) hs hf he
        · exact ih (cnt + 1) _ hs hf he (by show cnt + 1 + left ≤ s.params.nbuf; omega)

theorem inv_exec {s t : State} (h : Inv s) (hb : s.busy = false) {i : Instr} (he : exec i s = .next t) : Inv t := by
  have hi := h.idle hb
  have hbase := h.base
  have hr := ran_of_exec he
  cases hr with
  | findDevices _ h1 h2 =>
    rw [exec_findDevices_legal h1 h2] at he
    cases he
    exact inv_enumerate _ _ (searchInit (accept 0x0A s)) hbase rfl rfl (by show 0 + _ ≤ s.params.nbuf; omega)
  | resetPresent => (refine inv_finish ?_ ?_ ?_ <;> [exact hbase; rfl; rfl])
  | writeBit => (refine inv_finish ?_ ?_ ?_ <;> [exact hbase; rfl; rfl])
  | readBit => (refine inv_finish ?_ ?_ ?_ <;> [exact hbase; rfl; rfl])
  | writeByte => (refine inv_finish ?_ ?_ ?_ <;> [exact hbase; rfl; rfl])
  | readByte => (refine inv_finish ?_ ?_ ?_ <;> [exact hbase; rfl; rfl])
  | skipRom => (refine inv_finish ?_ ?_ ?_ <;> [exact hbase; rfl; rfl])
  | readRom => (refine inv_finish ?_ ?_ ?_ <;> [exact hbase; rfl; rfl])
  | matchRom => (refine inv_finish ?_ ?_ ?_ <;> [exact hbase; rfl; rfl])
  | searchCompletes => (refine inv_finish ?_ ?_ ?_ <;> [exact hbase; rfl; rfl])
  | resetAbsent => (refine inv_raise ?_ ?_ <;> [exact hbase; decide])
  | romAbsent => (refine inv_raise ?_ ?_ <;> [exact hbase; decide])
  | searchAbsent => (refine inv_raise ?_ ?_ <;> [exact hbase; decide])
  | searchFails => (refine inv_raise ?_ ?_ <;> [exact hbase; decide])
  | findIllegal => (refine inv_raise ?_ ?_ <;> [exact hbase; decide])
  | crcIdInvalid => (refine inv_raise ?_ ?_ <;> [exact hbase; decide])
  | crcCheckNonzero => (refine inv_raise ?_ ?_ <;> [exact hbase; decide])
  | searchInit => exact inv_idle hbase hi (by simp [searchInit])
  | crcClear => exact inv_idle hbase hi (by simp [crcClearCommand])
  | crcUpdate => exact inv_idle hbase hi (by simp [crcUpdateCommand])
  | crcIdValid => exact inv_idle hbase hi (by simp)
  | crcCheckZero => exact inv_idle hbase hi (by simp)

end Sys2Proof.Machine
end

