-- ==== Sys2Proof/Laws/Passes.lean ====
section
/-! SUPPORT. `FIND_DEVICES` in terms of the `SEARCH_ROM` commands it stands for (R187 to R190). -/

namespace Sys2Proof.Machine

/-- The next `SEARCH_ROM` of the chain. -/
theorem exec_searchRom_afterPasses (n : Nat) (s : State) :
    exec .searchRom (afterPasses n s) = .next (afterPasses (n + 1) s) := by
  obtain ⟨t, ht, -⟩ := exec_ran .searchRom (afterPasses n s)
  rw [afterPasses, ht]

/-- The chain from the state after its first command. -/
theorem afterPasses_succ (n : Nat) (s : State) : afterPasses (n + 1) s = afterPasses n (afterPasses 1 s) := by
  induction n with
  | zero => rfl
  | succ n ih =>
    have h1 := exec_searchRom_afterPasses (n + 1) s
    rw [ih, exec_searchRom_afterPasses n] at h1
    exact (Host.Outcome.next.inj h1).symm

/-- A `SEARCH_ROM` does not depend on `CMD`, `FAIL` and `ERR`. -/
theorem afterPasses_one_congr (s : State) (w : Byte) (b : Bool) (e : Cause) :
    afterPasses 1 { s with cmd := w, fail := b, err := e } = afterPasses 1 s := rfl

theorem afterPasses_one {s t : State} (h : exec .searchRom s = .next t) : afterPasses 1 s = t := by
  have h1 := exec_searchRom_afterPasses 0 s
  rw [afterPasses, h] at h1
  cases h1
  rfl

/-- What the loop of `FIND_DEVICES` leaves, in terms of the `SEARCH_ROM` commands it stands for (R187 to R190): `m` passes
stored, each one's identifier in its entry, and the state of the last pass run. -/
theorem enumerate_passes (left : Nat) : ∀ (cnt : Nat) (c : State) (m0 : Memory), Idle c → c.fail = false →
    c.err = .none → cnt + left ≤ 255 →
    ∃ m ≤ left, ∃ buf : Memory, ∃ last : State,
      enumerate left cnt { c with cmd := 0x0A, buf := m0 } =
        { last with cmd := 0x0A, count := BitVec.ofNat 8 (cnt + m), buf := buf } ∧
      ((last.fail = false ∧ last = afterPasses m c) ∨ (last.fail = true ∧ last = afterPasses (m + 1) c)) ∧
      (∀ j < m, (afterPasses (j + 1) c).fail = false ∧
        ∀ i < 8, buf.read (bufAddress (cnt + j) i) = some (idByte (afterPasses (j + 1) c).ident i)) ∧
      (∀ j, j + 1 < m → (afterPasses (j + 1) c).result = .moreAvailable) := by
  induction left with
  | zero =>
    rintro cnt c m0 ⟨hb, hd, hq⟩ hf he hn
    refine ⟨0, Nat.le_refl _, m0, c, ?_, .inl ⟨hf, rfl⟩, fun j hj => absurd hj (by omega), fun j hj => absurd hj (by omega)⟩
    cases c; cases hb; cases hd; cases hq; rfl
  | succ left ih =>
    rintro cnt c m0 ⟨hb, hd, hq⟩ hf he hn
    have hw0 : passWalk { c with cmd := 0x0A, buf := m0 } = passWalk c := by rw [passWalk, passWalk]; rfl
    cases h : c.line.level .presence with
    | true =>
      have h1 := afterPasses_one (exec_searchRom_absent h)
      refine ⟨0, by omega, m0, afterPasses 1 c, ?_, .inr ⟨by rw [h1]; rfl, rfl⟩, fun j hj => absurd hj (by omega),
        fun j hj => absurd hj (by omega)⟩
      rw [enumerate_absent left cnt (s := { c with cmd := 0x0A, buf := m0 }) h, h1]
      rfl
    | false =>
      cases hw : (passWalk c).failed with
      | true =>
        have h1 := afterPasses_one (exec_searchRom_fails h hw)
        refine ⟨0, by omega, m0, afterPasses 1 c, ?_, .inr ⟨by rw [h1]; rfl, rfl⟩, fun j hj => absurd hj (by omega),
          fun j hj => absurd hj (by omega)⟩
        rw [enumerate_fails left cnt (s := { c with cmd := 0x0A, buf := m0 }) h (by rw [hw0]; exact hw), hw0, h1]
        generalize passWalk c = w
        rfl
      | false =>
        have h1 := afterPasses_one (exec_searchRom_completes h hw)
        rw [enumerate_completes left cnt (s := { c with cmd := 0x0A, buf := m0 }) h (by rw [hw0]; exact hw), hw0]
        generalize passWalk c = w at h1
        have hs : stored cnt w { c with cmd := 0x0A, buf := m0 } =
            { afterPasses 1 c with cmd := 0x0A, buf := storeIdent cnt w.ident m0 } := by
          rw [h1]; cases c; cases hb; cases hd; cases hq; cases hf; cases he; rfl
        have hid : (afterPasses 1 c).ident = w.ident := by rw [h1]; rfl
        have hfl : (afterPasses 1 c).fail = false := by rw [h1]; rfl
        have hread : ∀ i < 8, Memory.read (storeIdent cnt w.ident m0) (bufAddress cnt i) = some (idByte w.ident i) := by
          intro i hi
          rw [read_storeIdent]
          have ha : bufAddress cnt i = 8 * cnt + i := rfl
          rw [if_pos (by omega), ha, Nat.add_sub_cancel_left]
        split
        · refine ⟨1, by omega, storeIdent cnt w.ident m0, afterPasses 1 c, ?_, .inl ⟨hfl, rfl⟩, ?_,
            fun j hj => absurd hj (by omega)⟩
          · rw [hs, h1]; rfl
          · intro j hj
            obtain rfl : j = 0 := by omega
            refine ⟨hfl, fun i hi => ?_⟩
            show _ = some (idByte (afterPasses 1 c).ident i)
            rw [hid]; exact hread i hi
        · rename_i hnd
          rw [hs]
          have hi1 : Idle (afterPasses 1 c) := by rw [h1]; exact ⟨rfl, rfl, rfl⟩
          have he1 : (afterPasses 1 c).err = .none := by rw [h1]; rfl
          have hspec := enumerate_spec left (cnt + 1)
            { afterPasses 1 c with cmd := 0x0A, buf := storeIdent cnt w.ident m0 } (by omega) hfl he1
          obtain ⟨m, hm, buf, last, e, hl, hent, hres⟩ :=
            ih (cnt + 1) (afterPasses 1 c) (storeIdent cnt w.ident m0) hi1 hfl he1 (by omega)
          have hold := hspec.others
          rw [e] at hold
          refine ⟨m + 1, by omega, buf, last, ?_, ?_, ?_, ?_⟩
          · rw [e, show cnt + 1 + m = cnt + (m + 1) by omega]
          · rw [afterPasses_succ m c, afterPasses_succ (m + 1) c]; exact hl
          · intro j hj
            cases j with
            | zero =>
              refine ⟨hfl, fun i hi => ?_⟩
              show buf.read (bufAddress cnt i) = some (idByte (afterPasses 1 c).ident i)
              rw [hid, ← hread i hi]
              exact hold _ (.inl (by simp only [bufAddress]; omega))
            | succ j =>
              rw [afterPasses_succ (j + 1) c, show cnt + (j + 1) = cnt + 1 + j by omega]
              exact hent j (by omega)
          · intro j hj
            cases j with
            | zero =>
              show (afterPasses 1 c).result = _
              rw [h1]
              exact (passResult_cases _).resolve_left hnd
            | succ j =>
              rw [afterPasses_succ (j + 1) c]
              exact hres j (by omega)

/-- `FIND_DEVICES` with a legal `MAX`, in terms of `SEARCH_ROM` commands from the initial search state. -/
theorem exec_findDevices_passes {s : State} (hi : Idle s) (h1 : 1 ≤ s.max.toNat) (h2 : s.max.toNat ≤ s.params.nbuf) :
    ∃ m ≤ s.max.toNat, ∃ buf : Memory, ∃ last : State,
      exec .findDevices s = .next { last with cmd := 0x0A, count := BitVec.ofNat 8 m, buf := buf } ∧
      ((last.fail = false ∧ last = afterPasses m (searchInit s)) ∨
       (last.fail = true ∧ last = afterPasses (m + 1) (searchInit s))) ∧
      (∀ j < m, (afterPasses (j + 1) (searchInit s)).fail = false ∧
        ∀ i < 8, buf.read (bufAddress j i) = some (idByte (afterPasses (j + 1) (searchInit s)).ident i)) ∧
      (∀ j, j + 1 < m → (afterPasses (j + 1) (searchInit s)).result = .moreAvailable) := by
  have hlt := s.max.isLt
  let c : State := { searchInit s with fail := false, err := .none }
  have hc : ∀ n, afterPasses (n + 1) c = afterPasses (n + 1) (searchInit s) := fun n => by
    rw [afterPasses_succ n c, afterPasses_succ n (searchInit s)]; rfl
  obtain ⟨m, hm, buf, last, e, hl, hent, hres⟩ := enumerate_passes s.max.toNat 0 c s.buf hi rfl rfl (by omega)
  have hex : exec .findDevices s = .next (enumerate s.max.toNat 0 { c with cmd := 0x0A, buf := s.buf }) :=
    exec_findDevices_legal h1 h2
  have hspec := enumerate_spec s.max.toNat 0 { c with cmd := 0x0A, buf := s.buf } (by omega) rfl rfl
  rw [e] at hex hspec
  rw [Nat.zero_add] at hex hspec
  refine ⟨m, hm, buf, last, hex, ?_, ?_, ?_⟩
  · rcases hl with ⟨hf, hl⟩ | ⟨hf, hl⟩
    · refine .inl ⟨hf, ?_⟩
      cases m with
      | zero =>
        rcases (hspec.good hf).2 with ⟨hz, -⟩ | ⟨hz, -⟩
        · omega
        · exact absurd hz (by simp)
      | succ m => rw [hl, hc]
    · exact .inr ⟨hf, by rw [hl, hc]⟩
  · intro j hj
    rw [← hc j]
    have := hent j hj
    rwa [Nat.zero_add] at this
  · intro j hj; rw [← hc j]; exact hres j hj

end Sys2Proof.Machine
end

