-- ==== Sys2Proof/Laws/PerInstr.lean ====
section
/-! SUPPORT. What holds of the command word of every instruction, one lemma per constructor (30_encoding.md R90 to R94). -/

namespace Sys2Proof.Laws.CommandWord

/-- The encoding of the instruction is a legal command word with the instruction's opcode and `RSTF` bit and
reserved bits 0, and it decodes to the instruction. -/
def Statement (i : Instr) : Prop :=
  i.wellFormed = true ∧ (fieldsOf (encode i)).wellFormed = true ∧
  (fieldsOf (encode i)).op = i.op ∧ (fieldsOf (encode i)).rstf = i.rstf ∧
  (fieldsOf (encode i)).reserved = 0 ∧ decode (encode i) = .ok i

theorem reset : Statement .reset := by unfold Statement; decide
theorem writeBit : Statement .writeBit := by unfold Statement; decide
theorem readBit : Statement .readBit := by unfold Statement; decide
theorem writeByte : Statement .writeByte := by unfold Statement; decide
theorem readByte : Statement .readByte := by unfold Statement; decide
theorem skipRom (rstf : Bool) : Statement (.skipRom rstf) := by unfold Statement; revert rstf; decide
theorem readRom (rstf : Bool) : Statement (.readRom rstf) := by unfold Statement; revert rstf; decide
theorem matchRom (rstf : Bool) : Statement (.matchRom rstf) := by unfold Statement; revert rstf; decide
theorem searchRom : Statement .searchRom := by unfold Statement; decide
theorem findDevices : Statement .findDevices := by unfold Statement; decide
theorem searchInit : Statement .searchInit := by unfold Statement; decide
theorem crcClear : Statement .crcClear := by unfold Statement; decide
theorem crcUpdate : Statement .crcUpdate := by unfold Statement; decide
theorem crcId : Statement .crcId := by unfold Statement; decide
theorem crcCheck : Statement .crcCheck := by unfold Statement; decide

end Sys2Proof.Laws.CommandWord
end

