-- ==== Sys2Proof/Tests/Slice0.lean ====
section
/-! SUPPORT. The model's own tests. Expected values come from spec/95_test_vectors.md (V-…), from the examples in the
command rules, or from words written out bit by bit from 30_encoding.md R90 and R91. Every obligation with hypotheses
has a witness here that meets them. -/

namespace Sys2Proof.Tests

open Sys2Proof Sys2Proof.Machine

/-! ## Helpers -/

/-- Devices A, B, C of the test vectors. -/
def idA : Identifier := idOfBytes 0x28 0xAA 0x01 0x00 0x00 0x00 0x00 0x40
def idB : Identifier := idOfBytes 0x28 0xBB 0x02 0x00 0x00 0x00 0x00 0x62
def idC : Identifier := idOfBytes 0x10 0xCC 0x03 0x00 0x00 0x00 0x00 0x57

/-- A device that listens for a ROM command. -/
def device (id : Identifier) : Slave := { ident := id, mode := .romCommand 0 0, reply := [] }

/-- The ideal bus with these devices. -/
def busOf (ids : List Identifier) : ReferenceBus := { slaves := ids.map device, collisionsAnd := true }

/-- The reset state on the ideal bus with these devices. -/
def onBus (ids : List Identifier) : State :=
  { State.reset with line := { env := .reference (busOf ids), wire := [], samples := 0 } }

/-- The reset state where the next samples are these. -/
def onSamples (levels : List Bool) : State :=
  { State.reset with line := { env := .scripted levels, wire := [], samples := 0 } }

/-- The state after a command. -/
def after (i : Instr) (s : State) : State :=
  match exec i s with
  | .next t => t
  | .fault _ => s
  | .refused _ => s

theorem exec_after (i : Instr) (s : State) : exec i s = .next (after i s) := by cases i <;> rfl

/-- The next state of a step, if it answers one. -/
def stepped (s : State) : Option State :=
  match step s with
  | .next t => some t
  | .fault _ => none
  | .refused _ => none

/-- A state in which a command runs: the edge after the acceptance of `RESET`. -/
def running : State := clockEdge (Ports.write 0x00 0x01) State.reset

/-! ## Well-formedness: each check refuses an ill-formed word -/

theorem test_wf_accepts_reset : CommandFields.wellFormed ⟨false, 0b000, 0x1⟩ = true := by decide
theorem test_wf_refuses_reserved_bits : CommandFields.wellFormed ⟨false, 0b001, 0x1⟩ = false := by decide
theorem test_wf_refuses_op_zero : CommandFields.wellFormed ⟨false, 0b000, 0x0⟩ = false := by decide
theorem test_wf_refuses_rstf_not_taken : CommandFields.wellFormed ⟨true, 0b000, 0x9⟩ = false := by decide
theorem test_wf_accepts_rstf_taken : CommandFields.wellFormed ⟨true, 0b000, 0x8⟩ = true := by decide
/-- The check and the decoder agree on every word (R93). -/
theorem test_wf_agrees_with_decode (w : Byte) :
    (fieldsOf w).wellFormed = (decode w matches .ok _) := by revert w; decide

/-! ## Decoding: words written bit by bit, `RSTF`, reserved, `OP` -/

theorem test_decode_reset : decode 0b0_000_0001 = .ok .reset := by decide
theorem test_decode_writeBit : decode 0b0_000_0010 = .ok .writeBit := by decide
theorem test_decode_readBit : decode 0b0_000_0011 = .ok .readBit := by decide
theorem test_decode_writeByte : decode 0b0_000_0100 = .ok .writeByte := by decide
theorem test_decode_readByte : decode 0b0_000_0101 = .ok .readByte := by decide
theorem test_decode_skipRom : decode 0b0_000_0110 = .ok (.skipRom false) := by decide
theorem test_decode_skipRom_rstf : decode 0b1_000_0110 = .ok (.skipRom true) := by decide
theorem test_decode_readRom : decode 0b0_000_0111 = .ok (.readRom false) := by decide
theorem test_decode_readRom_rstf : decode 0b1_000_0111 = .ok (.readRom true) := by decide
theorem test_decode_matchRom : decode 0b0_000_1000 = .ok (.matchRom false) := by decide
theorem test_decode_matchRom_rstf : decode 0b1_000_1000 = .ok (.matchRom true) := by decide
theorem test_decode_searchRom : decode 0b0_000_1001 = .ok .searchRom := by decide
theorem test_decode_findDevices : decode 0b0_000_1010 = .ok .findDevices := by decide
theorem test_decode_searchInit : decode 0b0_000_1011 = .ok .searchInit := by decide
theorem test_decode_crcClear : decode 0b0_000_1100 = .ok .crcClear := by decide
theorem test_decode_crcUpdate : decode 0b0_000_1101 = .ok .crcUpdate := by decide
theorem test_decode_crcId : decode 0b0_000_1110 = .ok .crcId := by decide
theorem test_decode_crcCheck : decode 0b0_000_1111 = .ok .crcCheck := by decide
/-- The illegal words of V-E1, each by name (R94). -/
theorem test_decode_illegal :
    decode 0x00 = .error .reservedOpcode ∧ decode 0x10 = .error .reservedBits ∧
    decode 0x21 = .error .reservedBits ∧ decode 0x41 = .error .reservedBits ∧
    decode 0x71 = .error .reservedBits ∧ decode 0x80 = .error .reservedOpcode ∧
    decode 0x81 = .error .rstfNotTaken ∧ decode 0x89 = .error .rstfNotTaken ∧
    decode 0x8A = .error .rstfNotTaken ∧ decode 0x8F = .error .rstfNotTaken ∧
    decode 0x96 = .error .reservedBits ∧ decode 0xFF = .error .reservedBits := by decide
theorem test_decodeTableWord : decodeTableWord 8 0x88 = some (.matchRom true) := by decide
theorem test_decodeTableWord_wide : decodeTableWord 8 0x101 = none := by decide

/-! ## One step -/

/-- V-B1. -/
theorem test_reset_present : statusByte (after .reset (onSamples [false])) = 0x0A := by decide
/-- V-B2. -/
theorem test_reset_absent :
    (statusByte (after .reset (onSamples [true])), errByte (after .reset (onSamples [true]))) = (0x0C, 0x01) := by
  decide
/-- V-B4: `DATA` = 0xFE writes a 0. -/
theorem test_writeBit_zero :
    (after .writeBit { State.reset with data := 0xFE }).line.wire = [.released 10, .low 60] := by decide
/-- V-B4: `DATA` = 0x03 writes a 1. -/
theorem test_writeBit_one :
    (after .writeBit { State.reset with data := 0x03 }).line.wire = [.released 64, .low 6] := by decide
/-- V-B5: with `DATA` = 0xFF before and sample 0. -/
theorem test_readBit_low : (after .readBit { onSamples [false] with data := 0xFF }).data = 0x00 := by decide
/-- V-B5: an empty bus. -/
theorem test_readBit_empty : (after .readBit (onBus [])).data = 0x01 := by decide
/-- V-Y1: `DATA` = 0xBE, slots 0 1 1 1 1 1 0 1. -/
theorem test_writeByte : (after .writeByte { State.reset with data := 0xBE }).line.wire.reverse =
    [.low 60, .released 10, .low 6, .released 64, .low 6, .released 64, .low 6, .released 64,
     .low 6, .released 64, .low 6, .released 64, .low 60, .released 10, .low 6, .released 64] := by decide
/-- V-Y2. -/
theorem test_readByte :
    (after .readByte (onSamples [false, false, false, true, false, true, false, false])).data = 0x28 := by decide
/-- V-R1: reset sequence, then 0 0 1 1 0 0 1 1. -/
theorem test_skipRom_rstf : (after (.skipRom true) (onSamples [false])).line.wire.reverse =
    [.low 480, .released 70, .released 410,
     .low 60, .released 10, .low 60, .released 10, .low 6, .released 64, .low 6, .released 64,
     .low 60, .released 10, .low 60, .released 10, .low 6, .released 64, .low 6, .released 64] := by decide
/-- V-R1: an empty bus. -/
theorem test_skipRom_absent : (after (.skipRom true) (onBus [])).err = .busError ∧
    wireTime (after (.skipRom true) (onBus [])).line.wire = 960 := by decide
/-- V-R2. -/
theorem test_readRom_rstf : (after (.readRom true) (onBus [idA])).ident = idA ∧
    wireTime (after (.readRom true) (onBus [idA])).line.wire = 6000 := by decide +kernel
/-- V-R3: the AND of two identifiers on the ideal bus. -/
theorem test_readRom_collision : (after (.readRom true) (onBus [idA, idB])).ident =
    idOfBytes 0x28 0xAA 0x00 0x00 0x00 0x00 0x00 0x40 := by decide +kernel
/-- V-R5: only C is selected; the identifier is unchanged. -/
theorem test_matchRom_selects : (after (.matchRom true) { onBus [idA, idB, idC] with ident := idC }).line.env =
    .reference { slaves := [⟨idA, .ignoring, []⟩, ⟨idB, .ignoring, []⟩, ⟨idC, .selected, []⟩]
                 collisionsAnd := true } := by decide +kernel
/-- V-R5: 6000 µs. -/
theorem test_matchRom_time :
    wireTime (after (.matchRom true) { onBus [idC] with ident := idC }).line.wire = 6000 := by decide +kernel
/-- V-S3, pass 3: the replay of a stored 1 and the last branch. -/
theorem test_searchRom_replay :
    let t := after .searchRom { onBus [idA, idB, idC] with ident := idA, lastDev := 0x08 }
    t.ident = idB ∧ t.lastDev = 0xFF ∧ statusByte t = 0x2A := by decide +kernel
/-- V-S6: the protocol error with its partial update. -/
theorem test_searchRom_protocolError :
    let t := after .searchRom
      { onSamples [false, false, true, true, false, true, true] with
        ident := 0xFFFFFFFFFFFFFFFF, lastDev := 0x05 }
    t.ident = idOfBytes 0xFE 0xFF 0xFF 0xFF 0xFF 0xFF 0xFF 0xFF ∧ t.lastDev = 0x05 ∧
      statusByte t = 0x1E ∧ errByte t = 0x02 ∧ wireTime t.line.wire = 2080 := by decide +kernel
/-- V-F1. -/
theorem test_findDevices :
    let t := after .findDevices { onBus [idA, idB, idC] with max := 0x04 }
    t.count = 0x03 ∧ t.ident = idB ∧ statusByte t = 0x2A ∧ t.line.samples = 387 ∧
      t.buf = storeIdent 2 idB (storeIdent 1 idA (storeIdent 0 idC [])) := by decide +kernel
/-- V-F2: truncation. -/
theorem test_findDevices_truncates :
    let t := after .findDevices { onBus [idA, idB, idC] with max := 0x02 }
    t.count = 0x02 ∧ t.ident = idA ∧ t.lastDev = 0x08 ∧ statusByte t = 0x3A ∧ errByte t = 0x00 := by
  decide +kernel
/-- V-I1. -/
theorem test_searchInit :
    let t := after .searchInit
      { State.reset with ident := idA, lastDev := 0x08, present := true, result := .moreAvailable }
    t.ident = 0 ∧ t.lastDev = 0xFF ∧ statusByte t = 0x0A := by decide
/-- R203, the example. -/
theorem test_crcClear : (after .crcClear { State.reset with crc := 0x5E }).crc = 0x00 := by decide
/-- V-C2: 0xE1, then the byte 0xAA. -/
theorem test_crcUpdate : (after .crcUpdate { State.reset with crc := 0xE1, data := 0xAA }).crc = 0x66 := by decide
/-- V-C3: a valid identifier. -/
theorem test_crcId_valid : (after .crcId { State.reset with ident := idA }).fail = false := by decide +kernel
/-- V-C3: `ID7` = 0x41. -/
theorem test_crcId_invalid :
    let t := after .crcId { State.reset with ident := idOfBytes 0x28 0xAA 0x01 0x00 0x00 0x00 0x00 0x41 }
    t.crc = 0x5E ∧ t.fail = true ∧ errByte t = 0x03 := by decide +kernel
/-- V-C4. -/
theorem test_crcCheck : errByte (after .crcCheck { State.reset with crc := 0x5E }) = 0x03 ∧
    (after .crcCheck State.reset).fail = false := by decide
/-- V-C1: Maxim's check value. -/
theorem test_crc8_check_value : crc8 [0x02, 0x1C, 0xB8, 0x01, 0x00, 0x00, 0x00] = 0xA2 := by decide +kernel
/-- V-E1: an illegal word at a clock edge. -/
theorem test_illegal_word :
    let t := clockEdge (Ports.write 0x00 0x89) State.reset
    t.cmd = 0x89 ∧ t.fail = true ∧ errByte t = 0x05 ∧ t.busy = false ∧ t.drv = false := by decide

/-! ## The host port and the clock level -/

/-- V-E2: reads after reset, at the ends of each range of the map. -/
theorem test_host_reads :
    [0x00, 0x01, 0x02, 0x03, 0x04, 0x05, 0x06, 0x07, 0x08, 0x0F, 0x10, 0x11, 0x17].map
      (fun a => (clockEdge (Ports.read a) State.reset).hRdata) =
    [0x00, 0x08, 0x00, 0x00, 0x00, 0xFF, 0x00, 0x00, 0x00, 0x00, 0x00, 0x00, 0x00] := by decide
/-- V-E2: `BUFSEL` = `NBUF`. -/
theorem test_window_out_of_range :
    (clockEdge (Ports.read 0x18) { State.reset with bufSel := 0x04 }).hRdata = 0x00 ∧
    (clockEdge (Ports.read 0x1F) { State.reset with bufSel := 0x04 }).hRdata = 0x00 := by decide
/-- Program 2: the window shows entry `BUFSEL`. -/
theorem test_window : (clockEdge (Ports.read 0x19)
    { State.reset with bufSel := 0x01, buf := storeIdent 1 idA [] }).hRdata = 0xAA := by decide
/-- V-E2: writes to read-only and reserved addresses change nothing. -/
theorem test_host_writes_ignored :
    [0x01, 0x02, 0x04, 0x07, 0x11, 0x18].map (fun a => clockEdge (Ports.write a 0xFF) State.reset) =
    [State.reset, State.reset, State.reset, State.reset, State.reset, State.reset] := by decide
/-- V-E2: `w 05 7F`. -/
theorem test_host_write : (clockEdge (Ports.write 0x05 0x7F) State.reset).lastDev = 0x7F := by decide
/-- V-B4 at the clock level: low in periods 1 to 6, `BUSY` in periods 1 to 70. -/
theorem test_clock_writeBit :
    let s := clockEdge (Ports.write 0x00 0x02) { State.reset with data := 0x01 }
    (quietEdges 5 s).drv = true ∧ (quietEdges 6 s).drv = false ∧ (quietEdges 69 s).busy = true ∧
      (quietEdges 70 s).busy = false := by decide +kernel
/-- V-B7: host writes during a slot are ignored. -/
theorem test_clock_write_while_busy :
    let s := quietEdges 29 (clockEdge (Ports.write 0x00 0x02) State.reset)
    let t := quietEdges 40 (clockEdge (Ports.write 0x03 0xFF) s)
    t.busy = false ∧ t.data = 0x00 ∧ t.cmd = 0x02 := by decide +kernel
/-- R64, R67: a write is ignored while a command runs, with a read in the same period too. -/
theorem test_clock_both_enables_while_busy :
    let s := quietEdges 29 (clockEdge (Ports.write 0x00 0x02) State.reset)
    let t := quietEdges 40 (clockEdge { Ports.write 0x03 0xFF with re := true } s)
    t.busy = false ∧ t.data = 0x00 ∧ t.cmd = 0x02 := by decide +kernel
/-- V-B8: `rst` during a slot. -/
theorem test_clock_rst :
    let s := quietEdges 29 (clockEdge (Ports.write 0x00 0x02) State.reset)
    (clockEdge Ports.reset s).drv = false ∧ (clockEdge Ports.reset s).busy = false ∧ s.drv = true := by
  decide +kernel
/-- R47: `FIND_DEVICES` after a first pass that recorded position 3 starts its second pass with `new_dev` = -1. -/
theorem test_clock_pass_starts_without_deviation :
    let s := { State.reset with
      busy := true, max := 0x04, seq := { Sequencer.idle with op := 0xA, phase := .searchWrite, pos := 63, newDev := 0x03 } }
    let t := afterSlot s
    t.seq.phase = .busReset ∧ t.seq.newDev = 0xFF ∧ t.lastDev = 0x03 ∧ t.seq.cnt = 0x01 := by decide

/-! ## One step of the machine -/

/-- V-B1 through `step`: the command word as the next input. -/
theorem test_step_runs_word :
    stepped ((onSamples [false]).withFetchWord 8 0x01) = some (after .reset (onSamples [false])) := by decide
/-- R67 through `step`: a command word while a command runs is an ignored write. -/
theorem test_step_word_while_busy :
    stepped { running with pending := [.command 0x0B] } = some (clockEdge Ports.quiet running) := by decide
/-- R94 through `step`. -/
theorem test_step_illegal_word : stepped { State.reset with pending := [.command 0x80] } =
    some { State.reset with cmd := 0x80, fail := true, err := .illegalCmd } := by decide
/-- V-E2 through `step`: `w 05 7F` as the next clock edge. -/
theorem test_step_clock_edge :
    stepped { State.reset with pending := [.clock (Ports.write 0x05 0x7F)] } =
      some { State.reset with lastDev := 0x7F } := by decide
/-- A step without input is a clock edge: the timer of the first segment counts down. -/
theorem test_step_without_input :
    (running.seq.timer, stepped running) =
      (480, some { running with seq := { running.seq with timer := 479 } }) := by decide

/-! ## Witnesses: states and operands that meet the hypotheses of the obligations -/

theorem reset_idle : Idle State.reset := by decide
theorem reset_inv : Inv State.reset :=
  ⟨by decide, List.Pairwise.nil, nofun, fun _ => reset_idle, by decide, by decide, nofun⟩
theorem running_inv : Inv running := inv_clockEdge reset_inv _

theorem witness_DecodeAndEncodeAgree :
    (Instr.matchRom true).wellFormed = true ∧ decode 0x88 = .ok (.matchRom true) := by decide
theorem witness_StepRunsDecodedCommand :
    (let s := { State.reset with pending := [.command 0x86] }
     s.pending = .command 0x86 :: [] ∧ s.busy = false ∧ decode 0x86 = .ok (.skipRom true)) ∧
    decodeTableWord 8 0x0F = some .crcCheck ∧
    (let s := { running with pending := [.command 0x86] }
     s.pending = .command 0x86 :: [] ∧ s.busy = true) ∧
    (let s := { State.reset with pending := [.clock (Ports.read 0x1F), .clock Ports.reset] }
     s.pending = .clock (Ports.read 0x1F) :: [.clock Ports.reset]) ∧
    State.reset.pending = [] ∧
    (let s := { State.reset with pending := [.environment (.scripted [])] }
     s.pending = .environment (.scripted []) :: []) := by decide
theorem witness_IllegalWordOnlySetsFailure :
    decode 0x00 = .error .reservedOpcode ∧ decode 0x10 = .error .reservedBits ∧
    decode 0x81 = .error .rstfNotTaken ∧ State.reset.busy = false ∧
    { State.reset with pending := [.command 0x81] }.pending = .command 0x81 :: [] := by decide
theorem witness_HardwareResetTakesPriority :
    (let p := { Ports.write 0x00 0x01 with rst := true }
     p.rst = true ∧ p.re = false) ∧
    (let p := { Ports.read 0x01 with rst := true }
     p.rst = true ∧ p.re = true ∧ p.we = false) ∧ running.busy = true := by decide
/-- With `BUSY` = 0, and with a command running. -/
theorem witness_StepKeepsGoodStates :
    (Inv State.reset ∧ ∃ t, step State.reset = .next t) ∧ (Inv running ∧ ∃ t, step running = .next t) :=
  ⟨⟨reset_inv, _, rfl⟩, running_inv, _, rfl⟩
theorem witness_CommandEndsIdleWithItsOwnFailure :
    Idle { State.reset with fail := true, err := .busError } := by decide
theorem witness_CausesByCommand_busError : exec .reset (onSamples [true]) =
    .next (after .reset (onSamples [true])) ∧ (after .reset (onSamples [true])).err = .busError :=
  ⟨exec_after _ _, by decide⟩
theorem witness_CausesByCommand_protocolError :
    let s := onSamples [false, true, true]
    exec .searchRom s = .next (after .searchRom s) ∧ (after .searchRom s).err = .protocolError :=
  ⟨exec_after _ _, by decide +kernel⟩
theorem witness_CausesByCommand_integrityError :
    let s := { State.reset with crc := 0x5E }
    exec .crcCheck s = .next (after .crcCheck s) ∧ (after .crcCheck s).err = .integrityError :=
  ⟨exec_after _ _, by decide⟩
theorem witness_CausesByCommand_illegalOperand :
    let s := State.reset
    exec .findDevices s = .next (after .findDevices s) ∧ (after .findDevices s).err = .illegalOperand :=
  ⟨exec_after _ _, by decide⟩
/-- One command outside every clause's list, `WRITE_BYTE`, and one in most of them. -/
theorem witness_CommandsWriteOnlyTheirRegisters :
    exec .writeByte State.reset = .next (after .writeByte State.reset) ∧
    exec .findDevices State.reset = .next (after .findDevices State.reset) :=
  ⟨exec_after _ _, exec_after _ _⟩
/-- For `SKIP_ROM`, `READ_ROM` and `MATCH_ROM`: with presence, and without. -/
theorem witness_SkipReadAndMatchRom :
    (Idle (onBus [idA]) ∧ presenceAhead (onBus [idA]) = true) ∧
    (Idle (onBus []) ∧ presenceAhead (onBus []) = false) := by decide
theorem witness_SearchWithoutPresenceFails : Idle (onSamples [true]) ∧ presenceAhead (onSamples [true]) = false := by
  decide

/-- A failing pair at position 0, and at position 63. -/
theorem witness_SearchStopsAtAFailingPair :
    (Idle (onSamples [false, true, true]) ∧ ([] : List (Bool × Bool)).length < 64 ∧ NoFailingPair [] ∧
      (onSamples [false, true, true]).line.env = .scripted (false :: (pairLevels [] ++ true :: true :: []))) ∧
    (let pairs := List.replicate 63 (false, true)
     let s := onSamples (false :: (pairLevels pairs ++ true :: true :: []))
     Idle s ∧ pairs.length < 64 ∧ NoFailingPair pairs ∧
       s.line.env = .scripted (false :: (pairLevels pairs ++ true :: true :: []))) := by decide +kernel

/-- Sixty-four pairs with one discrepancy, at position `p`. -/
def oneDiscrepancy (p : Nat) : List (Bool × Bool) :=
  List.replicate p (false, true) ++ (false, false) :: List.replicate (63 - p) (false, true)

/-- Without a discrepancy (`DONE`), and with one resolved to 0 at position 0, 8 or 63. -/
theorem witness_SearchPassFollowsTheRules :
    (let pairs := List.replicate 64 (true, false)
     let s := onSamples (false :: (pairLevels pairs ++ []))
     Idle s ∧ pairs.length = 64 ∧ NoFailingPair pairs ∧
       s.line.env = .scripted (false :: (pairLevels pairs ++ [])) ∧
       ∀ pos < 64, discrepancyAt pairs pos = true → idBit (after .searchRom s).ident pos = true) ∧
    (∀ p ∈ [0, 8, 63],
     let pairs := oneDiscrepancy p
     let s := onSamples (false :: (pairLevels pairs ++ []))
     Idle s ∧ pairs.length = 64 ∧ NoFailingPair pairs ∧
       s.line.env = .scripted (false :: (pairLevels pairs ++ [])) ∧
       p < 64 ∧ discrepancyAt pairs p = true ∧ idBit (after .searchRom s).ident p = false ∧
       ∀ q < 64, p < q → discrepancyAt pairs q = true → idBit (after .searchRom s).ident q = true) := by
  decide +kernel
theorem witness_FreshSearchIgnoresTheSeed :
    (onBus [idA, idB]).lastDev = 0xFF ∧
    exec .searchRom (onBus [idA, idB]) = .next (after .searchRom (onBus [idA, idB])) ∧
    (after .searchRom (onBus [idA, idB])).fail = false :=
  ⟨by decide, exec_after _ _, by decide +kernel⟩
theorem witness_SearchFindsAPresentDevice :
    Idle (onBus [idA, idB]) ∧ (onBus [idA, idB]).line.env = .reference (busOf [idA, idB]) ∧
    (busOf [idA, idB]).slaves ≠ [] := by decide
theorem witness_SearchOfOneDeviceIsDone :
    Idle (onBus [idA]) ∧ (onBus [idA]).line.env = .reference ⟨[device idA], true⟩ := by decide

/-- `MAX` = 0, and `MAX` = `NBUF` + 1. -/
theorem witness_FindDevicesRejectsIllegalMax :
    (Idle State.reset ∧ State.reset.max = 0) ∧
    (let s := { State.reset with max := 0x05 }
     Idle s ∧ s.params.nbuf < s.max.toNat) := by decide
/-- `MAX` = 1, the least legal value: without presence, and with a pair that reads (1, 1). -/
theorem witness_FindDevicesWhoseFirstPassFails :
    (let s := { onBus [] with max := 0x01 }
     Idle s ∧ 1 ≤ s.max.toNat ∧ s.max.toNat ≤ s.params.nbuf ∧ presenceAhead s = false) ∧
    (let s := { onSamples [false, true, true] with max := 0x01 }
     Idle s ∧ 1 ≤ s.max.toNat ∧ s.max.toNat ≤ s.params.nbuf ∧
       (after .searchRom { s with lastDev := 0xFF, ident := 0, result := .none }).fail = true) := by
  decide +kernel
/-- `MAX` = `NBUF`: the first pass fails, all passes complete, and the second pass fails after a first that stored its
identifier (R190). -/
theorem witness_FindDevicesCompletesWithinMax :
    (let s := { onBus [] with max := 0x04 }
     Idle s ∧ 1 ≤ s.max.toNat ∧ s.max.toNat ≤ s.params.nbuf ∧ (after .findDevices s).fail = true) ∧
    (let s := { onBus [idA] with max := 0x04 }
     Idle s ∧ 1 ≤ s.max.toNat ∧ s.max.toNat ≤ s.params.nbuf ∧ (after .findDevices s).fail = false) ∧
    (let s := { onSamples (false :: (pairLevels (oneDiscrepancy 8) ++ [true])) with max := 0x04 }
     Idle s ∧ 1 ≤ s.max.toNat ∧ s.max.toNat ≤ s.params.nbuf ∧ (after .findDevices s).fail = true ∧
       (after .findDevices s).count = 0x01) := by
  decide +kernel
/-- Three devices with `MAX` = 4, and with `MAX` = 2. -/
theorem witness_FindDevicesEnumeratesTheBus (m : Byte) (hm : m = 0x04 ∨ m = 0x02) :
    let s := { onBus [idA, idB, idC] with max := m }
    Idle s ∧ 1 ≤ s.max.toNat ∧ s.max.toNat ≤ s.params.nbuf ∧
      s.line.env = .reference (busOf [idA, idB, idC]) ∧ (busOf [idA, idB, idC]).slaves ≠ [] ∧
      [idC, idA, idB].Perm ((busOf [idA, idB, idC]).slaves.map Slave.ident) ∧
      [idC, idA, idB].Pairwise FoundBefore := by
  unfold FoundBefore
  rcases hm with rfl | rfl <;> decide +kernel
theorem witness_CrcDetectsSingleBitErrors : crcOfIdent idA = 0x00 ∧ 0 < 64 ∧ 63 < 64 := by decide +kernel

/-- The ends of every range of addresses in the host port statements, with `BUSY` = 0. -/
theorem witness_HostPort :
    State.reset.busy = false ∧
    (BitVec.ofNat 5 (0x08 + 0), BitVec.ofNat 5 (0x08 + 7)) = ((0x08, 0x0F) : Address × Address) ∧
    (BitVec.ofNat 5 (0x18 + 0), BitVec.ofNat 5 (0x18 + 7)) = ((0x18, 0x1F) : Address × Address) ∧
    (0x11 ≤ (0x11 : Address).toNat ∧ (0x11 : Address).toNat ≤ 0x17) ∧
    (0x11 ≤ (0x17 : Address).toNat ∧ (0x17 : Address).toNat ≤ 0x17) ∧
    0x11 ≤ (0x1F : Address).toNat ∧ ¬ 0x11 ≤ (0x10 : Address).toNat := by decide
/-- `BUFSEL` at both sides of `NBUF`. -/
theorem witness_HostReadShowsTheRegister :
    (let s := { State.reset with bufSel := 0x03 }
     s.busy = false ∧ s.bufSel.toNat < s.params.nbuf) ∧
    (let s := { State.reset with bufSel := 0x04 }
     s.busy = false ∧ ¬ s.bufSel.toNat < s.params.nbuf) := by decide
/-- For the statements about host access while a command runs. -/
theorem witness_BusyHostPort : running.busy = true := by decide
/-- The lowest and the highest opcode of a bus command. -/
theorem witness_BusCommandStartsAtItsAcceptanceEdge :
    Idle { State.reset with max := 0x04 } ∧
    (1 ≤ (Instr.op .reset).toNat ∧ (Instr.op .reset).toNat ≤ 0xA) ∧
    (1 ≤ (Instr.op .findDevices).toNat ∧ (Instr.op .findDevices).toNat ≤ 0xA) ∧
    (let s := { State.reset with max := 0x04 }
     1 ≤ s.max.toNat ∧ s.max.toNat ≤ s.params.nbuf) := by decide
/-- At one clock period a microsecond, and at 48. -/
theorem witness_ClockLevelAgreesWithCommandLevel :
    (Idle State.reset ∧ State.reset.params.wf) ∧
    (let s := { onBus [idA] with params := { ticksPerUs := 48, nbuf := 255 } }
     Idle s ∧ s.params.wf) := by decide
theorem witness_FixedDurationsAndSamples :
    (Idle (onBus [idA]) ∧ presenceAhead (onBus [idA]) = true) ∧
    (Idle (onBus []) ∧ presenceAhead (onBus []) = false) := by decide
/-- The three ways a `SEARCH_ROM` ends. -/
theorem witness_SearchDurationsAndSamples :
    (Idle (onBus []) ∧ (after .searchRom (onBus [])).err = .busError) ∧
    (Idle (onSamples [false, true, true]) ∧
      (after .searchRom (onSamples [false, true, true])).err = .protocolError) ∧
    (Idle (onBus [idA]) ∧ (after .searchRom (onBus [idA])).err = .none) := by decide +kernel
theorem witness_FindDevicesTimeBound :
    let s := { onBus [idA] with max := 0x04 }
    Idle s ∧ exec .findDevices s = .next (after .findDevices s) := ⟨by decide, exec_after _ _⟩

end Sys2Proof.Tests
end

namespace Sys2Proof.Machine

/-! ## Registers after reset (R50) -/

/-- R43, log 4: a buffer to which no command has stored anything shows free values only. -/
theorem bufByte_of_buf_nil {s : State} (h : s.buf = []) (e i : Nat) :
    bufByte s e i = Config.freeBuf s.resets (bufAddress e i) := by
  simp [bufByte, h, Memory.read]

/-- R27: with every flag clear, no search result and `CRC` = 0x00, only `CRCZ` (bit 3) of `STATUS` is set. -/
theorem statusByte_of_flags_clear {s : State} (hbusy : s.busy = false) (hpresent : s.present = false)
    (hfail : s.fail = false) (hresult : s.result = .none) (hcrc : s.crc = 0x00) :
    statusByte s = 0x08 := by
  simp [statusByte, crcz, resultCode, hbusy, hpresent, hfail, hresult, hcrc]

/-- R33: without a cause `ERR` reads 0x00. -/
theorem errByte_of_err_none {s : State} (h : s.err = .none) : errByte s = 0x00 := by
  simp [errByte, causeCode, h]

/-- Settles O7: the plain registers are the fields of `State.reset`; `STATUS`, `ERR` and `BUF` are read off the cleared
flags, the cleared cause and the empty buffer. -/
theorem resetLeavesTheStatedValues : Obligations.ResetLeavesTheStatedValues := by
  have hstatus : statusByte State.reset = 0x08 := statusByte_of_flags_clear rfl rfl rfl rfl rfl
  have herr : errByte State.reset = 0x00 := errByte_of_err_none rfl
  exact ⟨rfl, rfl, rfl, rfl, rfl, rfl, hstatus, herr, rfl, rfl, rfl, rfl, rfl, rfl, rfl, rfl, rfl, rfl,
    bufByte_of_buf_nil rfl⟩

end Sys2Proof.Machine

namespace Sys2Proof.Machine

/-! ## What `CMD` holds after a host write to it (R26, R120) -/

/-- R90, R93: a legal command word is the encoding of the command it decodes to, over all 256 words. -/
theorem encode_of_decode_ok {w : Byte} {i : Instr} (h : decode w = .ok i) : encode i = w := by
  have all : ∀ w : Byte, (match decode w with | .ok i => encode i | .error _ => w) = w := by decide
  simpa [h] using all w

@[simp] theorem startSlot_cmd (s : State) : (startSlot s).cmd = s.cmd := by rw [startSlot_eq]

@[simp] theorem enter_cmd (ph : Phase) (s : State) : (enter ph s).cmd = s.cmd := startSlot_cmd _

@[simp] theorem enterByte_cmd (ph : Phase) (v : Byte) (s : State) : (enterByte ph v s).cmd = s.cmd := enter_cmd _ _

@[simp] theorem enterPass_cmd (s : State) : (enterPass s).cmd = s.cmd := enter_cmd _ _

@[simp] theorem checkCrc_cmd (s : State) : (checkCrc s).cmd = s.cmd := by
  rw [checkCrc]; split <;> simp

@[simp] theorem startBusCommand_cmd (i : Instr) (s : State) : (startBusCommand i s).cmd = s.cmd := by
  cases i with
  | skipRom r => cases r <;> simp [startBusCommand]
  | readRom r => cases r <;> simp [startBusCommand]
  | matchRom r => cases r <;> simp [startBusCommand]
  | _ => simp [startBusCommand]

/-- R26: `CMD` holds the word of the accepted command, whatever its effect at this edge. -/
@[simp] theorem acceptCommand_cmd (i : Instr) (s : State) : (acceptCommand i s).cmd = encode i := by
  cases i with
  | findDevices => rw [acceptCommand]; split <;> simp
  | _ => simp [acceptCommand, crcIdCommand, crcCheckCommand]

/-- R26, R94: a word written to `CMD` is kept there, legal or not. -/
theorem acceptWord_cmd (w : Byte) (s : State) : (acceptWord w s).cmd = w := by
  rw [acceptWord]
  split
  · next i hi => rw [acceptCommand_cmd, encode_of_decode_ok hi]
  · exact illegalWord_cmd w s

/-! ## What a host write does at each kind of address (R25, R62) -/

/-- The registers that a host write leaves as they are: the read-only and the reserved ones (R62). -/
def Register.readOnly : Register → Bool
  | .status | .err | .crc | .count | .reserved | .window _ => true
  | .cmd | .data | .lastDev | .max | .ident _ | .bufSel => false

theorem registerAt_readOnly : ∀ a : Address,
    (a = 0x01 ∨ a = 0x02 ∨ a = 0x04 ∨ a = 0x07 ∨ 0x11 ≤ a.toNat) → (registerAt a).readOnly = true := by decide

theorem registerAt_ident : ∀ i < 8, registerAt (BitVec.ofNat 5 (0x08 + i)) = .ident i := by decide

theorem writeRegister_readOnly {r : Register} (h : r.readOnly = true) (v : Byte) (s : State) :
    writeRegister v s r = s := by
  cases r with
  | cmd | data | lastDev | max | ident _ | bufSel => cases h
  | _ => rfl

/-- A host write to an address other than that of `CMD` is a write to the register there. -/
theorem hostWrite_of_registerAt {a : Address} {r : Register} (ha : registerAt a = r) (hr : r ≠ .cmd)
    (v : Byte) (s : State) : hostWrite a v s = writeRegister v s r := by
  rw [hostWrite, ha]
  cases r with
  | cmd => exact absurd rfl hr
  | _ => rfl

theorem hostWrite_readOnly {a : Address} (h : (registerAt a).readOnly = true) (v : Byte) (s : State) :
    hostWrite a v s = s :=
  (hostWrite_of_registerAt rfl (fun hc => by rw [hc] at h; cases h) v s).trans (writeRegister_readOnly h v s)

theorem hostWrite_ident {i : Nat} (hi : i < 8) (v : Byte) (s : State) :
    hostWrite (BitVec.ofNat 5 (0x08 + i)) v s = { s with ident := setIdByte s.ident i v } :=
  hostWrite_of_registerAt (registerAt_ident i hi) nofun v s

/-! ## The read port of an edge with a host write (R22, R64) -/

theorem readPort_of_not_re {p : Ports} (h : p.re = false) (s : State) : readPort p s = 0x00 := by
  rw [readPort, h]; rfl

/-- R64: the read port and the count of reads are latched before the write is performed, so the edge with the write shows
what `latchRead` has left there. -/
theorem latchRead_eq_of_write {p : Ports} {s : State} (hr : p.rst = false) (hb : s.busy = false) (hw : p.we = true) :
    latchRead p s = { s with
      hRdata := if p.re then (clockEdge p s).hRdata else 0x00
      reads := if p.re then (clockEdge p s).reads else s.reads } := by
  rw [clockEdge_write_port hr hb hw, latchRead]
  cases h : p.re with
  | false => rw [readPort_of_not_re h]; rfl
  | true => rfl

/-- Settles O41: the port is latched first (`kept`), then the write is performed on that state (`hwr`); what it does is
read off the register at the address. -/
theorem hostWriteStoresTheByte : Obligations.HostWriteStoresTheByte := by
  intro s v re hb wr kept
  have hkept (a : Address) : latchRead { Ports.write a v with re := re } s = kept a :=
    latchRead_eq_of_write rfl hb rfl
  have hwr (a : Address) : wr a = hostWrite a v (kept a) :=
    hkept a ▸ clockEdge_write rfl hb rfl
  have hreg {a : Address} {r : Register} (ha : registerAt a = r) (hr : r ≠ .cmd) :
      wr a = writeRegister v (kept a) r := (hwr a).trans (hostWrite_of_registerAt ha hr v _)
  refine ⟨fun a => ?_, ?_, hreg (r := .data) rfl nofun, hreg (r := .lastDev) rfl nofun, hreg (r := .max) rfl nofun,
    hreg (r := .bufSel) rfl nofun, fun i hi => ?_, fun a ha => ?_⟩
  · rw [clockEdge_write_port (p := Ports.write a v) rfl hb rfl, ← hkept a]
    exact clockEdge_write_port rfl hb rfl
  · rw [hwr 0x00]
    exact acceptWord_cmd v _
  · intro a
    have hid : wr a = { kept a with ident := setIdByte s.ident i v } := (hwr a).trans (hostWrite_ident hi v _)
    refine ⟨by rw [hid], ?_, fun j hj hne => ?_⟩
    · rw [hid]
      exact (idByte_setIdByte s.ident hi v hi).trans (if_pos rfl)
    · rw [hid]
      exact (idByte_setIdByte s.ident hi v hj).trans (if_neg hne)
  · exact (hwr a).trans (hostWrite_readOnly (registerAt_readOnly a ha) v _)

/-- Settles O42: either edge is one `tick` of the running command (`clockEdge_busy_port`), and only the read port shows
the host access. -/
theorem writesWhileBusyAreIgnored : Obligations.WritesWhileBusyAreIgnored := by
  intro s a v re hb wr without
  have hwithout : without = (tick s).withPort 0x00 s.reads := clockEdge_busy_port rfl hb
  have hwr : wr = (tick s).withPort (readPort { Ports.write a v with re := re } s)
      (if re then s.reads + 1 else s.reads) :=
    clockEdge_busy_port rfl hb
  rw [hwithout]
  refine ⟨rfl, ?_⟩
  rw [hwr]
  cases re <;> rfl

end Sys2Proof.Machine

namespace Sys2Proof

/-! ## Which command words the decoder accepts (R91 to R93) -/

/-- R91: every opcode but 0x0 stands for a command, with either `RSTF` bit. -/
theorem exists_instrOfOp_eq_some_iff (op : BitVec 4) (rstf : Bool) :
    (∃ i, instrOfOp op rstf = some i) ↔ op ≠ 0 := by
  rw [← Option.isSome_iff_exists]
  revert op rstf
  decide

theorem takesRstf_iff (op : BitVec 4) : takesRstf op = true ↔ op = 6 ∨ op = 7 ∨ op = 8 := by
  simp [takesRstf, or_assoc]

/-- The decoder answers with the command of the opcode unless the reserved bits or `RSTF` forbid it (R92, R93). -/
theorem decodeFields_eq_ok_iff (c : CommandFields) (i : Instr) :
    decodeFields c = .ok i ↔
      c.reserved = 0 ∧ instrOfOp c.op c.rstf = some i ∧ (c.rstf = false ∨ takesRstf c.op = true) := by
  by_cases hreserved : c.reserved = 0
  · rw [decodeFields, if_neg (not_not_intro hreserved)]
    cases instrOfOp c.op c.rstf with
    | none => simp
    | some j => cases c.rstf <;> cases takesRstf c.op <;> simp [hreserved]
  · rw [decodeFields, if_pos hreserved]
    simp [show c.reserved ≠ 0#3 from hreserved]

/-- Settles O1: the opcode has a command exactly when it is not 0x0; the other two conditions of R93 are the decoder's own
checks. -/
theorem legalWordsAreExactlyThose : Obligations.LegalWordsAreExactlyThose := by
  intro w
  simp only [decode, decodeFields_eq_ok_iff, exists_and_left, exists_and_right, exists_instrOfOp_eq_some_iff,
    takesRstf_iff]
  rfl

end Sys2Proof

namespace Sys2Proof.Machine

/-! ## Acceptance of an illegal command word (R94, R247) -/

theorem acceptWord_of_decode_error {w : Byte} {e : DecodeError} (h : decode w = .error e) (s : State) :
    acceptWord w s = illegalWord w s := by
  rw [acceptWord, h]

theorem runCommand_of_decode_error {w : Byte} {e : DecodeError} {s : State} (h : decode w = .error e)
    (hb : s.busy = false) : runCommand w s = .next (illegalWord w { s with hRdata := 0x00 }) := by
  simp [runCommand, hb, h]

/-- At command level a step whose next input is a command word runs that word (log 1). -/
theorem step_of_pending_command {s : State} {w : Byte} {rest : List Input} (h : s.pending = .command w :: rest) :
    step s = runCommand w { s with pending := rest } := by
  rw [step, takeInput, h]

/-- A host write to `CMD` while no command runs is the acceptance of the word, with `h_rdata` at 0x00 (R22, R26). -/
theorem clockEdge_write_cmd {s : State} (hb : s.busy = false) (w : Byte) :
    clockEdge (Ports.write 0x00 w) s = acceptWord w { s with hRdata := 0x00 } :=
  clockEdge_write rfl hb rfl

/-- Settles O5: at either level the decoder refuses the word, and `illegalWord` is the whole effect. -/
theorem illegalWordOnlySetsFailure : Obligations.IllegalWordOnlySetsFailure := by
  intro s w e hw hb
  refine ⟨fun rest hpending => ?_, ?_⟩
  · exact (step_of_pending_command hpending).trans (runCommand_of_decode_error hw hb)
  · exact (clockEdge_write_cmd hb w).trans (acceptWord_of_decode_error hw _)

end Sys2Proof.Machine

namespace Sys2Proof.Machine

/-! ## What the end of a command leaves when the block was idle (R45, R46, R120, R246) -/

/-- An idle block already holds what the end of a command writes. -/
theorem finish_of_idle {s : State} (h : Idle s) : finish s = s := by
  cases s
  obtain ⟨rfl, rfl, rfl⟩ := h
  rfl

/-- In an idle block a failure leaves its cause and `FAIL`, nothing else. -/
theorem raise_of_idle {s : State} (h : Idle s) (c : Cause) : raise c s = { s with fail := true, err := c } :=
  finish_of_idle h

/-! ## Bus Signal commands from an idle state (R121 to R129) -/

/-- R124: one write slot delivers its bit and leaves its waveform. -/
theorem sentBits_singleton (b : Bool) (l : Line) :
    sentBits [b] l =
      { env := l.env.afterWrite b, wire := writeSlotWire b ++ l.wire, samples := l.samples } := by
  simp [sentBits]

/-- Settles O14: the sample decides between the end of the command and `BUS_ERROR`. -/
theorem resetReportsPresence : Obligations.ResetReportsPresence := by
  intro s hidle
  cases hlevel : s.line.level .presence with
  | false =>
    rw [exec_reset_present hlevel, finish_of_idle]
    · rfl
    · exact hidle
  | true =>
    rw [exec_reset_absent hlevel, raise_of_idle]
    · rfl
    · exact hidle

/-- Settles O15: the command is the one slot of `DATA[0]`, whose two waveforms are `writeSlotWire`. -/
theorem writeBitSendsOneSlot : Obligations.WriteBitSendsOneSlot := by
  intro s hidle
  rw [exec_writeBit, finish_of_idle, sentBits_singleton]
  · rfl
  · exact hidle

/-- Settles O16: the command is one read slot, and the zero extension of a bit is 0x01 or 0x00. -/
theorem readBitGivesTheSampledLevel : Obligations.ReadBitGivesTheSampledLevel := by
  intro s hidle
  rw [exec_readBit, finish_of_idle, zextBit_eq]
  · rfl
  · exact hidle

end Sys2Proof.Machine

namespace Sys2Proof.Machine

/-! ## Byte Framer commands from an idle state (R141 to R145) -/

/-- Settles O17: the command's eight write slots are `sentBits` of `byteBits`, and its end changes nothing in an idle
block. -/
theorem writeByteSendsLeastSignificantFirst : Obligations.WriteByteSendsLeastSignificantFirst := by
  intro s hidle
  rw [exec_writeByte, finish_of_idle]
  · rfl
  · exact hidle

/-- Settles O18: the byte left in `DATA` is the one `ReadByte()` assembles, whose bits `readByte_eq` gives. -/
theorem readByteAssemblesLeastSignificantFirst : Obligations.ReadByteAssemblesLeastSignificantFirst := by
  intro s hidle
  obtain ⟨-, hbits⟩ := readByte_eq s.line
  refine ⟨(readByte s.line).1, hbits, ?_⟩
  rw [exec_readByte, finish_of_idle]
  · rfl
  · exact hidle

end Sys2Proof.Machine

namespace Sys2Proof.Machine

/-! ## ROM commands from an idle state (R150 to R155) -/

/-- R121: presence ahead is a low presence sample. -/
theorem level_presence_of_presenceAhead {s : State} {b : Bool} (h : presenceAhead s = b) :
    s.line.level .presence = !b := by
  rw [← h, presenceAhead, Bool.not_not]

/-- R120, R150: a ROM command that an idle block ends in its prologue leaves its word, the missing presence, the failure
and the reset sequence; every other register, the identifier among them, is unchanged. -/
theorem exec_rom_absent_of_idle {s : State} (hidle : Idle s) (h : presenceAhead s = false) (i : Instr)
    (hi : i = .skipRom true ∨ i = .readRom true ∨ i = .matchRom true) :
    exec i s = .next { s with
      cmd := encode i, present := false, fail := true, err := .busError, line := lineAfterReset s.line } := by
  rw [exec_rom_absent (level_presence_of_presenceAhead h) i hi, raise_of_idle]
  · rfl
  · exact hidle

/-- R91, R92: the two command words of `SKIP_ROM`. -/
theorem encode_skipRom (rstf : Bool) : encode (.skipRom rstf) = if rstf then 0x86 else 0x06 := by
  cases rstf <;> rfl

/-- R91, R92: the two command words of `READ_ROM`. -/
theorem encode_readRom (rstf : Bool) : encode (.readRom rstf) = if rstf then 0x87 else 0x07 := by
  cases rstf <;> rfl

/-- R91, R92: the two command words of `MATCH_ROM`. -/
theorem encode_matchRom (rstf : Bool) : encode (.matchRom rstf) = if rstf then 0x88 else 0x08 := by
  cases rstf <;> rfl

/-- Settles O19: past its prologue the command is the eight write slots of 0xCC; without presence it is its prologue. -/
theorem skipRomSendsItsByte : Obligations.SkipRomSendsItsByte := by
  intro s hidle
  refine ⟨fun rstf hpresent => ?_, fun habsent => exec_rom_absent_of_idle hidle habsent _ (.inl rfl)⟩
  rw [exec_skipRom (fun hr => level_presence_of_presenceAhead (hpresent hr)), encode_skipRom, finish_of_idle]
  · rfl
  · exact hidle

/-- Settles O20: the identifier is the one the eight bytes received make up, whose bits `readIdent_eq` gives; without
presence the command is its prologue. -/
theorem readRomFillsTheIdentifier : Obligations.ReadRomFillsTheIdentifier := by
  intro s hidle
  refine ⟨fun rstf hpresent => ?_, fun habsent => exec_rom_absent_of_idle hidle habsent _ (.inr (.inl rfl))⟩
  intro l
  obtain ⟨-, hbits⟩ := readIdent_eq s.ident l
  refine ⟨(readIdent s.ident l).1, hbits, ?_⟩
  rw [exec_readRom (fun hr => level_presence_of_presenceAhead (hpresent hr)), encode_readRom, finish_of_idle]
  · rfl
  · exact hidle

/-- Settles O21: past its prologue the command is the write slots of 0x55 and of the 64 identifier bits; without presence
it is its prologue. -/
theorem matchRomSendsTheIdentifier : Obligations.MatchRomSendsTheIdentifier := by
  intro s hidle
  refine ⟨fun rstf hpresent => ?_, fun habsent => exec_rom_absent_of_idle hidle habsent _ (.inr (.inr rfl))⟩
  rw [exec_matchRom (fun hr => level_presence_of_presenceAhead (hpresent hr)), encode_matchRom, finish_of_idle]
  · rfl
  · exact hidle

end Sys2Proof.Machine

namespace Sys2Proof.Machine

/-! ## The Search Engine commands of one step, and enumeration that does not start (R172, R188, R191, R203) -/

/-- R120, R172: `SEARCH_INIT` is its acceptance and the initial search state. -/
theorem exec_searchInit (s : State) : exec .searchInit s = .next (searchInit (accept 0x0B s)) := rfl

/-- R120, R203: `CRC_CLEAR` is its acceptance and the start value of the register. -/
theorem exec_crcClear (s : State) : exec .crcClear s = .next (crcClearCommand (accept 0x0C s)) := rfl

/-- The two ways a `SEARCH_ROM` fails: at its reset sequence, or at a pair that reads (1, 1) (R174, R175, R180). -/
theorem exec_searchRom_failure_cases {s t : State} (he : exec .searchRom s = .next t) (hfail : t.fail = true) :
    (s.line.level .presence = true ∧
      t = raise .busError
        { accept 0x09 s with present := false, result := .failed, line := lineAfterReset s.line }) ∨
    (s.line.level .presence = false ∧ (passWalk s).failed = true ∧
      t = raise .protocolError
        { accept 0x09 s with
          present := true, result := .failed, ident := (passWalk s).ident, line := (passWalk s).line }) := by
  cases ran_of_exec he with
  | searchAbsent hlevel => exact .inl ⟨hlevel, rfl⟩
  | searchFails w hlevel hw hf => exact .inr ⟨hlevel, hw ▸ hf, by rw [hw]⟩
  | searchCompletes => cases hfail
  | romAbsent _ hi => rcases hi with hi | hi | hi <;> cases hi

/-- R175, R181: a `SEARCH_ROM` that fails stores nothing in `BUF`, reports `FAILED`, and has one of the two causes of a
pass. -/
theorem exec_searchRom_failed {s t : State} (he : exec .searchRom s = .next t) (hfail : t.fail = true) :
    t.buf = s.buf ∧ t.result = .failed ∧ (t.err = .busError ∨ t.err = .protocolError) := by
  rcases exec_searchRom_failure_cases he hfail with ⟨-, rfl⟩ | ⟨-, -, rfl⟩
  · exact ⟨rfl, rfl, .inl rfl⟩
  · exact ⟨rfl, rfl, .inr rfl⟩

/-- R188: with a legal `MAX`, a `SEARCH_ROM` that fails from the initial search state is the whole of `FIND_DEVICES` but
for the word in `CMD` and `COUNT`. The loop's first pass is that `SEARCH_ROM`'s pass: the two states before it differ in
the accepted word only, on which no pass depends (`passWalk_accept`). -/
theorem exec_findDevices_of_searchRom_failed {s t : State} (h1 : 1 ≤ s.max.toNat) (h2 : s.max.toNat ≤ s.params.nbuf)
    (he : exec .searchRom (searchInit s) = .next t) (hfail : t.fail = true) :
    exec .findDevices s = .next { t with cmd := 0x0A, count := 0 } := by
  obtain ⟨left, hleft⟩ : ∃ left, s.max.toNat = left + 1 := ⟨s.max.toNat - 1, by omega⟩
  let first : State := searchInit (accept 0x0A s)
  have hwalk : passWalk first = passWalk (searchInit s) := passWalk_accept 0x0A (searchInit s)
  rw [exec_findDevices_legal h1 h2, hleft]
  rcases exec_searchRom_failure_cases he hfail with ⟨hlevel, rfl⟩ | ⟨hlevel, hfailed, rfl⟩
  · rw [enumerate_absent left 0 (s := first) hlevel]
    rfl
  · rw [enumerate_fails left 0 (s := first) hlevel (hwalk ▸ hfailed), hwalk]
    generalize passWalk (searchInit s) = w
    rfl

/-- Settles O30: the failing first pass is the failing `SEARCH_ROM`; without presence that one is a single reset
sequence, and its end changes nothing else in an idle block. -/
theorem findDevicesWhoseFirstPassFails : Obligations.FindDevicesWhoseFirstPassFails := by
  intro s hidle h1 h2
  refine ⟨fun t he hfail => ⟨exec_findDevices_of_searchRom_failed h1 h2 he hfail,
    exec_searchRom_failed (s := searchInit s) he hfail⟩, fun habsent => ?_⟩
  have hlevel : (searchInit s).line.level .presence = true := level_presence_of_presenceAhead habsent
  rw [exec_findDevices_of_searchRom_failed h1 h2 (exec_searchRom_absent hlevel) rfl, raise_of_idle]
  · rfl
  · exact hidle

/-- Settles O29: either way `MAX` is not legal, so the command is its acceptance and the failure of an idle block. -/
theorem findDevicesRejectsIllegalMax : Obligations.FindDevicesRejectsIllegalMax := by
  intro s hidle hmax
  have hillegal : ¬ (1 ≤ s.max.toNat ∧ s.max.toNat ≤ s.params.nbuf) := by
    rcases hmax with hzero | habove
    · simp [hzero]
    · omega
  rw [exec_findDevices_illegal hillegal, raise_of_idle]
  · rfl
  · exact hidle

/-- Settles O33: each command writes the fields stated over the state its acceptance leaves. -/
theorem searchInitAndCrcClear : Obligations.SearchInitAndCrcClear :=
  fun s _ => ⟨exec_searchInit s, exec_crcClear s⟩

end Sys2Proof.Machine

namespace Sys2Proof.Machine

/-! ## The CRC register test from an idle state (R206) -/

/-- Settles O36: a zero register leaves the acceptance of the word alone, a nonzero one the failure of an idle block. -/
theorem crcCheckTestsTheRegister : Obligations.CrcCheckTestsTheRegister := by
  intro s hidle
  rw [exec_crcCheck]
  by_cases hcrc : s.crc = 0x00
  · simp only [if_pos hcrc, decide_eq_false (not_not_intro hcrc)]
    rfl
  · rw [if_neg hcrc, if_neg hcrc, decide_eq_true hcrc, raise_of_idle]
    · rfl
    · exact hidle

end Sys2Proof.Machine

namespace Sys2Proof

/-! ## The command words (R90, R91) -/

/-- R90 to R94: what `Laws.CommandWord` says of each constructor, of every instruction. -/
theorem commandWord_statement (i : Instr) : Laws.CommandWord.Statement i := by
  cases i with
  | reset => exact Laws.CommandWord.reset
  | writeBit => exact Laws.CommandWord.writeBit
  | readBit => exact Laws.CommandWord.readBit
  | writeByte => exact Laws.CommandWord.writeByte
  | readByte => exact Laws.CommandWord.readByte
  | skipRom rstf => exact Laws.CommandWord.skipRom rstf
  | readRom rstf => exact Laws.CommandWord.readRom rstf
  | matchRom rstf => exact Laws.CommandWord.matchRom rstf
  | searchRom => exact Laws.CommandWord.searchRom
  | findDevices => exact Laws.CommandWord.findDevices
  | searchInit => exact Laws.CommandWord.searchInit
  | crcClear => exact Laws.CommandWord.crcClear
  | crcUpdate => exact Laws.CommandWord.crcUpdate
  | crcId => exact Laws.CommandWord.crcId
  | crcCheck => exact Laws.CommandWord.crcCheck

/-- R90, R93: the word of a command decodes to it. -/
theorem decode_encode (i : Instr) : decode (encode i) = .ok i := by
  obtain ⟨-, -, -, -, -, hdecode⟩ := commandWord_statement i
  exact hdecode

/-- Settles O2: the law of each command word, and the other direction over all 256 words. -/
theorem decodeAndEncodeAgree : Obligations.DecodeAndEncodeAgree :=
  ⟨fun i _ => decode_encode i, fun _ _ h => Machine.encode_of_decode_ok h⟩

/-- Settles O3: each word of the table is the encoding of its command. -/
theorem opcodeMapWords : Obligations.OpcodeMapWords :=
  ⟨decode_encode .reset, decode_encode .writeBit, decode_encode .readBit, decode_encode .writeByte,
    decode_encode .readByte, decode_encode (.skipRom false), decode_encode (.skipRom true),
    decode_encode (.readRom false), decode_encode (.readRom true), decode_encode (.matchRom false),
    decode_encode (.matchRom true), decode_encode .searchRom, decode_encode .findDevices,
    decode_encode .searchInit, decode_encode .crcClear, decode_encode .crcUpdate, decode_encode .crcId,
    decode_encode .crcCheck⟩

/-- A table word that decodes is one byte, and `decode` reads the same command from it. -/
theorem decode_of_decodeTableWord {nbits w : Nat} {i : Instr} (h : decodeTableWord nbits w = some i) :
    decode (BitVec.ofNat 8 w) = .ok i := by
  unfold decodeTableWord at h
  split at h
  · split at h
    · next j hj => rw [hj, Option.some.inj h]
    · cases h
  · cases h

end Sys2Proof

namespace Sys2Proof.Machine

/-! ## One step by its next input (R20, R26, R296; log 1) -/

/-- Without an input a step is the clock edge without host access. -/
theorem step_of_pending_nil {s : State} (h : s.pending = []) : step s = .next (clockEdge Ports.quiet s) := by
  rw [step, takeInput, h]

theorem step_of_pending_clock {s : State} {p : Ports} {rest : List Input} (h : s.pending = .clock p :: rest) :
    step s = .next (clockEdge p { s with pending := rest }) := by
  rw [step, takeInput, h]

/-- A new environment takes the place of the old one (R85, R185; log 18). -/
theorem step_of_pending_environment {s : State} {e : Environment} {rest : List Input}
    (h : s.pending = .environment e :: rest) :
    step s = .next { s with pending := rest, line := { s.line with env := e } } := by
  rw [step, takeInput, h]

/-- R67: a command word while a command runs is one edge of that command, with a write that is ignored. -/
theorem runCommand_of_busy {s : State} (hb : s.busy = true) (w : Byte) :
    runCommand w s = .next (clockEdge (Ports.write 0x00 w) s) := by
  rw [runCommand, if_pos hb]

/-- R105, R296: a legal word in an idle block runs its command whole. -/
theorem runCommand_of_decode_ok {w : Byte} {i : Instr} {s : State} (h : decode w = .ok i) (hb : s.busy = false) :
    runCommand w s = exec i { s with hRdata := 0x00 } := by
  simp [runCommand, hb, h]

/-- Settles O4: each kind of input has its own equation of `step`; a word placed by `withFetchWord` is a command word in
an idle block. -/
theorem stepRunsDecodedCommand : Obligations.StepRunsDecodedCommand := by
  refine ⟨fun s w rest i hpending hb hw => ?_, fun s nbits w i hw => ?_, fun s w rest hpending hb => ?_,
    fun s p rest => step_of_pending_clock, fun s => step_of_pending_nil, fun s e rest => step_of_pending_environment⟩
  · exact (step_of_pending_command hpending).trans (runCommand_of_decode_ok hw hb)
  · exact (step_of_pending_command (s := s.withFetchWord nbits w) rfl).trans
      (runCommand_of_decode_ok (decode_of_decodeTableWord hw) rfl)
  · exact (step_of_pending_command hpending).trans (runCommand_of_busy (s := { s with pending := rest }) hb w)

/-- R105, R240: a command word answers a next state, whatever the word and the state. -/
theorem runCommand_goes_on (w : Byte) (s : State) : ∃ t, runCommand w s = .next t := by
  cases hb : s.busy with
  | true => exact ⟨_, runCommand_of_busy hb w⟩
  | false =>
    cases hw : decode w with
    | error e => exact ⟨_, runCommand_of_decode_error hw hb⟩
    | ok i =>
      obtain ⟨t, ht, -⟩ := exec_ran i { s with hRdata := 0x00 }
      exact ⟨t, (runCommand_of_decode_ok hw hb).trans ht⟩

/-- Settles O6: every kind of input has a next state. -/
theorem everyStepGoesOn : Obligations.EveryStepGoesOn := by
  intro s
  cases hpending : s.pending with
  | nil => exact ⟨_, step_of_pending_nil hpending⟩
  | cons input rest =>
    cases input with
    | clock p => exact ⟨_, step_of_pending_clock hpending⟩
    | environment e => exact ⟨_, step_of_pending_environment hpending⟩
    | command w =>
      obtain ⟨t, ht⟩ := runCommand_goes_on w { s with pending := rest }
      exact ⟨t, (step_of_pending_command hpending).trans ht⟩

/-! ## The invariant -/

/-- Settles O9: after reset the block is idle, its buffer is empty and no cause is recorded. -/
theorem resetStateIsGood : Obligations.ResetStateIsGood :=
  inv_idle ⟨by decide, List.Pairwise.nil, nofun⟩ ⟨rfl, rfl, rfl⟩ (by decide)

/-- The invariant says nothing of the inputs, the line and the read port. -/
theorem inv_withInputs {s : State} (h : Inv s) (rest : List Input) (l : Line) (x : Byte) :
    Inv { s with pending := rest, line := l, hRdata := x } :=
  ⟨h.params, h.bufWf, h.bufRange, h.idle, h.failCause, h.runningClear, fun hb =>
    let r := h.running hb
    ⟨r.phase, r.op, r.command, r.bytes, r.seg, r.drv, r.timer, r.newDev, r.passStart, r.cnt⟩⟩

/-- A command word keeps the invariant: as an edge of the running command, as a whole command, or as an illegal word. -/
theorem inv_runCommand {s t : State} {w : Byte} (h : Inv s) (ht : runCommand w s = .next t) : Inv t := by
  have hport : Inv { s with hRdata := 0x00 } := inv_withInputs h s.pending s.line 0x00
  cases hb : s.busy with
  | true =>
    rw [runCommand_of_busy hb] at ht
    exact Host.Outcome.next.inj ht ▸ inv_clockEdge h _
  | false =>
    cases hw : decode w with
    | error e =>
      rw [runCommand_of_decode_error hw hb] at ht
      exact Host.Outcome.next.inj ht ▸ inv_illegalWord hport hb w
    | ok i =>
      rw [runCommand_of_decode_ok hw hb] at ht
      exact inv_exec hport hb ht

/-- Settles O10: the input taken does not touch the invariant, and each kind of input keeps it: a clock edge by
`inv_clockEdge`, a command word by `inv_runCommand`. -/
theorem stepKeepsGoodStates : Obligations.StepKeepsGoodStates := by
  intro s t h ht
  cases hpending : s.pending with
  | nil =>
    rw [step_of_pending_nil hpending] at ht
    exact Host.Outcome.next.inj ht ▸ inv_clockEdge h _
  | cons input rest =>
    have htaken : Inv { s with pending := rest } := inv_withInputs h rest s.line s.hRdata
    cases input with
    | clock p =>
      rw [step_of_pending_clock hpending] at ht
      exact Host.Outcome.next.inj ht ▸ inv_clockEdge htaken p
    | environment e =>
      rw [step_of_pending_environment hpending] at ht
      exact Host.Outcome.next.inj ht ▸ inv_withInputs h rest { s.line with env := e } s.hRdata
    | command w =>
      rw [step_of_pending_command hpending] at ht
      exact inv_runCommand htaken ht

end Sys2Proof.Machine

namespace Sys2Proof.Machine

/-! ## What a clock edge leaves on the read port (R22, R63, R68) -/

/-- R22, R63: whatever the edge does, `h_rdata` is what the port showed in the period that the edge ends. -/
theorem clockEdge_hRdata (p : Ports) (s : State) : (clockEdge p s).hRdata = readPort p s := by
  cases hr : p.rst with
  | true => rw [clockEdge_rst hr]
  | false =>
    cases hb : s.busy with
    | true => rw [clockEdge_busy_port hr hb]; rfl
    | false =>
      cases hw : p.we with
      | true => rw [clockEdge_write_port hr hb hw]; rfl
      | false => rw [clockEdge_noWrite hr hb hw]; rfl

/-- R63, R68: a read alone shows the register, or the unspecified byte of a read while a command runs. -/
theorem readPort_of_read {p : Ports} (hre : p.re = true) (hwe : p.we = false) (s : State) :
    readPort p s =
      if s.busy then busyRead (Config.freeRead s.reads) (registerAt p.addr) else readRegister s (registerAt p.addr) := by
  simp [readPort, hre, hwe]

/-- R63: while `BUSY` = 0 a read shows the register at the address. -/
theorem hRdata_of_read {s : State} (hb : s.busy = false) (a : Address) :
    (clockEdge (Ports.read a) s).hRdata = readRegister s (registerAt a) := by
  rw [clockEdge_hRdata, readPort_of_read rfl rfl, hb]
  rfl

/-! ## The fields of `STATUS` and `ERR` (R27, R33) -/

/-- R27: the fields of `STATUS` at their bits. -/
theorem statusByte_fields (s : State) :
    (statusByte s).getLsbD 0 = s.busy ∧ (statusByte s).getLsbD 1 = s.present ∧ (statusByte s).getLsbD 2 = s.fail ∧
    (statusByte s).getLsbD 3 = crcz s ∧ (statusByte s).extractLsb' 4 2 = resultCode s.result ∧
    (statusByte s).extractLsb' 6 2 = 0 := by
  have fields : ∀ (r : BitVec 2) (c f p b : Bool),
      let v : Byte := 0#2 ++ r ++ BitVec.ofBool c ++ BitVec.ofBool f ++ BitVec.ofBool p ++ BitVec.ofBool b
      v.getLsbD 0 = b ∧ v.getLsbD 1 = p ∧ v.getLsbD 2 = f ∧ v.getLsbD 3 = c ∧ v.extractLsb' 4 2 = r ∧
      v.extractLsb' 6 2 = 0 := by decide
  exact fields _ _ _ _ _

/-- R33: `CAUSE` in bits 2 to 0 of `ERR`, the rest 0. -/
theorem errByte_fields (s : State) :
    (errByte s).extractLsb' 0 3 = causeCode s.err ∧ (errByte s).extractLsb' 3 5 = 0 := by
  have fields : ∀ c : BitVec 3, (0#5 ++ c).extractLsb' 0 3 = c ∧ (0#5 ++ c).extractLsb' 3 5 = 0 := by decide
  exact fields _

/-- R68, log 5: `STATUS` while a command runs, whatever the free byte is. -/
theorem busyRead_status (free : Byte) :
    (busyRead free .status).getLsbD 0 = true ∧ (busyRead free .status).extractLsb' 6 2 = 0 := by
  have fields : ∀ x : BitVec 5, let v : Byte := 0#2 ++ x ++ 1#1
      v.getLsbD 0 = true ∧ v.extractLsb' 6 2 = 0 := by decide
  exact fields _

theorem registerAt_reserved :
    ∀ a : Address, 0x11 ≤ a.toNat → a.toNat ≤ 0x17 → registerAt a = .reserved := by decide

theorem registerAt_window : ∀ i < 8, registerAt (BitVec.ofNat 5 (0x18 + i)) = .window i := by decide

/-- Settles O39: a read shows the register at its address (`hRdata_of_read`), and the composed registers show their
fields. -/
theorem hostReadShowsTheRegister : Obligations.HostReadShowsTheRegister := by
  intro s hb rd
  have hrd {a : Address} {r : Register} (ha : registerAt a = r) : rd a = readRegister s r :=
    ha ▸ hRdata_of_read hb a
  have hstatus : rd 0x01 = statusByte s := hrd (r := .status) rfl
  have herr : rd 0x02 = errByte s := hrd (r := .err) rfl
  obtain ⟨s0, s1, s2, s3, s4, s6⟩ := statusByte_fields s
  obtain ⟨e0, e3⟩ := errByte_fields s
  rw [hstatus, herr]
  exact ⟨hrd (r := .cmd) rfl, ⟨s0.trans hb, s1, s2, s3, s4.trans (by cases s.result <;> rfl), s6⟩,
    ⟨e0.trans (by cases s.err <;> rfl), e3⟩, hrd (r := .data) rfl, hrd (r := .crc) rfl, hrd (r := .lastDev) rfl,
    hrd (r := .max) rfl, hrd (r := .count) rfl, fun i hi => hrd (registerAt_ident i hi), hrd (r := .bufSel) rfl,
    fun a h1 h2 => hrd (registerAt_reserved a h1 h2), fun i hi => hrd (registerAt_window i hi)⟩

/-- Settles O43: the port shows `busyRead` of `STATUS`. -/
theorem statusReadWhileBusy : Obligations.StatusReadWhileBusy := by
  intro s hb
  have hread : (clockEdge (Ports.read 0x01) s).hRdata = busyRead (Config.freeRead s.reads) .status := by
    rw [clockEdge_hRdata, readPort_of_read rfl rfl, if_pos hb]
    rfl
  rw [hread]
  exact busyRead_status _

/-- Settles O40: with `BUSY` = 1 both edges are one `tick` of the command, with `BUSY` = 0 both only latch the port. -/
theorem hostReadHasNoSideEffect : Obligations.HostReadHasNoSideEffect := by
  intro s a
  refine ⟨?_, fun hb => clockEdge_noWrite rfl hb rfl⟩
  cases hb : s.busy with
  | true =>
    rw [clockEdge_busy_port (p := Ports.read a) rfl hb, clockEdge_busy_port (p := Ports.quiet) rfl hb]
    rfl
  | false =>
    rw [clockEdge_noWrite (p := Ports.read a) rfl hb rfl, clockEdge_noWrite (p := Ports.quiet) rfl hb rfl]
    rfl

/-! ## Hardware reset (R50, R270) -/

/-- Log 15: a hardware reset keeps the record of the line, in the middle of a command too. -/
theorem hardwareReset_wire (s : State) : (hardwareReset s).line.wire = s.line.wire := by
  rw [hardwareReset_line]
  split <;> rfl

/-- Settles O8: the edge is `hardwareReset` with the port as it was latched; `STATUS`, `ERR` and `BUF` are read off the
cleared registers. -/
theorem hardwareResetTakesPriority : Obligations.HardwareResetTakesPriority := by
  intro p s hr t
  have ht : t = { hardwareReset (latchRead p s) with hRdata := readPort p s } := clockEdge_rst hr
  have hport : t.hRdata = readPort p s := clockEdge_hRdata p s
  have hwire : t.line.wire = s.line.wire := by
    rw [ht]
    exact hardwareReset_wire (latchRead p s)
  have hresets : t.resets = s.resets + 1 := by rw [ht]; rfl
  have hstatus : statusByte t = 0x08 := by rw [ht]; exact statusByte_of_flags_clear rfl rfl rfl rfl rfl
  have herr : errByte t = 0x00 := by rw [ht]; exact errByte_of_err_none rfl
  have hbuf : t.buf = [] := by rw [ht]; rfl
  have hread (hre : p.re = true) (hwe : p.we = false) : t.hRdata = (clockEdge (Ports.read p.addr) s).hRdata := by
    rw [hport, clockEdge_hRdata, readPort_of_read hre hwe, readPort_of_read rfl rfl]
    rfl
  refine ⟨?_, ?_, ?_, ?_, ?_, hstatus, herr, ?_, ?_, ?_, ?_, ?_, ?_, ?_, ?_, ?_, hwire, ?_, bufByte_of_buf_nil hbuf,
    by omega, fun hre => hport.trans (readPort_of_not_re hre s), hread⟩ <;>
    (rw [ht]; rfl)

/-! ## The acceptance edge of a bus command (R120, R292) -/

/-- Bus command `i` has begun its first segment in `t`, and nothing else of `c` has changed (R45, R47). -/
def StartedFrom (i : Instr) (c t : State) : Prop :=
  t.seq.op = i.op ∧ t.seq.rstf = i.rstf ∧ t = { c with busy := true, drv := true, seq := t.seq }

theorem startedFrom_startSlot {i : Instr} {c u : State} (hop : u.seq.op = i.op) (hrstf : u.seq.rstf = i.rstf)
    (hu : u = { c with busy := true, drv := u.drv, seq := u.seq }) : StartedFrom i c (startSlot u) := by
  rw [startSlot_eq]
  exact ⟨hop, hrstf, by rw [hu]⟩

/-- Each bus command starts at the first slot of its pseudocode; `FIND_DEVICES` has set the initial search state. -/
theorem startBusCommand_started {i : Instr} (hop : i.op.toNat ≤ 0xA) (c : State) :
    StartedFrom i (if i = .findDevices then searchInit c else c) (startBusCommand i c) := by
  cases i with
  | searchInit | crcClear | crcUpdate | crcId | crcCheck => exact absurd hop (by decide)
  | skipRom r | readRom r | matchRom r =>
    show StartedFrom _ c (if r then _ else _)
    split <;> exact startedFrom_startSlot rfl rfl rfl
  | _ => exact startedFrom_startSlot rfl rfl rfl

/-- A bus command is accepted by its start, `FIND_DEVICES` if its `MAX` is legal. -/
theorem acceptCommand_of_bus {i : Instr} (hop : i.op.toNat ≤ 0xA) {s : State}
    (hmax : i = .findDevices → 1 ≤ s.max.toNat ∧ s.max.toNat ≤ s.params.nbuf) :
    acceptCommand i s = startBusCommand i (accept (encode i) s) := by
  cases i with
  | searchInit | crcClear | crcUpdate | crcId | crcCheck => exact absurd hop (by decide)
  | findDevices => exact if_pos ((maxLegal_iff (accept (encode .findDevices) s)).2 (hmax rfl))
  | _ => rfl

/-- R26, R120: a host write of a command's word to `CMD` of an idle block is the acceptance of the command. -/
theorem clockEdge_write_encode {s : State} (hb : s.busy = false) (i : Instr) :
    clockEdge (Ports.write 0x00 (encode i)) s = acceptCommand i { s with hRdata := 0x00 } := by
  rw [clockEdge_write_cmd hb, acceptWord, decode_encode]

/-- Settles O44: the acceptance edge is the start of the command, which sets the fields of `StartedFrom`. -/
theorem busCommandStartsAtItsAcceptanceEdge : Obligations.BusCommandStartsAtItsAcceptanceEdge := by
  intro s i hidle _ hop hmax t
  obtain ⟨hb, -, -⟩ := hidle
  have ht : t = startBusCommand i (accept (encode i) { s with hRdata := 0x00 }) :=
    (clockEdge_write_encode hb i).trans (acceptCommand_of_bus hop hmax)
  obtain ⟨hseqop, hrstf, hframe⟩ := ht ▸ startBusCommand_started hop (accept (encode i) { s with hRdata := 0x00 })
  refine ⟨hseqop, hrstf, hframe.trans ?_⟩
  by_cases hi : i = .findDevices
  · simp only [if_pos hi]; rfl
  · simp only [if_neg hi]; rfl

end Sys2Proof.Machine

namespace Sys2Proof.Machine

/-! ## The CRC unit (R200 to R209) -/

/-- R120, R204: `CRC_UPDATE` is its acceptance and one step of the register. -/
theorem exec_crcUpdate (s : State) : exec .crcUpdate s = .next (crcUpdateCommand (accept 0x0D s)) := rfl

/-- Settles O34: the step of the register bit by bit is `crc8Step_serial`. -/
theorem crcUpdateShiftsDataIn : Obligations.CrcUpdateShiftsDataIn := by
  intro s _
  rw [exec_crcUpdate, byteBits, ← crc8Step_serial]
  rfl

/-- R202, R205: the CRC over an identifier is the CRC over its eight bytes, byte 0 first. -/
theorem crcOfIdent_eq_crc8 (id : Identifier) : crcOfIdent id = crc8 ((List.range 8).map fun i => idByte id i) := rfl

/-- Settles O35: a zero CRC leaves the acceptance with the register loaded, a nonzero one the failure of an idle block. -/
theorem crcIdChecksTheIdentifier : Obligations.CrcIdChecksTheIdentifier := by
  intro s hidle c
  have hc : crcOfIdent s.ident = c := crcOfIdent_eq_crc8 s.ident
  rw [exec_crcId, hc]
  by_cases hzero : c = 0x00
  · simp only [if_pos hzero, decide_eq_false (not_not_intro hzero)]
    rfl
  · rw [if_neg hzero, if_neg hzero, decide_eq_true hzero, raise_of_idle]
    · rfl
    · exact hidle

/-- Settles O37: the last step gives 0 for the register itself and for no other byte. -/
theorem validIdentifierForms : Obligations.ValidIdentifierForms := by
  intro id
  rw [crcOfIdent_eq]
  exact crc8Step_eq_zero

/-- R209: no identifier with a single bit set has CRC 0. -/
theorem crcOfIdent_one_bit : ∀ k < 64, crcOfIdent (1#64 <<< k) ≠ 0x00 := by decide +kernel

/-- Settles O38: by linearity the CRC after the flip is that of the flipped bit alone. -/
theorem crcDetectsSingleBitErrors : Obligations.CrcDetectsSingleBitErrors := by
  intro id k hk hvalid
  rw [crcOfIdent_xor, hvalid]
  exact ne_of_eq_of_ne BitVec.zero_xor (crcOfIdent_one_bit k hk)

end Sys2Proof.Machine

namespace Sys2Proof.Machine

/-! ## How a command ends, and its cause (R33, R120, R241, R246) -/

/-- An idle block that has run the command of the word in `CMD`, with `FAIL` set exactly when it has a cause (R33). -/
structure EndsWell (i : Instr) (t : State) : Prop where
  idle : Idle t
  cmd : t.cmd = encode i
  failCause : t.fail = true ↔ t.err ≠ .none

theorem endsWell_of_clear {i : Instr} {t : State} (hi : Idle t) (hc : t.cmd = encode i) (hf : t.fail = false)
    (he : t.err = .none) : EndsWell i t :=
  ⟨hi, hc, by simp [hf, he]⟩

theorem endsWell_finish {i : Instr} {u : State} (hc : u.cmd = encode i) (hf : u.fail = false) (he : u.err = .none) :
    EndsWell i (finish u) :=
  endsWell_of_clear ⟨rfl, rfl, rfl⟩ hc hf he

theorem endsWell_raise {i : Instr} {u : State} {c : Cause} (hc : u.cmd = encode i) (hne : c ≠ .none) :
    EndsWell i (raise c u) :=
  ⟨⟨rfl, rfl, rfl⟩, hc, by simp [hne]⟩

/-- The loop of `FIND_DEVICES` ends the command, with `FAIL` and `ERR` in agreement. -/
theorem EnumEnd.endsWell {i : Instr} {left cnt : Nat} {u t : State} (h : EnumEnd left cnt u t) (hc : u.cmd = encode i) :
    EndsWell i t := by
  refine ⟨by rw [h.frame]; exact ⟨rfl, rfl, rfl⟩, by rw [h.frame]; exact hc, ?_⟩
  cases hf : t.fail with
  | false => simp [(h.good hf).1]
  | true => obtain ⟨-, -, ⟨he, -⟩ | ⟨he, -⟩⟩ := h.bad hf <;> simp [he]

/-- A command from an idle state ends well, however it runs. -/
theorem Ran.endsWell {i : Instr} {s t : State} (hidle : Idle s) (h : Ran i s t) : EndsWell i t := by
  cases h with
  | resetPresent | writeBit | readBit | writeByte | readByte | skipRom | readRom | matchRom | searchCompletes =>
    exact endsWell_finish rfl rfl rfl
  | resetAbsent | romAbsent | searchAbsent | searchFails | findIllegal | crcIdInvalid | crcCheckNonzero =>
    exact endsWell_raise rfl (by decide)
  | searchInit | crcClear | crcUpdate | crcIdValid | crcCheckZero => exact endsWell_of_clear hidle rfl rfl rfl
  | findDevices _ _ _ he => exact he.endsWell rfl

/-- R241: the cause a command leaves, with what the block recorded and which commands can leave it. -/
theorem Ran.cause {i : Instr} {s t : State} (h : Ran i s t) :
    t.err = .none ∨
    (t.err = .busError ∧ t.present = false ∧
      (i = .reset ∨ i = .skipRom true ∨ i = .readRom true ∨ i = .matchRom true ∨ i = .searchRom ∨
        i = .findDevices)) ∨
    (t.err = .protocolError ∧ t.result = .failed ∧ (i = .searchRom ∨ i = .findDevices)) ∨
    (t.err = .integrityError ∧ t.crc ≠ 0x00 ∧ (i = .crcId ∨ i = .crcCheck)) ∨
    (t.err = .illegalOperand ∧ i = .findDevices ∧ (s.max = 0 ∨ s.params.nbuf < s.max.toNat)) := by
  cases h with
  | resetAbsent => exact .inr (.inl ⟨rfl, rfl, by simp⟩)
  | romAbsent _ hi => exact .inr (.inl ⟨rfl, rfl, by tauto⟩)
  | searchAbsent => exact .inr (.inl ⟨rfl, rfl, by simp⟩)
  | searchFails => exact .inr (.inr (.inl ⟨rfl, rfl, by simp⟩))
  | crcIdInvalid hne => exact .inr (.inr (.inr (.inl ⟨rfl, hne, by simp⟩)))
  | crcCheckNonzero hne => exact .inr (.inr (.inr (.inl ⟨rfl, hne, by simp⟩)))
  | findIllegal hmax =>
    have hcases : s.max = 0 ∨ s.params.nbuf < s.max.toNat := by
      by_cases hzero : s.max.toNat = 0
      · exact .inl (BitVec.eq_of_toNat_eq hzero)
      · exact .inr (by omega)
    exact .inr (.inr (.inr (.inr ⟨rfl, rfl, hcases⟩)))
  | findDevices _ _ _ he =>
    cases hf : t.fail with
    | false => exact .inl (he.good hf).1
    | true =>
      obtain ⟨hresult, -, ⟨herr, hpresent⟩ | ⟨herr, -⟩⟩ := he.bad hf
      · exact .inr (.inl ⟨herr, hpresent, by simp⟩)
      · exact .inr (.inr (.inl ⟨herr, hresult, by simp⟩))
  | _ => exact .inl rfl

/-- R247: no command leaves `ILLEGAL_CMD`. -/
theorem Ran.err_ne_illegalCmd {i : Instr} {s t : State} (h : Ran i s t) : t.err ≠ .illegalCmd := by
  rcases h.cause with he | ⟨he, -⟩ | ⟨he, -⟩ | ⟨he, -⟩ | ⟨he, -⟩ <;> simp [he]

/-- Settles O11: every command runs in one of the ways of `Ran`, and each of them ends well. -/
theorem commandEndsIdleWithItsOwnFailure : Obligations.CommandEndsIdleWithItsOwnFailure := by
  intro i s hidle
  obtain ⟨t, ht, hran⟩ := exec_ran i s
  obtain ⟨hi, hcmd, hfail⟩ := hran.endsWell hidle
  exact ⟨t, ht, hi, hcmd, hfail, hran.err_ne_illegalCmd⟩

/-- Settles O12: each clause is the case of `Ran.cause` with its cause. -/
theorem causesByCommand : Obligations.CausesByCommand := by
  intro i s t he
  have hran := ran_of_exec he
  refine ⟨fun hc => ?_, fun hc => ?_, fun hc => ?_, fun hc => ?_, hran.err_ne_illegalCmd⟩ <;>
    simpa [hc] using hran.cause

/-! ## Which commands write which register (R95) -/

theorem Ran.data {i : Instr} {s t : State} (h : Ran i s t) (h1 : i ≠ .readBit) (h2 : i ≠ .readByte) :
    t.data = s.data := by
  cases h with
  | readBit => exact absurd rfl h1
  | readByte => exact absurd rfl h2
  | findDevices _ _ _ he => rw [he.frame]; rfl
  | _ => rfl

theorem Ran.ident {i : Instr} {s t : State} (h : Ran i s t) (h1 : ∀ r, i ≠ .readRom r) (h2 : i ≠ .searchRom)
    (h3 : i ≠ .findDevices) (h4 : i ≠ .searchInit) : t.ident = s.ident := by
  cases h with
  | readRom r => exact absurd rfl (h1 r)
  | searchFails | searchCompletes => exact absurd rfl h2
  | findDevices => exact absurd rfl h3
  | searchInit => exact absurd rfl h4
  | _ => rfl

theorem Ran.searchState {i : Instr} {s t : State} (h : Ran i s t) (h1 : i ≠ .searchRom) (h2 : i ≠ .findDevices)
    (h3 : i ≠ .searchInit) : t.lastDev = s.lastDev ∧ t.result = s.result := by
  cases h with
  | searchAbsent | searchFails | searchCompletes => exact absurd rfl h1
  | findDevices => exact absurd rfl h2
  | searchInit => exact absurd rfl h3
  | _ => exact ⟨rfl, rfl⟩

theorem Ran.crc {i : Instr} {s t : State} (h : Ran i s t) (h1 : i ≠ .crcClear) (h2 : i ≠ .crcUpdate)
    (h3 : i ≠ .crcId) : t.crc = s.crc := by
  cases h with
  | crcClear => exact absurd rfl h1
  | crcUpdate => exact absurd rfl h2
  | crcIdValid | crcIdInvalid => exact absurd rfl h3
  | findDevices _ _ _ he => rw [he.frame]; rfl
  | _ => rfl

theorem Ran.enumeration {i : Instr} {s t : State} (h : Ran i s t) (h1 : i ≠ .findDevices) :
    t.count = s.count ∧ t.buf = s.buf := by
  cases h with
  | findDevices => exact absurd rfl h1
  | _ => exact ⟨rfl, rfl⟩

theorem Ran.present {i : Instr} {s t : State} (h : Ran i s t) (h1 : i ≠ .reset) (h2 : i ≠ .skipRom true)
    (h3 : i ≠ .readRom true) (h4 : i ≠ .matchRom true) (h5 : i ≠ .searchRom) (h6 : i ≠ .findDevices) :
    t.present = s.present := by
  cases h with
  | resetPresent | resetAbsent => exact absurd rfl h1
  | romAbsent _ hi => exact absurd hi (by simp [h2, h3, h4])
  | skipRom r => cases r with
    | false => rfl
    | true => exact absurd rfl h2
  | readRom r => cases r with
    | false => rfl
    | true => exact absurd rfl h3
  | matchRom r => cases r with
    | false => rfl
    | true => exact absurd rfl h4
  | searchAbsent | searchFails | searchCompletes => exact absurd rfl h5
  | findDevices => exact absurd rfl h6
  | _ => rfl

/-- What no command writes: the host's own registers, the read port, the parameters, the counters and the inputs. -/
theorem Ran.untouched {i : Instr} {s t : State} (h : Ran i s t) :
    t.max = s.max ∧ t.bufSel = s.bufSel ∧ t.hRdata = s.hRdata ∧ t.params = s.params ∧
    t.resets = s.resets ∧ t.reads = s.reads ∧ t.pending = s.pending := by
  cases h with
  | findDevices _ _ _ he => rw [he.frame]; exact ⟨rfl, rfl, rfl, rfl, rfl, rfl, rfl⟩
  | _ => exact ⟨rfl, rfl, rfl, rfl, rfl, rfl, rfl⟩

/-- Settles O13: one lemma about `Ran` per column of the table. -/
theorem commandsWriteOnlyTheirRegisters : Obligations.CommandsWriteOnlyTheirRegisters := by
  intro i s t he
  have hran := ran_of_exec he
  exact ⟨hran.data, hran.ident, hran.searchState, hran.crc, hran.enumeration, hran.present, hran.untouched⟩

end Sys2Proof.Machine

namespace Sys2Proof.Machine

/-! ## `SEARCH_ROM` from an idle state (R174, R180, R181) -/

/-- R174 step 1: the reset sequence, the missing presence and the failure; the search state stays. -/
theorem exec_searchRom_absent_of_idle {s : State} (hidle : Idle s) (h : s.line.level .presence = true) :
    exec .searchRom s = .next { s with
      cmd := 0x09, present := false, fail := true, err := .busError, result := .failed
      line := lineAfterReset s.line } := by
  rw [exec_searchRom_absent h, raise_of_idle]
  · rfl
  · exact hidle

/-- R175: the walk up to the failing pair, and the failure; `LASTDEV` stays. -/
theorem exec_searchRom_fails_of_idle {s : State} (hidle : Idle s) (h : s.line.level .presence = false)
    (hw : (passWalk s).failed = true) :
    exec .searchRom s = .next { s with
      cmd := 0x09, present := true, fail := true, err := .protocolError, result := .failed
      ident := (passWalk s).ident, line := (passWalk s).line } := by
  rw [exec_searchRom_fails h hw]
  generalize passWalk s = w
  rw [raise_of_idle]
  · rfl
  · exact hidle

/-- R174, R179: the whole walk, and the new search state. -/
theorem exec_searchRom_completes_of_idle {s : State} (hidle : Idle s) (h : s.line.level .presence = false)
    (hw : (passWalk s).failed = false) :
    exec .searchRom s = .next { s with
      cmd := 0x09, present := true, fail := false, err := .none
      result := passResult (passWalk s).newDev, lastDev := (passWalk s).newDev
      ident := (passWalk s).ident, line := (passWalk s).line } := by
  rw [exec_searchRom_completes h hw]
  generalize passWalk s = w
  rw [finish_of_idle]
  · rfl
  · exact hidle

/-- R179, R186: a legal deviation point is -1 with `DONE`, or a position with `MORE_AVAILABLE`. -/
theorem passResult_of_legal {b : Byte} (h : legalDeviation b = true) :
    (passResult b = .done ∧ b = 0xFF) ∨ (passResult b = .moreAvailable ∧ b.toNat < 64) := by
  by_cases hb : b = Config.sentinel
  · exact .inl ⟨if_pos hb, hb⟩
  · have hpos : b.toNat < Config.positions := by simpa [legalDeviation, hb] using h
    exact .inr ⟨if_neg hb, hpos⟩

theorem passResult_position : ∀ p < 64, passResult (BitVec.ofNat 8 p) = .moreAvailable := by decide

/-- Settles O22: without presence the pass is its reset sequence. -/
theorem searchWithoutPresenceFails : Obligations.SearchWithoutPresenceFails :=
  fun _ hidle habsent => exec_searchRom_absent_of_idle hidle (level_presence_of_presenceAhead habsent)

/-- Settles O25: the three ways a pass ends, with the walk's deviation point legal where it completes. -/
theorem searchRomCompletesInOneOfThreeWays : Obligations.SearchRomCompletesInOneOfThreeWays := by
  intro s hidle
  cases hlevel : s.line.level .presence with
  | true =>
    exact ⟨_, exec_searchRom_absent_of_idle hidle hlevel, rfl, fun _ _ => rfl, .inl ⟨rfl, rfl, rfl, rfl, rfl⟩⟩
  | false =>
    cases hw : (passWalk s).failed with
    | true =>
      have hexec := exec_searchRom_fails_of_idle hidle hlevel hw
      generalize passWalk s = w at hexec
      exact ⟨_, hexec, rfl, fun _ _ => rfl, .inr (.inl ⟨rfl, rfl, rfl, rfl⟩)⟩
    | false =>
      have hexec := exec_searchRom_completes_of_idle hidle hlevel hw
      obtain ⟨hlegal, -, -⟩ := passWalk_spec s
      generalize passWalk s = w at hexec hlegal
      refine ⟨_, hexec, rfl, fun _ _ => rfl, .inr (.inr ?_)⟩
      rcases passResult_of_legal hlegal with ⟨hdone, hdev⟩ | ⟨hmore, hdev⟩
      · exact .inl ⟨rfl, rfl, hdone, hdev⟩
      · exact .inr ⟨rfl, rfl, hmore, hdev⟩

/-! ## The walk of a pass on scripted samples (R100, R174 to R179; log 14) -/

/-- Where the walk of a pass starts: after the reset sequence and the byte 0xF0 (R174 step 2). -/
def passStart (s : State) : Walk where
  ident := s.ident
  newDev := Config.sentinel
  line := sentBits (byteBits 0xF0) (lineAfterReset s.line)
  failed := false

theorem passWalk_eq (s : State) : passWalk s = searchWalk (lastDeviation s) 64 (passStart s) := rfl

theorem passStart_scripted {s : State} {b : Bool} {levels : List Bool} (h : s.line.env = .scripted (b :: levels)) :
    (passStart s).line.env = .scripted levels :=
  env_sentBits_scripted _ (env_lineAfterReset_scripted h)

/-- A walk that has failed stays as it is (R175). -/
theorem searchWalk_of_failed (last : Int) {w : Walk} {n : Nat} (hf : (searchWalk last n w).failed = true) (m : Nat) :
    searchWalk last (n + m) w = searchWalk last n w := by
  induction m with
  | zero => rfl
  | succ m ih =>
    rw [← Nat.add_assoc, searchWalk_succ, ih]
    exact searchPosition_of_failed last _ hf

/-- A walk whose first `n` positions resolve and whose next pair reads (1, 1) ends there (R175). -/
theorem searchWalk_fails_at (last : Int) {w : Walk} {n : Nat} (hn : n < 64) {rest : List Bool}
    (hf : (searchWalk last n w).failed = false)
    (henv : (searchWalk last n w).line.env = .scripted (true :: true :: rest)) :
    searchWalk last 64 w = { searchWalk last n w with
      line := lineAfterRead (lineAfterRead (searchWalk last n w).line), failed := true } := by
  have hpair : searchWalk last (n + 1) w = { searchWalk last n w with
      line := lineAfterRead (lineAfterRead (searchWalk last n w).line), failed := true } :=
    searchPosition_fails last n hf (level_of_scripted _ henv)
      (level_of_scripted _ (env_lineAfterRead_scripted henv))
  have hrest := searchWalk_of_failed last (w := w) (n := n + 1) (by rw [hpair]) (63 - n)
  rw [← hpair, ← hrest]
  congr 1
  omega

/-- Settles O23: the walk resolves the pairs given, its next position fails, and the pass does no more. -/
theorem searchStopsAtAFailingPair : Obligations.SearchStopsAtAFailingPair := by
  intro s pairs rest hidle hlen hpairs henv
  have hlevel : s.line.level .presence = false := level_of_scripted _ henv
  obtain ⟨hgood, hwenv, hbits, -, -⟩ := searchWalk_scripted (lastDeviation s) (w := passStart s) rfl rfl pairs
    (true :: true :: rest) hpairs (by omega) (passStart_scripted henv) pairs.length (Nat.le_refl _)
  obtain ⟨hkept, -, hcount, -⟩ := searchWalk_spec (lastDeviation s) (w := passStart s) rfl rfl pairs.length (by omega)
  obtain ⟨-, hsamples⟩ := hcount hgood
  have hwire := searchWalk_wire (lastDeviation s) (passStart s) pairs.length (by omega) hgood
  rw [List.drop_length] at hwenv
  have hfails := searchWalk_fails_at (lastDeviation s) hlen hgood hwenv
  rw [← passWalk_eq] at hfails
  have hexec := exec_searchRom_fails_of_idle hidle hlevel (by rw [hfails])
  rw [hfails] at hexec
  generalize searchWalk (lastDeviation s) pairs.length (passStart s) = w at *
  refine ⟨_, hexec, ?_, fun pos h => hbits pos h h, hkept, ?_⟩
  · have henv' : (lineAfterRead (lineAfterRead w.line)).env = .scripted rest :=
      env_lineAfterRead_scripted (env_lineAfterRead_scripted hwenv)
    have hsamples' : (lineAfterRead (lineAfterRead w.line)).samples = s.line.samples + (3 + 2 * pairs.length) := by
      rw [samples_lineAfterRead, samples_lineAfterRead, hsamples]
      show s.line.samples + 1 + _ + 1 + 1 = _
      omega
    rw [← henv', ← hsamples']
  · show readSlotWire ++ (readSlotWire ++ w.line.wire) = _
    rw [hwire]
    simp only [List.append_assoc]
    rfl

/-- Settles O24: the walk of all 64 pairs, whose rules are `searchWalk_scripted` and whose record is `searchWalk_wire`. -/
theorem searchPassFollowsTheRules : Obligations.SearchPassFollowsTheRules := by
  intro s pairs rest hidle hlen hpairs henv
  have hlevel : s.line.level .presence = false := level_of_scripted _ henv
  obtain ⟨hgood, hwenv, hbits, hnone, hlast⟩ := searchWalk_scripted (lastDeviation s) (w := passStart s) rfl rfl pairs
    rest hpairs (by omega) (passStart_scripted henv) 64 (by omega)
  have hwire := searchWalk_wire (lastDeviation s) (passStart s) 64 (Nat.le_refl _) hgood
  rw [← passWalk_eq] at hgood hwenv hbits hnone hlast hwire
  obtain ⟨-, hcount, -⟩ := passWalk_spec s
  obtain ⟨-, hsamples⟩ := hcount hgood
  have hexec := exec_searchRom_completes_of_idle hidle hlevel hgood
  rw [List.drop_of_length_le (by omega)] at hwenv
  generalize passWalk s = w at *
  refine ⟨_, hexec, ?_, fun pos h => hbits pos h (by omega), fun hall => ?_, fun p hp hdisc hbit hmax => ?_, hwire⟩
  · rw [← hsamples, ← show w.line.env = .scripted rest from hwenv]
  · have hdev := hnone hall
    exact ⟨hdev, congrArg passResult hdev⟩
  · have hdev := hlast p hp hdisc hbit hmax
    exact ⟨hdev, (congrArg passResult hdev).trans (passResult_position p hp)⟩

/-! ## The seed of a fresh search (R171) -/

theorem walk_ext {w w' : Walk} (h1 : w.ident = w'.ident) (h2 : w.newDev = w'.newDev) (h3 : w.line = w'.line)
    (h4 : w.failed = w'.failed) : w = w' := by
  cases w; cases w'; cases h1; cases h2; cases h3; cases h4; rfl

/-- R171: with `last_deviation` = -1 a walk that completes is the same from any identifier. -/
theorem passWalk_fresh_seed {s : State} (hfresh : s.lastDev = 0xFF) (hgood : (passWalk s).failed = false)
    (seed : Identifier) : passWalk { s with ident := seed } = passWalk s := by
  have hlast : lastDeviation s = -1 := lastDeviation_sentinel hfresh
  have hseed : passWalk { s with ident := seed } = searchWalk (-1) 64 (passStart { s with ident := seed }) := by
    rw [← hlast]; rfl
  rw [passWalk_eq, hlast] at hgood
  rw [hseed, passWalk_eq, hlast]
  obtain ⟨hfailed, hsame⟩ := searchWalk_seed (w := passStart s) (w' := passStart { s with ident := seed })
    rfl rfl rfl rfl 64 (Nat.le_refl _)
  obtain ⟨hdev, hline, hbits⟩ := hsame hgood
  exact walk_ext (ident_ext fun k hk => (hbits k hk).symm) hdev.symm hline.symm hfailed.symm

/-- Settles O26: the walk is the same from any seed, and the rest of the command writes the walk's identifier over it. -/
theorem freshSearchIgnoresTheSeed : Obligations.FreshSearchIgnoresTheSeed := by
  intro s t seed hfresh he hfail
  cases ran_of_exec he with
  | searchAbsent | searchFails => cases hfail
  | romAbsent _ hi => rcases hi with hi | hi | hi <;> cases hi
  | searchCompletes w hlevel hw hgood _ =>
    have hseed := passWalk_fresh_seed hfresh (hw ▸ hgood) seed
    rw [← hw] at hseed
    rw [exec_searchRom_completes (s := { s with ident := seed }) hlevel (by rw [hseed]; exact hgood), hseed]
    rfl

/-! ## One pass on the reference bus (R76 to R85, R182; log 9) -/

/-- R77: with a device on the reference bus the presence sample is low. -/
theorem level_presence_of_slaves {s : State} {bus : ReferenceBus} (henv : s.line.env = .reference bus)
    (hne : bus.slaves ≠ []) : s.line.level .presence = false := by
  rw [Line.level, henv]
  simpa [Environment.level, ReferenceBus.presenceLevel] using hne

/-- Settles O27: the walk of a pass on the reference bus completes, at the identifier of a slave (`passWalk_reference`). -/
theorem searchFindsAPresentDevice : Obligations.SearchFindsAPresentDevice := by
  intro s bus hidle henv hne
  obtain ⟨hgood, ⟨⟨v, hv, hident⟩, -⟩, -, -⟩ := passWalk_reference s bus henv hne
  have hexec := exec_searchRom_completes_of_idle hidle (level_presence_of_slaves henv hne) hgood
  generalize passWalk s = w at hexec hident
  exact ⟨_, hexec, rfl, rfl, v, hv, hident.symm⟩

/-- R177: one slave alone makes no discrepancy. -/
theorem discrepancyOn_singleton (v : Slave) (x : Identifier) (p : Nat) : discrepancyOn [v] x p = false := by
  cases hbit : idBit v.ident p <;> simp [discrepancyOn, someWith, hbit]

/-- Settles O28: the pass takes the path of the only slave, on which no position shows a discrepancy. -/
theorem searchOfOneDeviceIsDone : Obligations.SearchOfOneDeviceIsDone := by
  intro s v b hidle henv
  have hne : (⟨[v], b⟩ : ReferenceBus).slaves ≠ [] := List.cons_ne_nil v []
  obtain ⟨hgood, ⟨⟨u, hu, hident⟩, hdev⟩, -, -⟩ := passWalk_reference s _ henv hne
  have hexec := exec_searchRom_completes_of_idle hidle (level_presence_of_slaves henv hne) hgood
  generalize passWalk s = w at hexec hident hdev
  obtain rfl : u = v := List.mem_singleton.1 hu
  have hsentinel : w.newDev = Config.sentinel := by
    rcases hdev with ⟨hnone, -⟩ | ⟨d, -, -, hdisc, -⟩
    · exact hnone
    · exact absurd hdisc (by simp [discrepancyOn_singleton])
  exact ⟨_, hexec, rfl, congrArg passResult hsentinel, hsentinel, hident.symm⟩

end Sys2Proof.Machine

namespace Sys2Proof.Machine

/-! ## `FIND_DEVICES` with a legal `MAX` (R183, R187 to R190) -/

/-- A byte of the buffer that has been stored is what a host read shows (R43). -/
theorem bufByte_of_read {s : State} {e i : Nat} {v : Byte} (h : s.buf.read (bufAddress e i) = some v) :
    bufByte s e i = v := by
  rw [bufByte, h]

/-- What a host read of the buffer shows depends on the stored byte and on the count of resets (log 4). -/
theorem bufByte_congr {s t : State} {e i : Nat} (hread : t.buf.read (bufAddress e i) = s.buf.read (bufAddress e i))
    (hresets : t.resets = s.resets) : bufByte t e i = bufByte s e i := by
  rw [bufByte, bufByte, hread, hresets]

/-- Settles O31: `exec_findDevices_passes` gives the entries and the state by the chain of `SEARCH_ROM` commands, and
`enumerate_spec` the buffer, the count and the results of the same run. -/
theorem findDevicesCompletesWithinMax : Obligations.FindDevicesCompletesWithinMax := by
  intro s hidle h1 h2 pass
  have hpass (n : Nat) : pass n = afterPasses n (searchInit s) := rfl
  have hmax := s.max.isLt
  obtain ⟨m, hm, buf, last, hexec, hlast, hentries, hmore⟩ := exec_findDevices_passes hidle h1 h2
  generalize ht : ({ last with cmd := 0x0A, count := BitVec.ofNat 8 m, buf := buf } : State) = t at hexec
  have hcount : t.count.toNat = m := by
    rw [← ht]
    exact (BitVec.toNat_ofNat m 8).trans (Nat.mod_eq_of_lt (by omega))
  have hbuf : t.buf = buf := by rw [← ht]
  have hfail : t.fail = last.fail := by rw [← ht]
  have htail : t = { last with cmd := 0x0A, count := t.count, buf := t.buf } := by rw [← ht]
  have hspec := enumerate_spec s.max.toNat 0 (searchInit (accept 0x0A s)) (by omega) rfl rfl
  rw [Host.Outcome.next.inj ((exec_findDevices_legal h1 h2).symm.trans hexec)] at hspec
  obtain ⟨hframe, -, hhigh, hothers, hwritten, hgood, hbad, -⟩ := hspec
  rw [finish_of_idle (s := searchInit (accept 0x0A s)) hidle] at hframe
  have hresets : t.resets = s.resets := (congrArg State.resets hframe).trans rfl
  refine ⟨t, hexec, hframe, by omega, fun e i hi he => ?_, fun e i hi he => ?_, fun e he => ?_, fun e he => ?_,
    fun hf => ?_, fun hf => ?_⟩
  · exact bufByte_congr (hothers _ (.inr (by rw [bufAddress]; omega))) hresets
  · exact hwritten _ (by omega) (by rw [bufAddress]; omega)
  · obtain ⟨hpassgood, hread⟩ := hentries e (by omega)
    exact ⟨hpassgood, fun i hi => bufByte_of_read (by rw [hbuf]; exact hread i hi)⟩
  · exact hmore e (by omega)
  · obtain ⟨-, ⟨hzero, -⟩ | ⟨hpos, hread, hresult⟩⟩ := hgood hf
    · omega
    · have hfull : t.result = .done ∨ (t.result = .moreAvailable ∧ t.count = s.max) :=
        hresult.imp_right fun ⟨hres, hall⟩ => ⟨hres, BitVec.eq_of_toNat_eq (by omega)⟩
      rcases hlast with ⟨-, hlast⟩ | ⟨hlastfail, -⟩
      · exact ⟨hpos, fun i hi => bufByte_of_read (hread i hi), hfull, by rw [hcount, hpass, ← hlast]; exact htail⟩
      · rw [hfail, hlastfail] at hf
        cases hf
  · obtain ⟨hres, hlt, -⟩ := hbad hf
    rcases hlast with ⟨hlastgood, -⟩ | ⟨-, hlast⟩
    · rw [hfail, hlastgood] at hf
      cases hf
    · exact ⟨hres, by omega, by rw [hcount, hpass, ← hlast]; exact htail⟩

/-- Settles O32: the loop from the initial search state is `enumerate_reference` from entry 0 of the sorted list. -/
theorem findDevicesEnumeratesTheBus : Obligations.FindDevicesEnumeratesTheBus := by
  intro s bus ids hidle h1 h2 henv hne hperm hsorted
  have hmax := s.max.isLt
  have hmem (y : Identifier) : y ∈ ids ↔ ∃ v ∈ bus.slaves, v.ident = y := by
    rw [hperm.mem_iff, List.mem_map]
  have hlen : 0 < ids.length := by
    rw [hperm.length_eq, List.length_map]
    exact List.length_pos_of_ne_nil hne
  obtain ⟨hfail, herr, hcount, hresult, hentries⟩ := enumerate_reference hsorted s.max.toNat 0
    (searchInit (accept 0x0A s)) bus (by omega) henv hne hmem (.inl ⟨rfl, rfl⟩) hlen (fun h => by omega) rfl rfl
  rw [Nat.zero_add] at hcount hresult
  refine ⟨_, exec_findDevices_legal h1 h2, hfail, herr, hcount, hresult, fun e he => ?_⟩
  obtain ⟨id, hid, hread⟩ := hentries e (Nat.zero_le e) he
  exact ⟨id, hid, fun i hi => bufByte_of_read (hread i hi)⟩

end Sys2Proof.Machine

namespace Sys2Proof.Machine

/-! ## The clock level and the command level (R294, R296) -/

theorem checkCrc_line (s : State) : (checkCrc s).line = s.line := by
  rw [checkCrc]
  split <;> rfl

/-- R294: a command whose whole effect is at its acceptance edge agrees with itself after 0 further edges. -/
theorem agrees_of_zeroTime {i : Instr} {s : State} (he : exec i s = .next (acceptCommand i s))
    (hline : (acceptCommand i s).line = s.line) : Agrees i s :=
  .intro he (Runs.refl _) rfl (by rw [hline, Nat.zero_add])

/-- R296: the two levels agree for every command. -/
theorem agrees_of_idle {s : State} (hidle : Idle s) (hh : s.hRdata = 0x00) (hp : 1 ≤ s.params.ticksPerUs) (i : Instr) :
    Agrees i s := by
  cases i with
  | reset => exact agrees_reset hidle hh hp
  | writeBit => exact agrees_writeBit hidle hh hp
  | readBit => exact agrees_readBit hidle hh hp
  | writeByte => exact agrees_writeByte hidle hh hp
  | readByte => exact agrees_readByte hidle hh hp
  | skipRom rstf => exact agrees_skipRom hidle hh hp rstf
  | readRom rstf => exact agrees_readRom hidle hh hp rstf
  | matchRom rstf => exact agrees_matchRom hidle hh hp rstf
  | searchRom => exact agrees_searchRom hidle hh hp
  | findDevices => exact agrees_findDevices hidle hh hp
  | searchInit | crcClear | crcUpdate => exact agrees_of_zeroTime rfl rfl
  | crcId | crcCheck => exact agrees_of_zeroTime rfl (checkCrc_line _)

/-- Settles O45: the acceptance edge is the acceptance of the command with `h_rdata` at 0x00, from which
`agrees_of_idle` runs. -/
theorem clockLevelAgreesWithCommandLevel : Obligations.ClockLevelAgreesWithCommandLevel := by
  intro s i hidle hparams
  have hb : s.busy = false := hidle.1
  obtain ⟨hticks, -, -⟩ := hparams
  obtain ⟨t, n, hexec, ⟨hend, hbusy⟩, htime⟩ := agrees_of_idle (s := { s with hRdata := 0x00 }) hidle rfl hticks i
  rw [clockEdge_write_encode hb]
  exact ⟨t, n, hexec, hend, hbusy, htime⟩

/-! ## Durations and samples (R290, R296) -/

/-- The command takes `us` microseconds and `samples` samples. -/
def Takes (s : State) (i : Instr) (us samples : Nat) : Prop :=
  ∃ t, exec i s = .next t ∧
    wireTime t.line.wire = wireTime s.line.wire + us ∧ t.line.samples = s.line.samples + samples

/-- The duration and the samples of a command are those of the line it leaves. -/
theorem takes_of_exec {s t : State} {i : Instr} {l : Line} {us samples : Nat} (he : exec i s = .next t)
    (hline : t.line = l) (hus : wireTime l.wire = wireTime s.line.wire + us)
    (hsamples : l.samples = s.line.samples + samples) : Takes s i us samples :=
  ⟨t, he, hline ▸ hus, hline ▸ hsamples⟩

theorem takes_reset (s : State) : Takes s .reset 960 1 := by
  cases h : s.line.level .presence with
  | true => exact takes_of_exec (exec_reset_absent h) rfl (wireTime_lineAfterReset _) rfl
  | false => exact takes_of_exec (exec_reset_present h) rfl (wireTime_lineAfterReset _) rfl

/-- The prologue of a ROM command that goes on: a reset sequence with `RSTF`, nothing without (R150). -/
theorem wireTime_lineAfterPrologue (rstf : Bool) (l : Line) :
    wireTime (lineAfterPrologue rstf l).wire = wireTime l.wire + if rstf then 960 else 0 := by
  cases rstf with
  | false => rfl
  | true => exact wireTime_lineAfterReset l

theorem samples_lineAfterPrologue (rstf : Bool) (l : Line) :
    (lineAfterPrologue rstf l).samples = l.samples + if rstf then 1 else 0 := by
  cases rstf <;> rfl

section RomCommands

variable {s : State} {rstf : Bool} (h : rstf = true → s.line.level .presence = false)
include h

theorem takes_skipRom : Takes s (.skipRom rstf) ((if rstf then 960 else 0) + 560) (if rstf then 1 else 0) :=
  takes_of_exec (exec_skipRom h) rfl (by simp [wireTime_lineAfterPrologue, Nat.add_assoc])
    (by simp [samples_lineAfterPrologue])

theorem takes_readRom :
    Takes s (.readRom rstf) ((if rstf then 960 else 0) + 5040) ((if rstf then 1 else 0) + 64) :=
  takes_of_exec (exec_readRom h) rfl
    (by simp [wireTime_lineAfterReads, wireTime_lineAfterPrologue, Nat.add_assoc])
    (by simp [samples_lineAfterReads, samples_lineAfterPrologue, Nat.add_assoc])

theorem takes_matchRom : Takes s (.matchRom rstf) ((if rstf then 960 else 0) + 5040) (if rstf then 1 else 0) :=
  takes_of_exec (exec_matchRom h) rfl (by simp [wireTime_lineAfterPrologue, Nat.add_assoc])
    (by simp [samples_lineAfterPrologue])

end RomCommands

/-- A ROM command without presence is its reset sequence (R150). -/
theorem takes_rom_absent {s : State} (h : s.line.level .presence = true) (i : Instr)
    (hi : i = .skipRom true ∨ i = .readRom true ∨ i = .matchRom true) : Takes s i 960 1 :=
  takes_of_exec (exec_rom_absent h i hi) rfl (wireTime_lineAfterReset _) rfl

/-- A zero-time command leaves the line alone (R294). -/
theorem takes_zeroTime {s t : State} {i : Instr} (he : exec i s = .next t) (hline : t.line = s.line) :
    Takes s i 0 0 :=
  takes_of_exec he hline rfl rfl

/-- Settles O46: each duration and each count is that of the line in the command's equation. -/
theorem fixedDurationsAndSamples : Obligations.FixedDurationsAndSamples := by
  intro s _ costs
  have hgo : false = true → s.line.level .presence = false := nofun
  refine ⟨takes_reset s,
    takes_of_exec (exec_writeBit s) rfl (wireTime_sentBits _ _) rfl,
    takes_of_exec (exec_readBit s) rfl (wireTime_lineAfterRead _) rfl,
    takes_of_exec (exec_writeByte s) rfl (wireTime_sentBits _ _) rfl,
    takes_of_exec (exec_readByte s) rfl (wireTime_lineAfterReads 8 _) (samples_lineAfterReads 8 _),
    takes_skipRom hgo, takes_readRom hgo, takes_matchRom hgo, fun hpresent => ?_, fun habsent => ?_,
    takes_zeroTime (exec_searchInit s) rfl, takes_zeroTime (exec_crcClear s) rfl,
    takes_zeroTime (exec_crcUpdate s) rfl, takes_zeroTime (t := crcIdCommand (accept 0x0E s)) rfl (checkCrc_line _),
    takes_zeroTime (t := crcCheckCommand (accept 0x0F s)) rfl (checkCrc_line _)⟩
  · have hgo' : true = true → s.line.level .presence = false := fun _ => level_presence_of_presenceAhead hpresent
    exact ⟨takes_skipRom hgo', takes_readRom hgo', takes_matchRom hgo'⟩
  · have hlevel := level_presence_of_presenceAhead habsent
    exact ⟨takes_rom_absent hlevel _ (.inl rfl), takes_rom_absent hlevel _ (.inr (.inl rfl)),
      takes_rom_absent hlevel _ (.inr (.inr rfl)),
      takes_of_exec (exec_searchRom_absent hlevel) rfl (wireTime_lineAfterReset _) rfl⟩

/-- Settles O47: the line is that of the reset sequence, or of the walk, whose time `passWalk_spec` gives. -/
theorem searchDurationsAndSamples : Obligations.SearchDurationsAndSamples := by
  intro s t _ he
  obtain ⟨-, hgood, hbad⟩ := passWalk_spec s
  cases ran_of_exec he with
  | romAbsent _ hi => rcases hi with hi | hi | hi <;> cases hi
  | searchAbsent => exact ⟨fun _ => ⟨wireTime_lineAfterReset _, rfl⟩, nofun, nofun⟩
  | searchFails w _ hw hf =>
    rw [← hw] at hbad
    exact ⟨nofun, fun _ => hbad hf, nofun⟩
  | searchCompletes w _ hw hf =>
    rw [← hw] at hgood
    exact ⟨nofun, nofun, fun _ => hgood hf⟩

/-- Settles O48: an illegal `MAX` drives nothing; a legal one is the loop's time bound (`EnumEnd.time`). -/
theorem findDevicesTimeBound : Obligations.FindDevicesTimeBound := by
  intro s t _ he
  cases ran_of_exec he with
  | romAbsent _ hi => rcases hi with hi | hi | hi <;> cases hi
  | findIllegal => exact Nat.le_add_right _ _
  | findDevices _ _ _ hend => exact hend.time

end Sys2Proof.Machine
